-- ==== Sys2Proof/Word.lean ====
section
/-! DEFINITION. The widths of 00_scope.md R10 as types. -/

namespace Sys2Proof

/-- A line level, or a bit value after clamping: 1 bit (R10). -/
abbrev Level := BitVec 1

/-- A byte: 8 bits (R10). -/
abbrev Byte := BitVec 8

/-- The operand field of a request, a delay argument, or the raw sample: 16 bits (R10). -/
abbrev Half := BitVec 16

/-- A request word or a response word: 32 bits (R10). -/
abbrev Word := BitVec 32

end Sys2Proof
end

