-- ==== Sys2Proof/Config.lean ====
section
/-! DEFINITION. What is fixed for a run (00_scope.md R7 to R9, 10_state.md R28), and the free values the spec leaves to
the environment (40_line_driver.md R104, 00_scope.md R13). -/

namespace Sys2Proof

/-- The Timing Profile (00_scope.md R7): minimum durations, in microseconds but for `convMs`. -/
structure Timing where
  /-- `T_RSTL_US`: reset pulse, line held low. -/
  rstlUs : Half
  /-- `T_PDS_US`: from release to presence sample. -/
  pdsUs : Half
  /-- `T_PDREST_US`: after the presence sample, before re-driving. -/
  pdrestUs : Half
  /-- `T_W_IDLE_US`: write slot, idle-high lead-in. -/
  wIdleUs : Half
  /-- `T_W_LOW_US`: write slot, initial low pulse. -/
  wLowUs : Half
  /-- `T_W_SLOT_US`: write slot, bit value held. -/
  wSlotUs : Half
  /-- `T_W_REC_US`: write slot, recovery high. -/
  wRecUs : Half
  /-- `T_R_LOW_US`: read slot, initial low pulse. -/
  rLowUs : Half
  /-- `T_R_SETTLE_US`: read slot, from release to sample. -/
  rSettleUs : Half
  /-- `T_R_REST_US`: read slot, after the sample. -/
  rRestUs : Half
  /-- `T_CONV_MS`: conversion wait, milliseconds. -/
  convMs : Half
  deriving DecidableEq, Repr

/-- The defaults of 00_scope.md R7. -/
def Timing.default : Timing where
  rstlUs := 480
  pdsUs := 70
  pdrestUs := 10
  wIdleUs := 1
  wLowUs := 1
  wSlotUs := 60
  wRecUs := 12
  rLowUs := 1
  rSettleUs := 9
  rRestUs := 50
  convMs := 750

/-- The wire command bytes (00_scope.md R8). -/
structure Commands where
  /-- `CMD_SKIP_ROM` -/
  skipRom : Byte
  /-- `CMD_CONVERT_T` -/
  convertT : Byte
  /-- `CMD_READ_SCRATCHPAD` -/
  readScratchpad : Byte
  deriving DecidableEq, Repr

/-- The defaults of 00_scope.md R8, which the spec itself takes from the sensor family. PRESUMED (log 16). -/
def Commands.default : Commands where
  skipRom := 0xCC
  convertT := 0x44
  readScratchpad := 0xBE

/-- `EXPOSE_BYTE_ORDER` (45_temperature.md R215): the order in which the exposure surface hands out the raw register. -/
inductive ByteOrder where
  | little
  | big
  deriving DecidableEq, Repr

/-- The configuration of an engine (00_scope.md R7 to R9; 45_temperature.md R215). -/
structure Config where
  timing : Timing
  commands : Commands
  /-- `N_CALLERS` -/
  nCallers : Nat
  /-- `HOLD_LOCK_DURING_CONVERSION` -/
  holdLock : Bool
  /-- `SAMPLE_ACQUIRE_BOUND_MS`: none, or the bound of SAMPLE's acquisitions. -/
  acquireBound : Option Nat
  /-- `EXPOSE_BYTE_ORDER` -/
  exposeByteOrder : ByteOrder
  deriving DecidableEq, Repr

/-- The defaults of 00_scope.md R7 to R9. `N_CALLERS` and `EXPOSE_BYTE_ORDER` are OPEN in the spec: DESIGN CHOICE
(logs 6 and 18). -/
def Config.default : Config where
  timing := Timing.default
  commands := Commands.default
  nCallers := 3
  holdLock := false
  acquireBound := none
  exposeByteOrder := .little

/-- One choice of the environment: which agent moves next, and how. The schedule is free (00_scope.md R13, 20_memory.md
R59); the host's moves are those of 60_exceptions.md R252. -/
inductive Move where
  /-- caller `c` is given the next step -/
  | turn (c : Nat)
  /-- the host places request word `w` on port `c` -/
  | place (c : Nat) (w : Word)
  /-- the host takes the response on port `c` -/
  | take (c : Nat)
  /-- the host resets the engine -/
  | engineReset
  deriving DecidableEq, Repr, Inhabited

/-- FREE VALUE: the environment's `n`-th move, where State lists none (log 2). -/
opaque Config.freeMove : Nat → Move

/-- FREE VALUE: the level the line shows at the `n`-th draw, where State lists none (40_line_driver.md R104, log 3). -/
opaque Config.freeLevel : Nat → Level

end Sys2Proof
end

