-- ==== Sys2Proof/Syntax.lean ====
section
/-! DEFINITION. The instructions: one constructor per row of spec/opcode_table.json. -/

namespace Sys2Proof

/-- The three wire commands of 30_encoding.md R82. -/
inductive WireCmd where
  | skipRom
  | convertT
  | readScratchpad
  deriving DecidableEq, Repr

/-- The byte that stands for a wire command on the line (00_scope.md R8). -/
def WireCmd.byte (k : Commands) : WireCmd → Byte
  | .skipRom => k.skipRom
  | .convertT => k.convertT
  | .readScratchpad => k.readScratchpad

/-- The sixteen requests of 30_encoding.md R72, and the three wire commands of R82. Operands have the widths of
their fields (R73), so no must-be-zero bit can be set. -/
inductive Instr where
  | lsetout (level : Level)
  | lwrite (level : Level)
  | lsetin
  | lread
  | delayus (n : Half)
  | sleepms (n : Half)
  | rstpd
  | wbit (v : Half)
  | rbit
  | wbyte (b : Byte)
  | rbyte
  | acq
  | tryacq (bound : Half)
  | rel
  | sample
  | decode (r : Half)
  | cmdSkipRom
  | cmdConvertT
  | cmdReadScratchpad
  deriving DecidableEq, Repr

/-- The instruction that sends a wire command. -/
def WireCmd.instr : WireCmd → Instr
  | .skipRom => .cmdSkipRom
  | .convertT => .cmdConvertT
  | .readScratchpad => .cmdReadScratchpad

/-- The wire command an instruction sends, for the three rows that are bytes on the line and not requests. -/
def Instr.wire : Instr → Option WireCmd
  | .cmdSkipRom => some .skipRom
  | .cmdConvertT => some .convertT
  | .cmdReadScratchpad => some .readScratchpad
  | .lsetout _ | .lwrite _ | .lsetin | .lread | .delayus _ | .sleepms _ | .rstpd | .wbit _ | .rbit | .wbyte _
  | .rbyte | .acq | .tryacq _ | .rel | .sample | .decode _ => none

/-- A request: an instruction a host can place on a port (30_encoding.md R70). -/
def Instr.isRequest (i : Instr) : Bool := i.wire.isNone

end Sys2Proof
end

