-- ==== Sys2Proof/WellFormed.lean ====
section
/-! DEFINITION. Well-formed request words (30_encoding.md R74), operands (R73) and configurations (00_scope.md R8, R9). -/

namespace Sys2Proof

/-- The legality test of a request word, clause by clause as 30_encoding.md R74 writes it. -/
def legal (w : Word) : Bool :=
  let op := (w.extractLsb' 24 8).toNat
  decide (w.extractLsb' 16 8 = 0)
    && decide (1 ≤ op ∧ op ≤ 0x10)
    && (! [0x01, 0x02].contains op || decide (w.extractLsb' 1 15 = 0))
    && (! [0x03, 0x04, 0x07, 0x09, 0x0B, 0x0C, 0x0E, 0x0F].contains op || decide (w.extractLsb' 0 16 = 0))
    && (! [0x0A].contains op || decide (w.extractLsb' 8 8 = 0))

/-- The operand field of an instruction, as 30_encoding.md R73 fills it. -/
def Instr.imm : Instr → Half
  | .lsetout l | .lwrite l => l.setWidth 16
  | .delayus n | .sleepms n => n
  | .wbit v => v
  | .wbyte b => b.setWidth 16
  | .tryacq b => b
  | .decode r => r
  | .lsetin | .lread | .rstpd | .rbit | .rbyte | .acq | .rel | .sample
  | .cmdSkipRom | .cmdConvertT | .cmdReadScratchpad => 0

/-- The bits of the operand field that must be zero (30_encoding.md R73). -/
def Instr.mustBeZero : Instr → Half
  | .lsetout _ | .lwrite _ => 0xFFFE
  | .wbyte _ => 0xFF00
  | .delayus _ | .sleepms _ | .wbit _ | .tryacq _ | .decode _ => 0
  | .lsetin | .lread | .rstpd | .rbit | .rbyte | .acq | .rel | .sample
  | .cmdSkipRom | .cmdConvertT | .cmdReadScratchpad => 0xFFFF

/-- No must-be-zero bit of the operand field is set. The operand types leave no other instruction. -/
def Instr.wellFormed (i : Instr) : Bool := decide (i.imm &&& i.mustBeZero = 0)

/-- The three command bytes are distinct (30_encoding.md R82: "exactly three distinct command bytes"). -/
def Commands.wellFormed (k : Commands) : Bool :=
  decide (k.skipRom ≠ k.convertT) && decide (k.skipRom ≠ k.readScratchpad) && decide (k.convertT ≠ k.readScratchpad)

/-- The command bytes are distinct and there is a caller (00_scope.md R9: `N_CALLERS` is at least 1). -/
def Config.wellFormed (c : Config) : Bool := c.commands.wellFormed && decide (1 ≤ c.nCallers)

end Sys2Proof
end

