-- ==== Sys2Proof/Decode.lean ====
section
/-! DEFINITION. Decoding and encoding of request words (30_encoding.md R70 to R74) and wire command bytes (R82). -/

namespace Sys2Proof

/-- Why a code is no instruction. -/
inductive DecodeError where
  /-- `RSV != 0` (30_encoding.md R71) -/
  | reservedField
  /-- an operation code outside `0x01` to `0x10` (R72) -/
  | reservedOp
  /-- a must-be-zero operand bit is set (R73) -/
  | mustBeZero
  /-- a byte that is none of the three wire commands (R82) -/
  | noSuchCommand
  deriving DecidableEq, Repr

/-- `OP` (30_encoding.md R70). -/
def opField (w : Word) : Byte := w.extractLsb' 24 8

/-- `RSV` (30_encoding.md R70). -/
def rsvField (w : Word) : Byte := w.extractLsb' 16 8

/-- `IMM` (30_encoding.md R70). -/
def immField (w : Word) : Half := w.extractLsb' 0 16

/-- An operation whose whole operand field must be zero (R73). -/
def noOperand (imm : Half) (i : Instr) : Except DecodeError Instr :=
  if imm = 0 then .ok i else .error .mustBeZero

/-- An operation whose operand is the level in bit 0 (R73). -/
def levelOperand (imm : Half) (i : Level → Instr) : Except DecodeError Instr :=
  if imm.extractLsb' 1 15 = 0 then .ok (i (imm.extractLsb' 0 1)) else .error .mustBeZero

/-- An operation whose operand is the byte in bits 7 to 0 (R73). -/
def byteOperand (imm : Half) (i : Byte → Instr) : Except DecodeError Instr :=
  if imm.extractLsb' 8 8 = 0 then .ok (i (imm.extractLsb' 0 8)) else .error .mustBeZero

/-- The operation of a code and its operand (30_encoding.md R72, R73). -/
def decodeOp (op : Nat) (imm : Half) : Except DecodeError Instr :=
  match op with
  | 0x01 => levelOperand imm .lsetout
  | 0x02 => levelOperand imm .lwrite
  | 0x03 => noOperand imm .lsetin
  | 0x04 => noOperand imm .lread
  | 0x05 => .ok (.delayus imm)
  | 0x06 => .ok (.sleepms imm)
  | 0x07 => noOperand imm .rstpd
  | 0x08 => .ok (.wbit imm)
  | 0x09 => noOperand imm .rbit
  | 0x0A => byteOperand imm .wbyte
  | 0x0B => noOperand imm .rbyte
  | 0x0C => noOperand imm .acq
  | 0x0D => .ok (.tryacq imm)
  | 0x0E => noOperand imm .rel
  | 0x0F => noOperand imm .sample
  | 0x10 => .ok (.decode imm)
  | _ => .error .reservedOp

/-- The instruction of a request word. -/
def decodeRequest (w : Word) : Except DecodeError Instr :=
  if rsvField w = 0 then decodeOp (opField w).toNat (immField w) else .error .reservedField

/-- The instruction of a byte on the line, under the configured command bytes. -/
def decodeWire (k : Commands) (b : Byte) : Except DecodeError Instr :=
  if b = k.skipRom then .ok .cmdSkipRom
  else if b = k.convertT then .ok .cmdConvertT
  else if b = k.readScratchpad then .ok .cmdReadScratchpad
  else .error .noSuchCommand

/-- What stands for an instruction: a word on a port, or a byte on the line. -/
inductive Code where
  | request (w : Word)
  | wire (b : Byte)
  deriving DecidableEq, Repr

/-- The decoder. -/
def decodeCode (k : Commands) : Code → Except DecodeError Instr
  | .request w => decodeRequest w
  | .wire b => decodeWire k b

/-- The operation code of a request (30_encoding.md R72); a wire command has none. -/
def Instr.opcode : Instr → Byte
  | .lsetout _ => 0x01
  | .lwrite _ => 0x02
  | .lsetin => 0x03
  | .lread => 0x04
  | .delayus _ => 0x05
  | .sleepms _ => 0x06
  | .rstpd => 0x07
  | .wbit _ => 0x08
  | .rbit => 0x09
  | .wbyte _ => 0x0A
  | .rbyte => 0x0B
  | .acq => 0x0C
  | .tryacq _ => 0x0D
  | .rel => 0x0E
  | .sample => 0x0F
  | .decode _ => 0x10
  | .cmdSkipRom | .cmdConvertT | .cmdReadScratchpad => 0x00

/-- The request word: `(OP << 24) | IMM` (30_encoding.md R79). -/
def requestWord (i : Instr) : Word := (i.opcode.setWidth 32 <<< 24) ||| i.imm.setWidth 32

/-- The encoder. -/
def encode (k : Commands) (i : Instr) : Code :=
  match i.wire with
  | some c => .wire (c.byte k)
  | none => .request (requestWord i)

/-- The instruction of a table row's bits, numbered as spec/opcode_table.json numbers them: a row of 8 bits is a byte
on the line, any other row is a request word. -/
def decodeTableWord (nbits w : Nat) : Option Instr :=
  if nbits = 8 then (decodeWire Commands.default (BitVec.ofNat 8 w)).toOption
  else if w < 2 ^ 32 then (decodeRequest (BitVec.ofNat 32 w)).toOption
  else none

end Sys2Proof
end

