-- ==== Sys2Proof/Machine/State.lean ====
section
/-! DEFINITION. The state of the engine (10_state.md), the ways a step can stop, and the state after reset
(70_reset_and_hazards.md R260). -/

namespace Sys2Proof.Machine

/-- `LINE_DIR` (10_state.md R21): not driving, or driving `LINE_OUT`. -/
inductive LineDir where
  | input
  | output
  deriving DecidableEq, Repr

/-- The engine's drive onto the line (10_state.md R23). -/
inductive Drive where
  | low
  | high
  | z
  deriving DecidableEq, Repr

/-- `LOCK` (10_state.md R24): `FREE`, or `HELD(c)` for one caller. -/
inductive Lock where
  | free
  | held (c : Nat)
  deriving DecidableEq, Repr

/-- The causes of 60_exceptions.md R235. Codes 5 to 15 are never raised, so they have no constructor. -/
inductive FaultCause where
  | none
  | illegalRequest
  | lockNotHeld
  | releaseNotOwner
  | recursiveAcquire
  deriving DecidableEq, Repr

/-- `FAULT` (10_state.md R25). -/
structure FaultReg where
  cause : FaultCause
  caller : Nat
  req : Word
  deriving DecidableEq, Repr

/-- An event of `TRACE` (10_state.md R27); the first argument is the caller that performed it. -/
inductive Event where
  | setOut (c : Nat) (v : Level)
  | writeLvl (c : Nat) (v : Level)
  | setIn (c : Nat)
  | sample (c : Nat) (s : Level)
  | delayUs (c : Nat) (n : Half)
  | sleepMs (c : Nat) (n : Half)
  | acquire (c : Nat)
  | release (c : Nat)
  | busy (c : Nat)
  | respond (c : Nat) (w : Word)
  deriving DecidableEq, Repr

/-- The procedure of a sequencer frame (10_state.md R31). `reserved` is the code of an illegal request, which names
no operation: its frame is only ever left by the request that halted the engine (log 8). -/
inductive Proc where
  | lsetout
  | lwrite
  | lsetin
  | lread
  | delayus
  | sleepms
  | rstpd
  | wbit
  | rbit
  | wbyte
  | rbyte
  | acq
  | tryacq
  | rel
  | sample
  | decode
  | reserved (op : Byte)
  deriving DecidableEq, Repr

/-- A frame of `POS` (10_state.md R31): the procedure, and the micro-steps (or bits, or calls) done in it. -/
structure Frame where
  proc : Proc
  index : Nat
  deriving DecidableEq, Repr

/-- `ctx[c].STATE` (10_state.md R30). -/
inductive Status where
  | idle
  | busy
  deriving DecidableEq, Repr

/-- A caller's sequencer context and port (10_state.md R30; 60_exceptions.md R250 to R252). -/
structure Ctx where
  /-- `STATE` -/
  status : Status
  /-- `REQ`: the running request word -/
  req : Word
  /-- `POS`: the sequencer position, outermost frame first -/
  pos : List Frame
  /-- `BITV` -/
  bitv : Level
  /-- `SMP` -/
  smp : Level
  /-- `PRESENT` -/
  present : Level
  /-- `ACC` -/
  acc : Byte
  /-- `IDX`: 0 to 8 -/
  idx : Nat
  /-- `LO` -/
  lo : Byte
  /-- `HI` -/
  hi : Byte
  /-- `RAW` -/
  raw : Half
  /-- `RESP`: the last response word, or none -/
  resp : Option Word
  /-- the request word waiting on the port, or none -/
  port : Option Word
  /-- the port holds a response the host has not taken -/
  ready : Bool
  deriving DecidableEq, Repr

/-- What the environment does next: the schedule and the host's moves, and the levels the line will show. Where a
list is empty the free values of Config stand in, counted by `moved` and `drawn`. The model's own (logs 2 and 3). -/
structure Env where
  moves : List Move
  moved : Nat
  draws : List Level
  drawn : Nat
  deriving DecidableEq, Repr

/-- The state of the engine: configuration (10_state.md R28, log 5), shared state (R21 to R26), one context per caller
(R30), and the model's own `cur` (log 1) and `env`. -/
structure State where
  /-- the configuration; no step writes it -/
  cfg : Config
  /-- `LINE_DIR` -/
  lineDir : LineDir
  /-- `LINE_OUT` -/
  lineOut : Level
  /-- `LOCK` -/
  lock : Lock
  /-- `FAULT` -/
  fault : FaultReg
  /-- `TRACE`, oldest event first -/
  trace : List Event
  /-- `ctx`, by caller number -/
  ctx : List Ctx
  /-- the caller whose step is being taken -/
  cur : Nat
  /-- the environment's choices to come -/
  env : Env
  deriving DecidableEq, Repr

/-- The ways the machine stops with a fault. -/
inductive Fault where
  /-- The engine is in the faulted state (60_exceptions.md R236: "no agent has any enabled step"). Raised by every step
  but the host's reset once `FAULT.CAUSE` is not 0. Safe: the spec's engine does nothing more. -/
  | halted
  /-- The running request stands at a position no sequence has. No run from reset reaches it (log 19). Safe. -/
  | badPosition
  deriving DecidableEq, Repr

/-- The ways a step has no meaning. -/
inductive Refusal where
  /-- An instruction the model has not reached, raised by its arm of `exec`. Safe. -/
  | notModelled (mnemonic : String)
  /-- There is no caller of that number: raised by `exec`, and by the host's moves. Safe. -/
  | noSuchCaller
  /-- The host placed a word on a port whose last request is unanswered (60_exceptions.md R252: a host duty broken,
  "outside what the spec says"). Safe. -/
  | portOccupied
  /-- The host took a response that is not there (60_exceptions.md R252). Safe. -/
  | nothingToTake
  /-- The host reset a running engine while a caller is BUSY (70_reset_and_hazards.md R260). Safe. -/
  | resetWhileBusy
  deriving DecidableEq, Repr

/-- The outcome of a step. -/
abbrev Out := Host.Outcome State Fault Refusal

/-- A context after reset (70_reset_and_hazards.md R260). `STATE`, `POS` and `RESP` are the spec's; the registers the
spec leaves without a value are 0: DESIGN CHOICE (log 7). -/
def Ctx.reset : Ctx where
  status := .idle
  req := 0
  pos := []
  bitv := 0
  smp := 0
  present := 0
  acc := 0
  idx := 0
  lo := 0
  hi := 0
  raw := 0
  resp := none
  port := none
  ready := false

/-- The engine after reset under a configuration and an environment (70_reset_and_hazards.md R260). `LOCK`,
`FAULT.CAUSE`, `TRACE` and the contexts are the spec's; `LINE_DIR`, `LINE_OUT`, `FAULT.CALLER` and `FAULT.REQ` are
unspecified there: DESIGN CHOICE (log 7). -/
def State.resetWith (cfg : Config) (env : Env) : State where
  cfg := cfg
  lineDir := .input
  lineOut := 0
  lock := .free
  fault := ⟨.none, 0, 0⟩
  trace := []
  ctx := List.replicate cfg.nCallers Ctx.reset
  cur := 0
  env := env

/-- The machine after reset, with the default configuration. -/
def State.reset : State := State.resetWith Config.default ⟨[], 0, [], 0⟩

end Sys2Proof.Machine
end

