-- ==== Sys2Proof/Machine/Operands.lean ====
section
/-! DEFINITION. Operand forms and response words (30_encoding.md R73, R76 to R78; 41_bit_codec.md R125; 42_byte_codec.md
R150, R152; 43_transaction.md R168). -/

namespace Sys2Proof.Machine

/-- `clamp(v) = 1 if v != 0 else 0` (41_bit_codec.md R125). -/
def clamp (v : Half) : Level := if v = 0 then 0 else 1

/-- `ACC & (1 << i)`, the value WBYTE passes to WBIT (42_byte_codec.md R150). -/
def maskedBit (acc : Byte) (i : Nat) : Half := (acc &&& (1#8 <<< i)).setWidth 16

/-- `ACC | (s << i)`, the accumulation of RBYTE (42_byte_codec.md R152). -/
def orBit (acc : Byte) (s : Level) (i : Nat) : Byte := acc ||| (s.setWidth 8 <<< i)

/-- `HI ++ LO` (20_memory.md R54). -/
def rawOf (hi lo : Byte) : Half := (hi.setWidth 16 <<< 8) ||| lo.setWidth 16

/-- The result codes of 30_encoding.md R77. `transferFault` is never produced (60_exceptions.md R234). -/
inductive ResultCode where
  | ok
  | noResponse
  | busBusy
  | transferFault
  deriving DecidableEq, Repr

/-- `STATUS` (30_encoding.md R77). -/
def statusCode : ResultCode → BitVec 4
  | .ok => 0x0
  | .noResponse => 0x1
  | .busBusy => 0x2
  | .transferFault => 0x3

/-- The response word `(status << 28) | data` (60_exceptions.md R250; 30_encoding.md R76). -/
def responseWord (r : ResultCode) (data : BitVec 17) : Word :=
  ((statusCode r).setWidth 32 <<< 28) ||| data.setWidth 32

/-- `FAULT.CAUSE` as the host reads it (60_exceptions.md R235). -/
def causeCode : FaultCause → BitVec 4
  | .none => 0
  | .illegalRequest => 1
  | .lockNotHeld => 2
  | .releaseNotOwner => 3
  | .recursiveAcquire => 4

/-- `op(w)` as a procedure (10_state.md R36, 30_encoding.md R72). -/
def opProc (w : Word) : Proc :=
  match (opField w).toNat with
  | 0x01 => .lsetout
  | 0x02 => .lwrite
  | 0x03 => .lsetin
  | 0x04 => .lread
  | 0x05 => .delayus
  | 0x06 => .sleepms
  | 0x07 => .rstpd
  | 0x08 => .wbit
  | 0x09 => .rbit
  | 0x0A => .wbyte
  | 0x0B => .rbyte
  | 0x0C => .acq
  | 0x0D => .tryacq
  | 0x0E => .rel
  | 0x0F => .sample
  | 0x10 => .decode
  | _ => .reserved (opField w)

end Sys2Proof.Machine
end

