-- ==== Sys2Proof/Machine/Flags.lean ====
section
/-! DEFINITION. The engine's flags: `PRESENT`, its only status flag (10_state.md R33), the result RSTPD draws from it
(41_bit_codec.md R122), and the two parts of a decoded sample (45_temperature.md R210). -/

namespace Sys2Proof.Machine

/-- `PRESENT` of a sampled level: 1 if the line was pulled low (10_state.md R33). -/
def presentOf (s : Level) : Level := if s = 0 then 1 else 0

/-- The result RSTPD reports (41_bit_codec.md R120, R122). -/
def presenceResult (present : Level) : ResultCode := if present = 1 then .ok else .noResponse

/-- `NEG` (45_temperature.md R210). -/
def negOf (r : Half) : Level := r.extractLsb' 15 1

/-- `MAG`, negated at 16 bits (45_temperature.md R210, R211). -/
def magOf (r : Half) : Half := if negOf r = 1 then ~~~r + 1 else r

/-- The data field of DECODE's response (45_temperature.md R210). -/
def decodeData (r : Half) : BitVec 17 := ((negOf r).setWidth 17 <<< 16) ||| (magOf r).setWidth 17

end Sys2Proof.Machine
end

