-- ==== Sys2Proof/Machine/Ops.lean ====
section
/-! DEFINITION. The shared operations: contexts, the trace, the micro-steps of 00_scope.md R12, the lock (44_lock.md),
starting and answering a request (10_state.md R36, 60_exceptions.md R250), taking a fault (60_exceptions.md R236) and
engine reset (70_reset_and_hazards.md R260), and the sequencing of micro-steps (10_state.md R31). -/

namespace Sys2Proof.Machine

/-! ## Contexts -/

/-- The context of the caller whose step is being taken. -/
def State.me (s : State) : Ctx := s.ctx.getD s.cur Ctx.reset

/-- Change caller `c`'s context. -/
def State.mapCtx (s : State) (c : Nat) (f : Ctx → Ctx) : State := { s with ctx := s.ctx.modify c f }

/-- Change the stepping caller's context. -/
def State.mapMe (s : State) (f : Ctx → Ctx) : State := s.mapCtx s.cur f

/-- Put the stepping caller at a sequencer position. -/
def State.setPos (s : State) (pos : List Frame) : State := s.mapMe fun x => { x with pos := pos }

/-- `emit(e)` (00_scope.md R12): append an event to `TRACE`. -/
def State.emit (s : State) (e : Event) : State := { s with trace := s.trace ++ [e] }

/-- A fault is recorded (60_exceptions.md R236). -/
def State.faulted (s : State) : Bool := decide (s.fault.cause ≠ .none)

/-- The engine's drive onto the line (10_state.md R23). -/
def State.drive (s : State) : Drive :=
  match s.lineDir with
  | .input => .z
  | .output => if s.lineOut = 0 then .low else .high

/-- What the host reads in `FAULT` (60_exceptions.md R252): `CAUSE`, `CALLER` and `REQ`. -/
def State.readFault (s : State) : BitVec 4 × Nat × Word := (causeCode s.fault.cause, s.fault.caller, s.fault.req)

/-! ## Line micro-steps (40_line_driver.md) -/

/-- `SetOut(v)` (R100). -/
def State.setOut (s : State) (v : Level) : State :=
  { s with lineDir := .output, lineOut := v }.emit (.setOut s.cur v)

/-- `WriteLvl(v)` (R101): the latch changes, the direction does not. -/
def State.writeLvl (s : State) (v : Level) : State :=
  { s with lineOut := v }.emit (.writeLvl s.cur v)

/-- `SetIn()` (R102): the latch is kept. -/
def State.setIn (s : State) : State :=
  { s with lineDir := .input }.emit (.setIn s.cur)

/-- `draw_level(c)` (R104): the level the line shows at this draw, a free value where the environment lists none. -/
def State.drawLevel (s : State) : Level :=
  match s.env.draws with
  | v :: _ => v
  | [] => Config.freeLevel s.env.drawn

/-- The environment after a draw. -/
def Env.afterDraw (e : Env) : Env := { e with draws := e.draws.tail, drawn := e.drawn + 1 }

/-- `s <- Sample()` (R103): `SMP` takes the drawn level. -/
def State.sample (s : State) : State :=
  ({ s with env := s.env.afterDraw }.mapMe fun x => { x with smp := s.drawLevel }).emit (.sample s.cur s.drawLevel)

/-- `DelayUs(n)` (R105): an event and nothing more. -/
def State.delayUs (s : State) (n : Half) : State := s.emit (.delayUs s.cur n)

/-- `SleepMs(n)` (R107). -/
def State.sleepMs (s : State) (n : Half) : State := s.emit (.sleepMs s.cur n)

/-! ## Lock micro-steps (44_lock.md) -/

/-- The stepping caller holds the lock. -/
def State.holds (s : State) : Bool := decide (s.lock = .held s.cur)

/-- `Acquire()` (R190), where it is enabled. -/
def State.acquire (s : State) : State := { s with lock := .held s.cur }.emit (.acquire s.cur)

/-- `Release()` (R194). -/
def State.release (s : State) : State := { s with lock := .free }.emit (.release s.cur)

/-- `TimeOut()` (R193), where it is enabled. -/
def State.timeOut (s : State) : State := s.emit (.busy s.cur)

/-- What an acquisition comes to. -/
inductive Grab where
  /-- the lock was taken -/
  | got (s : State)
  /-- the bounded acquisition timed out -/
  | late (s : State)
  /-- no alternative is enabled: the caller has no step -/
  | wait

/-- One acquisition (44_lock.md R190; R192 and R193 if bounded). Acquire is enabled only when `LOCK = FREE`, TimeOut
only when another caller holds the lock. -/
def State.grab (s : State) (bounded : Bool) : Grab :=
  match s.lock with
  | .free => .got s.acquire
  | .held d => if bounded ∧ d ≠ s.cur then .late s.timeOut else .wait

/-! ## Requests -/

/-- `respond(status, data)` (60_exceptions.md R250). -/
def State.respond (s : State) (r : ResultCode) (data : BitVec 17) : State :=
  (s.mapMe fun x =>
    { x with status := .idle, pos := [], resp := some (responseWord r data), ready := true }).emit
    (.respond s.cur (responseWord r data))

/-- TAKING A FAULT (60_exceptions.md R236): cause, caller and request word are recorded; nothing else changes. There is
no return from it but engine reset (R238). -/
def State.raise (s : State) (cause : FaultCause) (w : Word) : State := { s with fault := ⟨cause, s.cur, w⟩ }

/-- ENGINE RESET, the only way out of a fault (70_reset_and_hazards.md R260; 60_exceptions.md R238). The configuration
and the environment's choices are not the engine's, so they stay. -/
def State.engineReset (s : State) : State := State.resetWith s.cfg s.env

/-- The start step of a request (10_state.md R36) whose checks found `cause`, or nothing. -/
def State.start (s : State) (w : Word) (p : Proc) (cause : Option FaultCause) : State :=
  let begun := s.mapMe fun x => { x with status := .busy, req := w, pos := [⟨p, 0⟩] }
  match cause with
  | some f => begun.raise f w
  | none => begun

/-- Check 2a or 2b of 60_exceptions.md R233: the caller must hold the lock. -/
def mustHold (f : FaultCause) (s : State) : Option FaultCause := if s.holds then none else some f

/-- Check 2c of 60_exceptions.md R233: the caller must not hold the lock. -/
def mustNotHold (s : State) : Option FaultCause := if s.holds then some .recursiveAcquire else none

/-- The operations of 60_exceptions.md R233 without a lock check. -/
def noCheck (_ : State) : Option FaultCause := none

/-- One step of a request by the stepping caller: the start step if it is IDLE, else the step `body` takes at the index
of its outermost frame. The halted engine takes none (60_exceptions.md R236). -/
def request (w : Word) (p : Proc) (check : State → Option FaultCause) (body : Nat → List Frame → State → Out)
    (s : State) : Out :=
  if s.faulted then .fault .halted
  else if s.ctx.length ≤ s.cur then .refused .noSuchCaller
  else match s.me.status with
    | .idle => .next (s.start w p (check s))
    | .busy =>
      match s.me.pos with
      | f :: inner => if f.proc = p then body f.index inner s else .fault .badPosition
      | [] => .fault .badPosition

/-! ## Sequences of micro-steps -/

/-- A line or delay micro-step of 00_scope.md R12. -/
inductive Micro where
  | setOut (v : Level)
  | writeLvl (v : Level)
  | setIn
  | sample
  | delayUs (n : Half)
  deriving DecidableEq, Repr

/-- Take a micro-step. -/
def State.micro (s : State) : Micro → State
  | .setOut v => s.setOut v
  | .writeLvl v => s.writeLvl v
  | .setIn => s.setIn
  | .sample => s.sample
  | .delayUs n => s.delayUs n

/-- Take micro-step `k` of a sequence; `onSample` is what the sequence adds to its Sample micro-step. -/
def runMicro (seq : List Micro) (onSample : State → State) (k : Nat) (s : State) : State :=
  match seq[k]? with
  | some .sample => onSample (s.micro .sample)
  | some m => s.micro m
  | none => s

/-- A request of `n` micro-steps and its answer (10_state.md R31: the index counts the micro-steps taken). -/
def sequence (p : Proc) (n : Nat) (micro : Nat → State → State) (answer : State → State)
    (k : Nat) (inner : List Frame) (s : State) : Out :=
  match inner with
  | [] =>
    if k < n then .next ((micro k s).setPos [⟨p, k + 1⟩])
    else if k = n then .next (answer s)
    else .fault .badPosition
  | _ :: _ => .fault .badPosition

/-- Micro-step `k` of a called procedure of `n`: the state, and the procedure's frame, popped after the last micro-step. -/
def callSeqAt (p : Proc) (n : Nat) (micro : Nat → State → State) (k : Nat) (s : State) : Option (State × List Frame) :=
  if k + 1 < n then some (micro k s, [⟨p, k + 1⟩])
  else if k + 1 = n then some (micro k s, [])
  else none

/-- One micro-step of a called procedure of `n` micro-steps. `inner` holds the frames inside the caller's: none before
the call, and none again once the procedure has finished and its frame is popped (10_state.md R31, log 12). -/
def callSeq (p : Proc) (n : Nat) (micro : Nat → State → State) (inner : List Frame) (s : State) :
    Option (State × List Frame) :=
  match inner with
  | [] => callSeqAt p n micro 0 s
  | [f] => if f.proc = p then callSeqAt p n micro f.index s else none
  | _ :: _ :: _ => none

/-- One micro-step of bit `i` of a byte procedure whose bits are calls of `q`, `n` micro-steps each: the state, the bits
done then, and the frames inside. -/
def byteBit (q : Proc) (n : Nat) (micro : Nat → Nat → State → State) (i : Nat) (inner : List Frame) (s : State) :
    Option (State × Nat × List Frame) :=
  if i < 8 then
    match callSeq q n (micro i) inner s with
    | some (t, []) => some (t, i + 1, [])
    | some (t, f :: fs) => some (t, i, f :: fs)
    | none => none
  else none

/-- A byte request: eight bits and its answer (42_byte_codec.md). -/
def byteRequest (p q : Proc) (n : Nat) (micro : Nat → Nat → State → State) (answer : State → State)
    (i : Nat) (inner : List Frame) (s : State) : Out :=
  if i = 8 ∧ inner = [] then .next (answer s)
  else match byteBit q n micro i inner s with
    | some (t, j, fs) => .next (t.setPos (⟨p, j⟩ :: fs))
    | none => .fault .badPosition

/-- One micro-step of bit `i` of a called byte procedure: its frame is popped after the eighth bit. -/
def callByteAt (p q : Proc) (n : Nat) (micro : Nat → Nat → State → State) (i : Nat) (rest : List Frame) (s : State) :
    Option (State × List Frame) :=
  match byteBit q n micro i rest s with
  | some (t, j, fs) => if j = 8 then some (t, []) else some (t, ⟨p, j⟩ :: fs)
  | none => none

/-- One micro-step of a called byte procedure; `inner` as in `callSeq`. -/
def callByte (p q : Proc) (n : Nat) (micro : Nat → Nat → State → State) (inner : List Frame) (s : State) :
    Option (State × List Frame) :=
  match inner with
  | [] => callByteAt p q n micro 0 [] s
  | f :: rest => if f.proc = p then callByteAt p q n micro f.index rest s else none

/-! ## The environment's moves -/

/-- The next move: the environment's, a free value where it lists none (log 2). -/
def State.nextMove (s : State) : Move :=
  match s.env.moves with
  | m :: _ => m
  | [] => Config.freeMove s.env.moved

/-- The state once the move is taken from the environment. -/
def State.afterMove (s : State) : State :=
  { s with env := { s.env with moves := s.env.moves.tail, moved := s.env.moved + 1 } }

/-- The state in which caller `c` takes the step. -/
def State.as (s : State) (c : Nat) : State := { s with cur := c }

/-- The waiting request word leaves the stepping caller's port. -/
def State.fetched (s : State) : State := s.mapMe fun x => { x with port := none }

/-- The host places a word on a port (60_exceptions.md R252): only on one whose caller is IDLE and which holds no
unanswered word. -/
def State.hostPlace (s : State) (c : Nat) (w : Word) : Out :=
  if s.faulted then .fault .halted
  else match s.ctx[c]? with
    | none => .refused .noSuchCaller
    | some x =>
      if x.status = .idle ∧ x.port = none then .next (s.mapCtx c fun x => { x with port := some w })
      else .refused .portOccupied

/-- The host takes the response on a port (60_exceptions.md R252). `RESP` keeps the word. -/
def State.hostTake (s : State) (c : Nat) : Out :=
  if s.faulted then .fault .halted
  else match s.ctx[c]? with
    | none => .refused .noSuchCaller
    | some x =>
      if x.ready then .next (s.mapCtx c fun x => { x with ready := false })
      else .refused .nothingToTake

/-- The host resets the engine (60_exceptions.md R252, 70_reset_and_hazards.md R260): when no caller is BUSY, or when
the engine has halted (60_exceptions.md R238, log 9). -/
def State.hostReset (s : State) : Out :=
  if s.faulted ∨ s.ctx.all (fun x => decide (x.status = .idle)) then .next s.engineReset
  else .refused .resetWhileBusy

end Sys2Proof.Machine
end

