-- ==== Sys2Proof/Machine/BusLock.lean ====
section
/-! DEFINITION. The Bus Lock's requests (44_lock.md R190, R192, R194). -/

namespace Sys2Proof.Machine

/-- The body of ACQ and TRYACQ: index 0 is the one micro-step, 1 the answer `OK`, 2 the answer `BUS_BUSY` after a
time-out (10_state.md R31: the lock outcome skips forward; log 13). A caller that waits stays where it is. -/
def acquireBody (p : Proc) (bounded : Bool) (k : Nat) (inner : List Frame) (s : State) : Out :=
  match inner with
  | _ :: _ => .fault .badPosition
  | [] =>
    match k with
    | 0 =>
      match s.grab bounded with
      | .got t => .next (t.setPos [⟨p, 1⟩])
      | .late t => .next (t.setPos [⟨p, 2⟩])
      | .wait => .next s
    | 1 => .next (s.respond .ok 0)
    | 2 => if bounded then .next (s.respond .busBusy 0) else .fault .badPosition
    | _ => .fault .badPosition

/-- ACQ (R190): acquire the lock, blocking. -/
def execAcq (s : State) : Out :=
  request (requestWord .acq) .acq mustNotHold (acquireBody .acq false) s

/-- TRYACQ (R192): acquire the lock with a bound. There is no clock, so the bound changes nothing in the step. -/
def execTryacq (bound : Half) (s : State) : Out :=
  request (requestWord (.tryacq bound)) .tryacq mustNotHold (acquireBody .tryacq true) s

/-- REL (R194): release the lock. -/
def execRel (s : State) : Out :=
  request (requestWord .rel) .rel (mustHold .releaseNotOwner)
    (sequence .rel 1 (fun _ t => t.release) (fun t => t.respond .ok 0)) s

end Sys2Proof.Machine
end

