-- ==== Sys2Proof/Machine/LineDriver.lean ====
section
/-! DEFINITION. The line driver's requests (40_line_driver.md R100 to R107). -/

namespace Sys2Proof.Machine

/-- LSETOUT (R100): drive the line at a level. -/
def execLsetout (level : Level) (s : State) : Out :=
  request (requestWord (.lsetout level)) .lsetout (mustHold .lockNotHeld)
    (sequence .lsetout 1 (fun _ t => t.setOut level) (fun t => t.respond .ok 0)) s

/-- LWRITE (R101): set the output level without changing direction. -/
def execLwrite (level : Level) (s : State) : Out :=
  request (requestWord (.lwrite level)) .lwrite (mustHold .lockNotHeld)
    (sequence .lwrite 1 (fun _ t => t.writeLvl level) (fun t => t.respond .ok 0)) s

/-- LSETIN (R102): release the line. -/
def execLsetin (s : State) : Out :=
  request (requestWord .lsetin) .lsetin (mustHold .lockNotHeld)
    (sequence .lsetin 1 (fun _ t => t.setIn) (fun t => t.respond .ok 0)) s

/-- LREAD (R103): sample the line level. -/
def execLread (s : State) : Out :=
  request (requestWord .lread) .lread (mustHold .lockNotHeld)
    (sequence .lread 1 (fun _ t => t.sample) (fun t => t.respond .ok (t.me.smp.setWidth 17))) s

/-- DELAYUS (R105): microsecond delay. -/
def execDelayus (n : Half) (s : State) : Out :=
  request (requestWord (.delayus n)) .delayus noCheck
    (sequence .delayus 1 (fun _ t => t.delayUs n) (fun t => t.respond .ok 0)) s

/-- SLEEPMS (R107): millisecond sleep. -/
def execSleepms (n : Half) (s : State) : Out :=
  request (requestWord (.sleepms n)) .sleepms noCheck
    (sequence .sleepms 1 (fun _ t => t.sleepMs n) (fun t => t.respond .ok 0)) s

end Sys2Proof.Machine
end

