-- ==== Sys2Proof/Machine/Temperature.lean ====
section
/-! DEFINITION. The temperature decoder's request, and the encodings at the exposure surface (45_temperature.md). The
surface itself is external; the encodings are here so that a consumer can be checked against the engine's output. -/

namespace Sys2Proof.Machine

/-- DECODE (R210): sign-and-magnitude decode. It has no micro-step but its answer (70_reset_and_hazards.md R274). -/
def execDecode (r : Half) (s : State) : Out :=
  request (requestWord (.decode r)) .decode noCheck
    (sequence .decode 0 (fun _ t => t) (fun t => t.respond .ok (decodeData r))) s

/-- `temp16(r)`: the temperature in sixteenths of a degree (R212). -/
def temp16 (r : Half) : Int := r.toInt

/-- The temperature by sign and magnitude, in sixteenths of a degree (R210). -/
def signedMagnitude (r : Half) : Int := if negOf r = 1 then -((magOf r).toNat : Int) else ((magOf r).toNat : Int)

/-- `value10000(r)` (R216). -/
def value10000 (r : Half) : Int := temp16 r * 625

/-- The decimal digits of a number below `10 ^ fuel`, in ASCII, most significant first; none for zero. -/
def decimalDigits : Nat → Nat → List Byte
  | 0, _ => []
  | fuel + 1, n => if n = 0 then [] else decimalDigits fuel (n / 10) ++ [BitVec.ofNat 8 (0x30 + n % 10)]

/-- A decimal integer as C's `%d` writes it (R216). -/
def decimalText (n : Int) : List Byte :=
  if n = 0 then [0x30]
  else if n < 0 then 0x2D :: decimalDigits 12 n.natAbs
  else decimalDigits 12 n.natAbs

/-- The text form of a raw register, in ASCII: `temp = `, the integer, a line feed (R216). -/
def exposeText (r : Half) : List Byte :=
  [0x74, 0x65, 0x6D, 0x70, 0x20, 0x3D, 0x20] ++ decimalText (value10000 r) ++ [0x0A]

/-- The binary form of a raw register (R215), in the byte order the surface is configured with. -/
def exposeBinary (order : ByteOrder) (r : Half) : List Byte :=
  let low : Byte := r.extractLsb' 0 8
  let high : Byte := r.extractLsb' 8 8
  match order with
  | .little => [low, high]
  | .big => [high, low]

/-- The raw register a SAMPLE response gives the surface: none on a failed sample (R218). -/
def exposedRaw (resp : Word) : Option Half :=
  if resp.extractLsb' 28 4 = statusCode .ok then some (resp.extractLsb' 0 16) else none

end Sys2Proof.Machine
end

