-- ==== Sys2Proof/Machine/BitCodec.lean ====
section
/-! DEFINITION. The bit codec: reset and presence, write slot, read slot (41_bit_codec.md R120, R124, R127), each a
request and a procedure. -/

namespace Sys2Proof.Machine

/-- Micro-steps S1 to S8 of RSTPD (R120). -/
def rstpdSeq (t : Timing) : List Micro :=
  [.setOut 0, .delayUs t.rstlUs, .writeLvl 1, .setIn, .delayUs t.pdsUs, .sample, .delayUs t.pdrestUs, .setOut 1]

/-- Micro-steps W1 to W8 of WBIT for the clamped bit `b` (R124). -/
def wbitSeq (t : Timing) (b : Level) : List Micro :=
  [.setOut 1, .delayUs t.wIdleUs, .writeLvl 0, .delayUs t.wLowUs, .writeLvl b, .delayUs t.wSlotUs, .writeLvl 1,
    .delayUs t.wRecUs]

/-- Micro-steps B1 to B6 of RBIT (R127). -/
def rbitSeq (t : Timing) : List Micro :=
  [.setOut 0, .delayUs t.rLowUs, .setIn, .delayUs t.rSettleUs, .sample, .delayUs t.rRestUs]

/-- `PRESENT` takes the result of the sample just made (micro-step S6, 10_state.md R33). -/
def State.recordPresence (s : State) : State := s.mapMe fun x => { x with present := presentOf x.smp }

/-- Micro-step `k` of RSTPD. -/
def rstpdMicro (k : Nat) (s : State) : State := runMicro (rstpdSeq s.cfg.timing) State.recordPresence k s

/-- Micro-step `k` of WBIT with value `v`: `BITV` is written in W1 and read after it (R124). -/
def wbitMicro (v : Half) (k : Nat) (s : State) : State :=
  let s := if k = 0 then s.mapMe fun x => { x with bitv := clamp v } else s
  runMicro (wbitSeq s.cfg.timing s.me.bitv) id k s

/-- Micro-step `k` of RBIT; `onSample` is what an enclosing procedure adds to B5. -/
def rbitMicro (onSample : State → State) (k : Nat) (s : State) : State :=
  runMicro (rbitSeq s.cfg.timing) onSample k s

/-- RSTPD (R120): reset pulse and presence detection. -/
def execRstpd (s : State) : Out :=
  request (requestWord .rstpd) .rstpd (mustHold .lockNotHeld)
    (sequence .rstpd 8 rstpdMicro
      (fun t => t.respond (presenceResult t.me.present) (t.me.present.setWidth 17))) s

/-- WBIT (R124): one write slot. -/
def execWbit (v : Half) (s : State) : Out :=
  request (requestWord (.wbit v)) .wbit (mustHold .lockNotHeld)
    (sequence .wbit 8 (wbitMicro v) (fun t => t.respond .ok 0)) s

/-- RBIT (R127): one read slot. -/
def execRbit (s : State) : Out :=
  request (requestWord .rbit) .rbit (mustHold .lockNotHeld)
    (sequence .rbit 6 (rbitMicro id) (fun t => t.respond .ok (t.me.smp.setWidth 17))) s

end Sys2Proof.Machine
end

