-- ==== Sys2Proof/Machine/ByteCodec.lean ====
section
/-! DEFINITION. The byte codec: a byte written or read least significant bit first (42_byte_codec.md R150, R152). -/

namespace Sys2Proof.Machine

/-- Load the accumulator for a byte: `ACC`, and `IDX <- 0`. -/
def State.beginByte (s : State) (acc : Byte) : State := s.mapMe fun x => { x with acc := acc, idx := 0 }

/-- `IDX <- i + 1` (the last micro-step of bit `i`). -/
def State.bitDone (s : State) (i : Nat) : State := s.mapMe fun x => { x with idx := i + 1 }

/-- `ACC <- ACC | (s << i)`, with the sample just made (micro-step B5 of bit `i`, R152). -/
def State.accumulate (i : Nat) (s : State) : State := s.mapMe fun x => { x with acc := orBit x.acc x.smp i }

/-- Micro-step `k` of bit `i` of WBYTE (R150). -/
def wbyteMicro (b : Byte) (i k : Nat) (s : State) : State :=
  let s := if i = 0 ∧ k = 0 then s.beginByte b else s
  let s := wbitMicro (maskedBit s.me.acc i) k s
  if k = 7 then s.bitDone i else s

/-- Micro-step `k` of bit `i` of RBYTE (R152). -/
def rbyteMicro (i k : Nat) (s : State) : State :=
  let s := if i = 0 ∧ k = 0 then s.beginByte 0 else s
  let s := rbitMicro (State.accumulate i) k s
  if k = 5 then s.bitDone i else s

/-- One micro-step of WBYTE called as a procedure. -/
def callWbyte (b : Byte) (inner : List Frame) (s : State) : Option (State × List Frame) :=
  callByte .wbyte .wbit 8 (wbyteMicro b) inner s

/-- One micro-step of RBYTE called as a procedure. -/
def callRbyte (inner : List Frame) (s : State) : Option (State × List Frame) :=
  callByte .rbyte .rbit 6 rbyteMicro inner s

/-- A request that writes byte `b`. -/
def writeByte (b : Byte) (s : State) : Out :=
  request (requestWord (.wbyte b)) .wbyte (mustHold .lockNotHeld)
    (byteRequest .wbyte .wbit 8 (wbyteMicro b) (fun t => t.respond .ok 0)) s

/-- WBYTE (R150): write one byte. -/
def execWbyte (b : Byte) (s : State) : Out := writeByte b s

/-- RBYTE (R152): read one byte. -/
def execRbyte (s : State) : Out :=
  request (requestWord .rbyte) .rbyte (mustHold .lockNotHeld)
    (byteRequest .rbyte .rbit 6 rbyteMicro (fun t => t.respond .ok (t.me.acc.setWidth 17))) s

end Sys2Proof.Machine
end

