-- ==== Sys2Proof/Machine/Transaction.lean ====
section
/-! DEFINITION. The transaction sequencer: SAMPLE (43_transaction.md R160 to R172), and the wire commands it sends
(30_encoding.md R82). -/

namespace Sys2Proof.Machine

/-- A micro-step or call of SAMPLE's own frame (43_transaction.md R160). -/
inductive SampleItem where
  | acquire
  | presence
  | command (c : WireCmd)
  | release
  | sleep
  | readLow
  | readHigh
  | respondRaw
  | respondNoResponse
  | respondBusBusy
  deriving DecidableEq, Repr

/-- Phases 1 to 10 of SAMPLE; `hold` is `HOLD_LOCK_DURING_CONVERSION`, with which the Release of phase 4 and the
Acquire of phase 5 are absent (R164, R165). -/
def samplePhases (hold : Bool) : List SampleItem :=
  [.acquire, .presence, .command .skipRom, .command .convertT]
    ++ (if hold then [] else [.release])
    ++ [.sleep]
    ++ (if hold then [] else [.acquire])
    ++ [.presence, .command .skipRom, .command .readScratchpad, .readLow, .readHigh, .release, .respondRaw]

/-- SAMPLE with its failure exits, which the branches skip forward to (10_state.md R31, log 13). -/
def samplePlan (hold : Bool) : List SampleItem :=
  samplePhases hold ++ [.release, .respondNoResponse, .respondBusBusy]

/-- Where the exit of a failed presence check begins (R162, R166). -/
def presenceExit (hold : Bool) : Nat := (samplePhases hold).length

/-- Where the exit of a timed-out acquisition stands (R172). -/
def busyExit (hold : Bool) : Nat := (samplePhases hold).length + 2

/-- Put SAMPLE at index `j` with the frames of the running call inside. -/
def State.sampleAt (s : State) (j : Nat) (inner : List Frame) : Out := .next (s.setPos (⟨.sample, j⟩ :: inner))

/-- Phases 1 and 5 (R161, R172): ACQ's acquisition, or TRYACQ's where a bound is configured. -/
def sampleAcquire (j : Nat) (s : State) : Out :=
  match s.grab s.cfg.acquireBound.isSome with
  | .got t => t.sampleAt (j + 1) []
  | .late t => t.sampleAt (busyExit s.cfg.holdLock) []
  | .wait => .next s

/-- One micro-step of the RSTPD of phases 2 and 6; the branch is taken when it returns (R162, R166). -/
def samplePresence (j : Nat) (inner : List Frame) (s : State) : Out :=
  match callSeq .rstpd 8 rstpdMicro inner s with
  | some (t, []) => if t.me.present = 1 then t.sampleAt (j + 1) [] else t.sampleAt (presenceExit s.cfg.holdLock) []
  | some (t, f :: fs) => t.sampleAt j (f :: fs)
  | none => .fault .badPosition

/-- One micro-step of a called byte procedure; `store` is what SAMPLE does with its result. -/
def sampleCall (call : Option (State × List Frame)) (store : State → State) (j : Nat) : Out :=
  match call with
  | some (t, []) => (store t).sampleAt (j + 1) []
  | some (t, f :: fs) => t.sampleAt j (f :: fs)
  | none => .fault .badPosition

/-- `LO <-` the byte read (R168). -/
def State.storeLow (s : State) : State := s.mapMe fun x => { x with lo := x.acc }

/-- `HI <-` the byte read, and `RAW <- HI ++ LO` (R168). -/
def State.storeHigh (s : State) : State := s.mapMe fun x => { x with hi := x.acc, raw := rawOf x.acc x.lo }

/-- One micro-step of SAMPLE at item `item`, which stands at index `j`. -/
def sampleItem (item : SampleItem) (j : Nat) (inner : List Frame) (s : State) : Out :=
  match item, inner with
  | .presence, inner => samplePresence j inner s
  | .command c, inner => sampleCall (callWbyte (c.byte s.cfg.commands) inner s) id j
  | .readLow, inner => sampleCall (callRbyte inner s) State.storeLow j
  | .readHigh, inner => sampleCall (callRbyte inner s) State.storeHigh j
  | .acquire, [] => sampleAcquire j s
  | .release, [] => s.release.sampleAt (j + 1) []
  | .sleep, [] => (s.sleepMs s.cfg.timing.convMs).sampleAt (j + 1) []
  | .respondRaw, [] => .next (s.respond .ok (s.me.raw.setWidth 17))
  | .respondNoResponse, [] => .next (s.respond .noResponse 0)
  | .respondBusBusy, [] => .next (s.respond .busBusy 0)
  | .acquire, _ :: _ | .release, _ :: _ | .sleep, _ :: _ | .respondRaw, _ :: _ | .respondNoResponse, _ :: _
  | .respondBusBusy, _ :: _ => .fault .badPosition

/-- One micro-step of SAMPLE at index `j`. -/
def sampleBody (j : Nat) (inner : List Frame) (s : State) : Out :=
  match (samplePlan s.cfg.holdLock)[j]? with
  | some item => sampleItem item j inner s
  | none => .fault .badPosition

/-- SAMPLE (R160): one full sample cycle. -/
def execSample (s : State) : Out :=
  request (requestWord .sample) .sample mustNotHold sampleBody s

/-- The command a position sends: SAMPLE stands at the call that sends it. -/
def commandAt (cfg : Config) (pos : List Frame) : Option WireCmd :=
  match pos with
  | [] => none
  | f :: _ =>
    if f.proc = .sample then
      match (samplePlan cfg.holdLock)[f.index]? with
      | some (.command c) => some c
      | _ => none
    else none

/-- One step of sending a wire command (30_encoding.md R82: "always with WBYTE semantics"): where SAMPLE stands at the
call that sends it, SAMPLE's micro-step; else the request `WBYTE` of its byte (R80; log 15). -/
def sendCommand (c : WireCmd) (s : State) : Out :=
  if s.me.status = .busy ∧ commandAt s.cfg s.me.pos = some c then execSample s
  else writeByte (c.byte s.cfg.commands) s

/-- CMD_SKIP_ROM (R82). -/
def execCmdSkipRom (s : State) : Out := sendCommand .skipRom s

/-- CMD_CONVERT_T (R82). -/
def execCmdConvertT (s : State) : Out := sendCommand .convertT s

/-- CMD_READ_SCRATCHPAD (R82). -/
def execCmdReadScratchpad (s : State) : Out := sendCommand .readScratchpad s

end Sys2Proof.Machine
end

