-- ==== Sys2Proof/Machine/Dispatch.lean ====
section
/-! DEFINITION. One arm per instruction: the step its meaning takes for the caller `State.cur`. -/

namespace Sys2Proof.Machine

def exec (i : Instr) (s : State) : Host.Outcome State Fault Refusal :=
  match i with
  | .lsetout level => Sys2Proof.Machine.execLsetout level s
  | .lwrite level => Sys2Proof.Machine.execLwrite level s
  | .lsetin => Sys2Proof.Machine.execLsetin s
  | .lread => Sys2Proof.Machine.execLread s
  | .delayus n => Sys2Proof.Machine.execDelayus n s
  | .sleepms n => Sys2Proof.Machine.execSleepms n s
  | .rstpd => Sys2Proof.Machine.execRstpd s
  | .wbit v => Sys2Proof.Machine.execWbit v s
  | .rbit => Sys2Proof.Machine.execRbit s
  | .wbyte b => Sys2Proof.Machine.execWbyte b s
  | .rbyte => Sys2Proof.Machine.execRbyte s
  | .acq => Sys2Proof.Machine.execAcq s
  | .tryacq bound => Sys2Proof.Machine.execTryacq bound s
  | .rel => Sys2Proof.Machine.execRel s
  | .sample => Sys2Proof.Machine.execSample s
  | .decode r => Sys2Proof.Machine.execDecode r s
  | .cmdSkipRom => Sys2Proof.Machine.execCmdSkipRom s
  | .cmdConvertT => Sys2Proof.Machine.execCmdConvertT s
  | .cmdReadScratchpad => Sys2Proof.Machine.execCmdReadScratchpad s

end Sys2Proof.Machine
end

