-- ==== Sys2Proof/Machine/Turn.lean ====
section
/-! DEFINITION. A caller's turn: which instruction its next step belongs to, and the step (00_scope.md R5, R13;
10_state.md R36; 60_exceptions.md R233). And how an instruction is put where the next step takes it. -/

namespace Sys2Proof.Machine

/-- The instruction the stepping caller is running: the wire command its SAMPLE is sending, else the request in `REQ`. -/
def State.running (s : State) : Option Instr :=
  match commandAt s.cfg s.me.pos with
  | some c => some c.instr
  | none => (decodeRequest s.me.req).toOption

/-- The start step of a waiting word (10_state.md R36): the word leaves the port; check 1 of 60_exceptions.md R233 is
its decoding, and the instruction's meaning makes the check that follows. -/
def startWord (w : Word) (s : State) : Out :=
  match decodeRequest w with
  | .ok i => exec i s.fetched
  | .error _ => .next (s.fetched.start w (opProc w) (some .illegalRequest))

/-- Caller `c` is given the step. A caller with no enabled step lets its turn pass (log 4). -/
def runTurn (c : Nat) (s : State) : Out :=
  let s := s.as c
  if s.faulted then .fault .halted
  else if s.ctx.length ≤ c then .next s
  else match s.me.status with
    | .idle =>
      match s.me.port with
      | some w => startWord w s
      | none => .next s
    | .busy =>
      match s.running with
      | some i => exec i s
      | none => .fault .badPosition

/-- A move of the environment. -/
def runMove (m : Move) (s : State) : Out :=
  match m with
  | .turn c => runTurn c s
  | .place c w => s.hostPlace c w
  | .take c => s.hostTake c
  | .engineReset => s.hostReset

/-- The next move gives caller 0 a turn, in an engine that is not halted. -/
def State.turnOfZero (s : State) : State :=
  { s with fault := { s.fault with cause := .none }, env := { s.env with moves := .turn 0 :: s.env.moves } }

/-- Caller 0 is IDLE with a request word on its port. -/
def State.withWord (s : State) (w : Word) : State :=
  s.mapCtx 0 fun x => { x with status := .idle, pos := [], port := some w }

/-- Caller 0 holds the lock and its SAMPLE stands at the first call that sends a wire command. -/
def State.withCommand (s : State) (c : WireCmd) : State :=
  { s with lock := .held 0 }.mapCtx 0 fun x =>
    { x with
      status := .busy
      req := requestWord .sample
      pos := [⟨.sample, (samplePlan s.cfg.holdLock).findIdx fun i => decide (i = SampleItem.command c)⟩] }

/-- The wire command of a table row of 8 bits. -/
def rowCommand (k : Commands) (nbits w : Nat) : Option WireCmd :=
  if nbits = 8 then (decodeWire k (BitVec.ofNat 8 w)).toOption.bind Instr.wire else none

end Sys2Proof.Machine
end

