-- ==== Sys2Proof/Machine/Step.lean ====
section
/-! DEFINITION. One step of the machine: the environment's next move (00_scope.md R13, 20_memory.md R59). -/

namespace Sys2Proof.Machine

/-- One step. -/
def step (s : State) : Host.Outcome State Fault Refusal := runMove s.nextMove s.afterMove

/-- The state with an instruction placed where `step` takes its next one: a request word on the port of caller 0,
which is given the turn; a wire command at the call of SAMPLE that sends it (log 17). -/
def State.withFetchWord (s : State) (nbits w : Nat) : State :=
  match rowCommand s.cfg.commands nbits w with
  | some c => s.turnOfZero.withCommand c
  | none => s.turnOfZero.withWord (BitVec.ofNat 32 w)

end Sys2Proof.Machine
end

