-- ==== Sys2Proof/Machine/Assembler.lean ====
section
/-! DEFINITION. The assembler of 30_encoding.md R79 and R80, on tokens: a name, and an operand as its digits. The
notation is the spec's own and no part of the engine (log 20). -/

namespace Sys2Proof.Machine

/-- The names the assembler accepts: the mnemonics of R72 and the pseudo-instructions of R80. -/
inductive AsmName where
  | lsetout
  | lwrite
  | lsetin
  | lread
  | delayus
  | sleepms
  | rstpd
  | wbit
  | rbit
  | wbyte
  | rbyte
  | acq
  | tryacq
  | rel
  | sample
  | decode
  | llow
  | lhigh
  | lrelease
  | nop
  | skiprom
  | convert
  | rdscratch
  deriving DecidableEq, Repr

/-- How a name is spelled (R72, R80). -/
def asmSpelling : AsmName → String
  | .lsetout => "LSETOUT"
  | .lwrite => "LWRITE"
  | .lsetin => "LSETIN"
  | .lread => "LREAD"
  | .delayus => "DELAYUS"
  | .sleepms => "SLEEPMS"
  | .rstpd => "RSTPD"
  | .wbit => "WBIT"
  | .rbit => "RBIT"
  | .wbyte => "WBYTE"
  | .rbyte => "RBYTE"
  | .acq => "ACQ"
  | .tryacq => "TRYACQ"
  | .rel => "REL"
  | .sample => "SAMPLE"
  | .decode => "DECODE"
  | .llow => "LLOW"
  | .lhigh => "LHIGH"
  | .lrelease => "LRELEASE"
  | .nop => "NOP"
  | .skiprom => "SKIPROM"
  | .convert => "CONVERT"
  | .rdscratch => "RDSCRATCH"

/-- An operand as written: decimal digits, or `0x` and hexadecimal digits (R79). -/
inductive Numeral where
  | dec (digits : List (Fin 10))
  | hex (digits : List (Fin 16))
  deriving DecidableEq, Repr

/-- The number a numeral denotes. -/
def numeralValue : Numeral → Nat
  | .dec ds => ds.foldl (fun n d => 10 * n + d.val) 0
  | .hex ds => ds.foldl (fun n d => 16 * n + d.val) 0

/-- An operand that must fit `bits` bits (R79). -/
def fitting (bits : Nat) (operand : Option Numeral) (i : BitVec bits → Instr) : Option Instr :=
  match operand with
  | some v => if numeralValue v < 2 ^ bits then some (i (BitVec.ofNat bits (numeralValue v))) else none
  | none => none

/-- An operation that takes no operand (R79). -/
def bare (operand : Option Numeral) (i : Instr) : Option Instr :=
  match operand with
  | none => some i
  | some _ => none

/-- The request a line stands for, or none where the assembler refuses it (R79, R80). -/
def assembleInstr (k : Commands) (name : AsmName) (operand : Option Numeral) : Option Instr :=
  match name with
  | .lsetout => fitting 1 operand .lsetout
  | .lwrite => fitting 1 operand .lwrite
  | .lsetin => bare operand .lsetin
  | .lread => bare operand .lread
  | .delayus => fitting 16 operand .delayus
  | .sleepms => fitting 16 operand .sleepms
  | .rstpd => bare operand .rstpd
  | .wbit => fitting 16 operand .wbit
  | .rbit => bare operand .rbit
  | .wbyte => fitting 8 operand .wbyte
  | .rbyte => bare operand .rbyte
  | .acq => bare operand .acq
  | .tryacq => fitting 16 operand .tryacq
  | .rel => bare operand .rel
  | .sample => bare operand .sample
  | .decode => fitting 16 operand .decode
  | .llow => bare operand (.lsetout 0)
  | .lhigh => bare operand (.lsetout 1)
  | .lrelease => bare operand .lsetin
  | .nop => bare operand (.delayus 0)
  | .skiprom => bare operand (.wbyte k.skipRom)
  | .convert => bare operand (.wbyte k.convertT)
  | .rdscratch => bare operand (.wbyte k.readScratchpad)

/-- The word of a line (R79). -/
def assemble (k : Commands) (name : AsmName) (operand : Option Numeral) : Option Word :=
  (assembleInstr k name operand).map requestWord

end Sys2Proof.Machine
end

