-- ==== Sys2Proof/Safety.lean ====
section
/-! DEFINITION. The terms claims are stated in: runs of one request, lock intervals in `TRACE` (44_lock.md R197), the
invariant, the end of a run (60_exceptions.md R251), enabled callers and the premises on schedules (00_scope.md R13,
44_lock.md R199), and durations (40_line_driver.md R106). -/

namespace Sys2Proof.Machine

/-! ## Where a caller stands -/

/-- The engine runs and the stepping caller exists. -/
abbrev State.Live (s : State) : Prop := s.fault.cause = .none ∧ s.cur < s.ctx.length

/-- The stepping caller is IDLE. -/
abbrev State.AtRest (s : State) : Prop := s.Live ∧ s.me.status = .idle

/-- The stepping caller is running a request at a sequencer position. -/
abbrev State.At (s : State) (pos : List Frame) : Prop := s.Live ∧ s.me.status = .busy ∧ s.me.pos = pos

/-- `n` steps of an instruction by the stepping caller, with no other agent's step between. -/
def execTimes (i : Instr) : Nat → State → Out
  | 0, s => .next s
  | n + 1, s =>
    match exec i s with
    | .next t => execTimes i n t
    | .fault f => .fault f
    | .refused r => .refused r

/-- The state when a request has been answered: its events and the Respond event stand in `TRACE`; of the caller's
context, what the answer writes, and the registers `regs` changes; all else as before. -/
def State.completed (s : State) (w resp : Word) (events : List Event) (regs : Ctx → Ctx) : State :=
  { s with
    trace := s.trace ++ events ++ [.respond s.cur resp]
    ctx := s.ctx.modify s.cur fun x =>
      { regs x with status := .idle, req := w, pos := [], resp := some resp, ready := true } }

/-- The state when a request has started. -/
def State.begun (s : State) (w : Word) (p : Proc) : State :=
  { s with ctx := s.ctx.modify s.cur fun x => { x with status := .busy, req := w, pos := [⟨p, 0⟩] } }

/-- The state when a request has started and its check has failed. -/
def State.begunFault (s : State) (w : Word) (p : Proc) (cause : FaultCause) : State :=
  { s.begun w p with fault := ⟨cause, s.cur, w⟩ }

/-- The level the environment shows at the draw after `k` more draws. -/
def Env.level (e : Env) (k : Nat) : Level := (e.draws[k]?).getD (Config.freeLevel (e.drawn + k))

/-- The environment after `k` draws. -/
def Env.afterDraws (e : Env) (k : Nat) : Env := { e with draws := e.draws.drop k, drawn := e.drawn + k }

/-- The byte read LSB first from eight draws, the first of them after `k` draws (42_byte_codec.md R152). -/
def Env.byte (e : Env) (k : Nat) : Byte :=
  (List.range 8).foldl (fun b i => b ||| ((e.level (k + i)).setWidth 8 <<< i)) 0

/-! ## Events of the codec (41_bit_codec.md, 42_byte_codec.md) -/

/-- RSTPD with sample `v` (R120). -/
def rstpdEvents (t : Timing) (c : Nat) (v : Level) : List Event :=
  [.setOut c 0, .delayUs c t.rstlUs, .writeLvl c 1, .setIn c, .delayUs c t.pdsUs, .sample c v, .delayUs c t.pdrestUs,
    .setOut c 1]

/-- A write slot for bit `b` (R124). -/
def wbitEvents (t : Timing) (c : Nat) (b : Level) : List Event :=
  [.setOut c 1, .delayUs c t.wIdleUs, .writeLvl c 0, .delayUs c t.wLowUs, .writeLvl c b, .delayUs c t.wSlotUs,
    .writeLvl c 1, .delayUs c t.wRecUs]

/-- A read slot with sample `v` (R127). -/
def rbitEvents (t : Timing) (c : Nat) (v : Level) : List Event :=
  [.setOut c 0, .delayUs c t.rLowUs, .setIn c, .delayUs c t.rSettleUs, .sample c v, .delayUs c t.rRestUs]

/-- Eight write slots, LSB first (R150, R151). -/
def wbyteEvents (t : Timing) (c : Nat) (b : Byte) : List Event :=
  (List.range 8).flatMap fun i => wbitEvents t c (b.extractLsb' i 1)

/-- Eight read slots with the draws after `k` (R152). -/
def rbyteEvents (t : Timing) (c : Nat) (e : Env) (k : Nat) : List Event :=
  (List.range 8).flatMap fun i => rbitEvents t c (e.level (k + i))

/-- Phases 1 to 3 of SAMPLE with presence sample `v` (43_transaction.md R173). -/
def sampleFirstEvents (g : Config) (c : Nat) : List Event :=
  [.acquire c] ++ rstpdEvents g.timing c 0 ++ wbyteEvents g.timing c g.commands.skipRom
    ++ wbyteEvents g.timing c g.commands.convertT

/-- Phases 4 and 5: the conversion wait, outside the lock unless it is held (R164, R165). -/
def sampleWaitEvents (g : Config) (c : Nat) : List Event :=
  (if g.holdLock then [] else [.release c]) ++ [.sleepMs c g.timing.convMs]
    ++ (if g.holdLock then [] else [.acquire c])

/-- Phases 6 to 9 with presence, the scratchpad bits drawn after the two presence samples. -/
def sampleSecondEvents (g : Config) (c : Nat) (e : Env) : List Event :=
  rstpdEvents g.timing c 0 ++ wbyteEvents g.timing c g.commands.skipRom
    ++ wbyteEvents g.timing c g.commands.readScratchpad ++ rbyteEvents g.timing c e 2 ++ rbyteEvents g.timing c e 10
    ++ [.release c]

/-- The wire command an item of SAMPLE sends. -/
def SampleItem.wire : SampleItem → Option WireCmd
  | .command k => some k
  | .acquire | .presence | .release | .sleep | .readLow | .readHigh | .respondRaw | .respondNoResponse
  | .respondBusBusy => none

/-- The frames inside SAMPLE's when `m` micro-steps of bit `b` of a WBYTE it calls are done. -/
def wbyteFrames (b m : Nat) : List Frame :=
  if b = 0 ∧ m = 0 then [] else ⟨.wbyte, b⟩ :: if m = 0 then [] else [⟨.wbit, m⟩]

/-! ## The lock in TRACE -/

/-- The lock after an event, given the lock before it; none where the event has no place there (44_lock.md R190 to R194,
R197: a line event of a caller that does not hold the lock, an Acquire of a lock that is taken, a Release by another
than the holder, a Busy while no other holds it). -/
def lockStep : Option Lock → Event → Option Lock
  | none, _ => none
  | some l, .acquire c => if l = .free then some (.held c) else none
  | some l, .release c => if l = .held c then some .free else none
  | some l, .setOut c _ | some l, .writeLvl c _ | some l, .setIn c | some l, .sample c _ =>
    if l = .held c then some l else none
  | some l, .busy c => if l = .free ∨ l = .held c then none else some l
  | some l, .delayUs _ _ | some l, .sleepMs _ _ | some l, .respond _ _ => some l

/-- The lock a trace from reset leaves, or none if it breaks the lock's discipline. -/
def lockAfter (es : List Event) : Option Lock := es.foldl lockStep (some .free)

/-- A line event (10_state.md R27). -/
def Event.isLine : Event → Bool
  | .setOut _ _ | .writeLvl _ _ | .setIn _ | .sample _ _ => true
  | .delayUs _ _ | .sleepMs _ _ | .acquire _ | .release _ | .busy _ | .respond _ _ => false

/-- The caller that performed an event. -/
def Event.caller : Event → Nat
  | .setOut c _ | .writeLvl c _ | .setIn c | .sample c _ | .delayUs c _ | .sleepMs c _ | .acquire c | .release c
  | .busy c | .respond c _ => c

/-- The word of the last Respond event of a caller. -/
def lastResponse (c : Nat) : List Event → Option Word
  | [] => none
  | e :: es =>
    match lastResponse c es, e with
    | some w, _ => some w
    | none, .respond d w => if d = c then some w else none
    | none, .setOut _ _ | none, .writeLvl _ _ | none, .setIn _ | none, .sample _ _ | none, .delayUs _ _
    | none, .sleepMs _ _ | none, .acquire _ | none, .release _ | none, .busy _ => none

/-! ## Positions -/

/-- What a position asks of the lock. -/
inductive LockNeed where
  | hold
  | notHold
  | any
  deriving DecidableEq, Repr

/-- The lock is as a position of caller `c` asks. -/
def needMet (n : LockNeed) (l : Lock) (c : Nat) : Bool :=
  match n with
  | .hold => decide (l = .held c)
  | .notHold => decide (l ≠ .held c)
  | .any => true

/-- The frames of a running call of `n` micro-steps: none before it, or its frame within it. -/
def insideSeq (p : Proc) (n : Nat) : List Frame → Bool
  | [] => true
  | [f] => decide (f.proc = p ∧ 0 < f.index ∧ f.index < n)
  | _ :: _ :: _ => false

/-- The frames of a running call of a byte procedure. -/
def insideByte (p q : Proc) (n : Nat) : List Frame → Bool
  | [] => true
  | [f] => decide (f.proc = p ∧ 0 < f.index ∧ f.index < 8)
  | f :: inner => decide (f.proc = p ∧ f.index < 8) && insideSeq q n inner

/-- The position of a request of `n` micro-steps whose lock need is `before` them and `after` the last. -/
def seqNeed (p : Proc) (n : Nat) (before after : LockNeed) : List Frame → Option LockNeed
  | [f] => if f.proc = p ∧ f.index ≤ n then some (if f.index < n then before else after) else none
  | _ => none

/-- The position of a byte request. -/
def byteNeed (p q : Proc) (n : Nat) : List Frame → Option LockNeed
  | [f] => if f.proc = p ∧ f.index ≤ 8 then some .hold else none
  | f :: inner => if f.proc = p ∧ f.index < 8 ∧ insideSeq q n inner = true then some .hold else none
  | [] => none

/-- The position of an acquisition request. -/
def acquireNeed (p : Proc) (bounded : Bool) : List Frame → Option LockNeed
  | [f] =>
    if f.proc = p then
      match f.index with
      | 0 => some .notHold
      | 1 => some .hold
      | 2 => if bounded then some .notHold else none
      | _ => none
    else none
  | _ => none

/-- What an item of SAMPLE asks of the frames inside and of the lock. -/
def itemNeed (hold : Bool) (item : SampleItem) (inner : List Frame) : Option LockNeed :=
  match item with
  | .acquire => if inner = [] then some .notHold else none
  | .presence => if insideSeq .rstpd 8 inner = true then some .hold else none
  | .command _ => if insideByte .wbyte .wbit 8 inner = true then some .hold else none
  | .release => if inner = [] then some .hold else none
  | .sleep => if inner = [] then some (if hold then .hold else .notHold) else none
  | .readLow | .readHigh => if insideByte .rbyte .rbit 6 inner = true then some .hold else none
  | .respondRaw | .respondNoResponse | .respondBusBusy => if inner = [] then some .notHold else none

/-- The position of SAMPLE. -/
def sampleNeed (hold : Bool) : List Frame → Option LockNeed
  | f :: inner =>
    if f.proc = .sample then
      match (samplePlan hold)[f.index]? with
      | some item => itemNeed hold item inner
      | none => none
    else none
  | [] => none

/-- What the position of a running request asks of the lock; none where the request has no such position. -/
def positionNeed (cfg : Config) (i : Instr) (pos : List Frame) : Option LockNeed :=
  match i with
  | .lsetout _ => seqNeed .lsetout 1 .hold .hold pos
  | .lwrite _ => seqNeed .lwrite 1 .hold .hold pos
  | .lsetin => seqNeed .lsetin 1 .hold .hold pos
  | .lread => seqNeed .lread 1 .hold .hold pos
  | .delayus _ => seqNeed .delayus 1 .any .any pos
  | .sleepms _ => seqNeed .sleepms 1 .any .any pos
  | .rstpd => seqNeed .rstpd 8 .hold .hold pos
  | .wbit _ => seqNeed .wbit 8 .hold .hold pos
  | .rbit => seqNeed .rbit 6 .hold .hold pos
  | .wbyte _ => byteNeed .wbyte .wbit 8 pos
  | .rbyte => byteNeed .rbyte .rbit 6 pos
  | .acq => acquireNeed .acq false pos
  | .tryacq _ => acquireNeed .tryacq true pos
  | .rel => seqNeed .rel 1 .hold .notHold pos
  | .sample => sampleNeed cfg.holdLock pos
  | .decode _ => seqNeed .decode 0 .any .any pos
  | .cmdSkipRom | .cmdConvertT | .cmdReadScratchpad => none

/-- A running caller stands at a position of the request in `REQ`, and the lock is as that position asks. -/
def standsWell (cfg : Config) (l : Lock) (c : Nat) (x : Ctx) : Bool :=
  match decodeRequest x.req with
  | .ok i =>
    match positionNeed cfg i x.pos with
    | some n => needMet n l c
    | none => false
  | .error _ => false

/-- A caller's context is consistent: `POS` is empty exactly when `STATE` is IDLE (10_state.md R31), `IDX` is 0 to 8
(R30), a BUSY caller has no second word on its port (92 D25), and unless the engine has halted a BUSY caller stands well. -/
def ctxWell (s : State) (c : Nat) (x : Ctx) : Bool :=
  decide (x.idx ≤ 8) &&
  match x.status with
  | .idle => decide (x.pos = [])
  | .busy => decide (x.pos ≠ []) && decide (x.port = none) && (s.faulted || standsWell s.cfg s.lock c x)

/-- THE INVARIANT: one context per caller; a held lock is held by a caller; `TRACE` keeps the lock's discipline and
leaves the lock as `LOCK` has it (44_lock.md R197); every context is consistent. -/
def State.Inv (s : State) : Prop :=
  s.ctx.length = s.cfg.nCallers
    ∧ (∀ c, s.lock = .held c → c < s.ctx.length)
    ∧ lockAfter s.trace = some s.lock
    ∧ ∀ (c : Nat) (x : Ctx), s.ctx[c]? = some x → ctxWell s c x = true

/-- The engine is in a state reset may leave it in: every register R260 gives a value has it, the others any value of
their range. -/
def State.IsReset (s : State) : Prop :=
  s.lock = .free ∧ s.fault.cause = .none ∧ s.trace = [] ∧ s.ctx.length = s.cfg.nCallers
    ∧ ∀ (c : Nat) (x : Ctx), s.ctx[c]? = some x → x.status = .idle ∧ x.pos = [] ∧ x.resp = none ∧ x.idx ≤ 8

/-- A word raises `ILLEGAL_REQUEST` (60_exceptions.md R233, R236): whichever IDLE caller of a running engine it waits for,
that caller's turn takes the fault and has no other effect. -/
def IsIllegal (w : Word) : Prop :=
  ∀ (s : State) (c : Nat) (x : Ctx), s.nextMove = .turn c → s.fault.cause = .none → s.ctx[c]? = some x →
    x.status = .idle → x.port = some w →
    step s = .next ((s.afterMove.as c).fetched.begunFault w (opProc w) .illegalRequest)

/-- A final state (60_exceptions.md R251). -/
def State.final (s : State) : Bool :=
  decide (s.fault.cause = .none) && s.ctx.all fun x => decide (x.status = .idle) && decide (x.port = none)

/-! ## Access (10_state.md R39) -/

/-- The state an operation may write, besides `TRACE` and its own `STATE`, `REQ`, `POS`, `RESP`. -/
structure Access where
  lineDir : Bool := false
  lineOut : Bool := false
  lock : Bool := false
  bitv : Bool := false
  smp : Bool := false
  present : Bool := false
  byteRegs : Bool := false
  result : Bool := false
  deriving DecidableEq, Repr

/-- The "writes" column of 10_state.md R39; `byteRegs` is `ACC` and `IDX`, `result` is `LO`, `HI` and `RAW`. A wire
command is sent by SAMPLE or WBYTE, and writes what the write of a byte writes. -/
def accessOf : Instr → Access
  | .lsetout _ => { lineDir := true, lineOut := true }
  | .lwrite _ => { lineOut := true }
  | .lsetin => { lineDir := true }
  | .lread => { smp := true }
  | .delayus _ | .sleepms _ | .decode _ => {}
  | .rstpd => { lineDir := true, lineOut := true, smp := true, present := true }
  | .wbit _ => { lineDir := true, lineOut := true, bitv := true }
  | .rbit => { lineDir := true, lineOut := true, smp := true }
  | .wbyte _ | .cmdSkipRom | .cmdConvertT | .cmdReadScratchpad =>
    { lineDir := true, lineOut := true, bitv := true, byteRegs := true }
  | .rbyte => { lineDir := true, lineOut := true, smp := true, byteRegs := true }
  | .acq | .tryacq _ | .rel => { lock := true }
  | .sample =>
    { lineDir := true, lineOut := true, lock := true, bitv := true, smp := true, present := true, byteRegs := true,
      result := true }

/-- From `s` to `t` nothing changed that the access does not allow. -/
def WritesOnly (a : Access) (s t : State) : Prop :=
  t.cfg = s.cfg ∧ t.cur = s.cur ∧ t.ctx.length = s.ctx.length
    ∧ (∀ d, d ≠ s.cur → t.ctx[d]? = s.ctx[d]?)
    ∧ (a.lineDir = false → t.lineDir = s.lineDir) ∧ (a.lineOut = false → t.lineOut = s.lineOut)
    ∧ (a.lock = false → t.lock = s.lock) ∧ (a.bitv = false → t.me.bitv = s.me.bitv)
    ∧ (a.smp = false → t.me.smp = s.me.smp ∧ t.env = s.env) ∧ (a.present = false → t.me.present = s.me.present)
    ∧ (a.byteRegs = false → t.me.acc = s.me.acc ∧ t.me.idx = s.me.idx)
    ∧ (a.result = false → t.me.lo = s.me.lo ∧ t.me.hi = s.me.hi ∧ t.me.raw = s.me.raw)
    ∧ t.me.port = s.me.port ∧ t.env.moves = s.env.moves ∧ t.env.moved = s.env.moved

/-! ## The lock check of a request (60_exceptions.md R233) -/

/-- The checks 2a, 2b and 2c. -/
inductive LockCheck where
  | held
  | owner
  | notHeld
  | none
  deriving DecidableEq, Repr

/-- The lock check of each request; a wire command is checked as the WBYTE that sends it. -/
def lockCheckOf : Instr → LockCheck
  | .lsetout _ | .lwrite _ | .lsetin | .lread | .rstpd | .wbit _ | .rbit | .wbyte _ | .rbyte
  | .cmdSkipRom | .cmdConvertT | .cmdReadScratchpad => .held
  | .rel => .owner
  | .acq | .tryacq _ | .sample => .notHeld
  | .delayus _ | .sleepms _ | .decode _ => .none

/-- The fault a request of caller `c` takes at its start under lock `l`, if any. -/
def startCause (k : LockCheck) (l : Lock) (c : Nat) : Option FaultCause :=
  match k with
  | .held => if l = .held c then Option.none else some .lockNotHeld
  | .owner => if l = .held c then Option.none else some .releaseNotOwner
  | .notHeld => if l = .held c then some .recursiveAcquire else Option.none
  | .none => Option.none

/-! ## Schedules (premises of claims about progress) -/

/-- Caller `c` has an enabled step (10_state.md R36, R37; 44_lock.md R190, R192): a word waits on its port, or it runs a
request and is not blocked in an acquisition. -/
def State.enabled (s : State) (c : Nat) : Bool :=
  if s.faulted then false
  else match s.ctx[c]? with
    | none => false
    | some x =>
      match x.status with
      | .idle => x.port.isSome
      | .busy =>
        match x.pos with
        | [⟨.acq, 0⟩] => decide (s.lock = .free)
        | [⟨.tryacq, 0⟩] => decide (s.lock ≠ .held c)
        | [⟨.sample, j⟩] =>
          if (samplePlan s.cfg.holdLock)[j]? = some .acquire then
            decide (s.lock = .free) || (s.cfg.acquireBound.isSome && decide (s.lock ≠ .held c))
          else true
        | _ => true

/-- A run: each state is the step of the one before. -/
def IsRun (r : Nat → State) : Prop := ∀ n, step (r n) = .next (r (n + 1))

/-- Weak fairness of a run's schedule (00_scope.md R13): a caller enabled from some point on is eventually given a turn. -/
def WeakFairness (r : Nat → State) : Prop :=
  ∀ c n, (∀ m, n ≤ m → (r m).enabled c = true) → ∃ m, n ≤ m ∧ (r m).nextMove = .turn c

/-- Caller `c` stands at an Acquire it can only wait for: ACQ's, or one of SAMPLE's where no bound is configured. -/
def State.inAcquire (s : State) (c : Nat) : Bool :=
  match s.ctx[c]? with
  | none => false
  | some x =>
    match x.status with
    | .idle => false
    | .busy =>
      match x.pos with
      | [⟨.acq, 0⟩] => true
      | [⟨.sample, j⟩] => s.cfg.acquireBound.isNone && decide ((samplePlan s.cfg.holdLock)[j]? = some .acquire)
      | _ => false

/-- `LOCK_FAIRNESS` (00_scope.md R9), in the form of the example 44_lock.md R199 gives: a caller that from some point on
stands at its Acquire, while the lock is free infinitely often, is given a turn at which the lock is free, so that it takes its
Acquire. R199 leaves the exact form open: DESIGN CHOICE (log 24). -/
def LockFairness (r : Nat → State) : Prop :=
  ∀ c n, (∀ m, n ≤ m → (r m).inAcquire c = true) → (∀ m, n ≤ m → ∃ k, m ≤ k ∧ (r k).lock = .free) →
    ∃ m, n ≤ m ∧ (r m).nextMove = .turn c ∧ (r m).lock = .free

/-! ## Durations (40_line_driver.md R106) -/

/-- The least time an event stands for, in microseconds. -/
def Event.minUs : Event → Nat
  | .delayUs _ n => n.toNat
  | .sleepMs _ n => 1000 * n.toNat
  | .setOut _ _ | .writeLvl _ _ | .setIn _ | .sample _ _ | .acquire _ | .release _ | .busy _ | .respond _ _ => 0

/-- The least time a trace took, in microseconds: the sum of its delay arguments. -/
def minDurationUs (es : List Event) : Nat := (es.map Event.minUs).sum

end Sys2Proof.Machine
end

