-- ==== Sys2Proof/Certificates/Slice0/Obligations.lean ====
section
/-! DEFINITION. The statements for the provers. -/

open Sys2Proof Sys2Proof.Machine

/-! ## Encoding -/

/-- 30_encoding.md sections 1 and 5: decoding an encoded instruction gives it back, whatever its operand, for every choice
of three distinct command bytes. -/
def Obligations.DecodeInvertsEncode : Prop :=
  ∀ (k : Commands) (i : Instr), k.wellFormed = true → decodeCode k (encode k i) = .ok i

/-- 30_encoding.md R70 to R73: a request word has one meaning, and that request's word is it. -/
def Obligations.EncodeInvertsDecode : Prop :=
  ∀ (w : Word) (i : Instr), decodeRequest w = .ok i → requestWord i = w ∧ i.isRequest = true

/-- 30_encoding.md R71 and R74: the legality test, clause by clause; a legal word is a request, and an illegal one
that starts raises `ILLEGAL_REQUEST` with `FAULT.REQ = w`, before any effect. -/
def Obligations.IllegalWordsFault : Prop :=
  ∀ w : Word,
    let op := (w.extractLsb' 24 8).toNat
    let ok := w.extractLsb' 16 8 = 0 ∧ (0x01 ≤ op ∧ op ≤ 0x10)
      ∧ (op = 0x01 ∨ op = 0x02 → w.extractLsb' 1 15 = 0)
      ∧ (op = 0x03 ∨ op = 0x04 ∨ op = 0x07 ∨ op = 0x09 ∨ op = 0x0B ∨ op = 0x0C ∨ op = 0x0E ∨ op = 0x0F →
          w.extractLsb' 0 16 = 0)
      ∧ (op = 0x0A → w.extractLsb' 8 8 = 0)
    (ok → ∃ i, decodeRequest w = .ok i) ∧ (¬ ok → IsIllegal w)

/-- 30_encoding.md R81 and 95_test_vectors.md L2.1: words worked out in the spec, one or more for every request, and
the three command bytes of R83. -/
def Obligations.DecodesTheWorkedWords : Prop :=
  decodeRequest 0x01000000 = .ok (.lsetout 0) ∧ decodeRequest 0x02000001 = .ok (.lwrite 1)
    ∧ decodeRequest 0x03000000 = .ok .lsetin ∧ decodeRequest 0x04000000 = .ok .lread
    ∧ decodeRequest 0x050001E0 = .ok (.delayus 480) ∧ decodeRequest 0x060002EE = .ok (.sleepms 750)
    ∧ decodeRequest 0x07000000 = .ok .rstpd ∧ decodeRequest 0x08000080 = .ok (.wbit 0x80)
    ∧ decodeRequest 0x09000000 = .ok .rbit ∧ decodeRequest 0x0A0000B0 = .ok (.wbyte 0xB0)
    ∧ decodeRequest 0x0B000000 = .ok .rbyte ∧ decodeRequest 0x0C000000 = .ok .acq
    ∧ decodeRequest 0x0D000064 = .ok (.tryacq 100) ∧ decodeRequest 0x0E000000 = .ok .rel
    ∧ decodeRequest 0x0F000000 = .ok .sample ∧ decodeRequest 0x1000FE6F = .ok (.decode 0xFE6F)
    ∧ decodeTableWord 8 0xCC = some .cmdSkipRom ∧ decodeTableWord 8 0x44 = some .cmdConvertT
    ∧ decodeTableWord 8 0xBE = some .cmdReadScratchpad
    ∧ decodeRequest 0x01000002 = .error .mustBeZero ∧ decodeRequest 0x0A000100 = .error .mustBeZero
    ∧ decodeRequest 0x00000000 = .error .reservedOp ∧ decodeRequest 0x0F010000 = .error .reservedField
    ∧ decodeRequest 0x11000000 = .error .reservedOp ∧ decodeRequest 0xFF000000 = .error .reservedOp

/-- 30_encoding.md R80: the pseudo-instructions and their words under the default configuration. -/
def Obligations.PseudoInstructionsExpand : Prop :=
  (∀ k : Commands,
    assembleInstr k .llow none = some (.lsetout 0) ∧ assembleInstr k .lhigh none = some (.lsetout 1)
      ∧ assembleInstr k .lrelease none = some .lsetin ∧ assembleInstr k .nop none = some (.delayus 0)
      ∧ assembleInstr k .skiprom none = some (.wbyte k.skipRom)
      ∧ assembleInstr k .convert none = some (.wbyte k.convertT)
      ∧ assembleInstr k .rdscratch none = some (.wbyte k.readScratchpad))
    ∧ assemble Commands.default .llow none = some 0x01000000 ∧ assemble Commands.default .lhigh none = some 0x01000001
    ∧ assemble Commands.default .lrelease none = some 0x03000000 ∧ assemble Commands.default .nop none = some 0x05000000
    ∧ assemble Commands.default .skiprom none = some 0x0A0000CC
    ∧ assemble Commands.default .convert none = some 0x0A000044
    ∧ assemble Commands.default .rdscratch none = some 0x0A0000BE

/-- 30_encoding.md R79: the assembler never emits an illegal word, and every request can be written. -/
def Obligations.AssemblerEmitsExactlyTheLegalWords : Prop :=
  ∀ (k : Commands) (w : Word), (∃ name operand, assemble k name operand = some w) ↔ legal w = true

/-! ## The step -/

/-- 10_state.md R36: when the word waiting on an IDLE caller's port decodes to an instruction, that caller's turn is a step of
it, the word having left the port. -/
def Obligations.StepRunsTheWaitingRequest : Prop :=
  ∀ (s : State) (c : Nat) (x : Ctx) (w : Word) (i : Instr), s.nextMove = .turn c → s.fault.cause = .none →
    s.ctx[c]? = some x → x.status = .idle → x.port = some w → decodeRequest w = .ok i →
    step s = exec i (s.afterMove.as c).fetched

/-- 10_state.md R31: a BUSY caller's turn is a step of the request in `REQ`. Where its SAMPLE stands at the call that sends a
wire command, the step is exec of that command and equally exec of SAMPLE: that a step of SAMPLE also runs under the
command's name is the model's DESIGN CHOICE (log 15). -/
def Obligations.StepRunsTheRunningInstruction : Prop :=
  ∀ (s : State) (c : Nat) (x : Ctx), s.nextMove = .turn c → s.fault.cause = .none → s.ctx[c]? = some x →
    x.status = .busy →
    (∀ i, commandAt s.cfg x.pos = none → decodeRequest x.req = .ok i → step s = exec i (s.afterMove.as c))
      ∧ (∀ k, commandAt s.cfg x.pos = some k →
          step s = exec k.instr (s.afterMove.as c) ∧ step s = exec .sample (s.afterMove.as c))

/-- 60_exceptions.md R252: what the host's moves do to a running engine, and the moves it must not make (logs 10, 11). -/
def Obligations.StepTakesTheHostsMoves : Prop :=
  ∀ s : State, s.fault.cause = .none →
    (∀ c w x, s.nextMove = .place c w → s.ctx[c]? = some x →
      step s = if x.status = .idle ∧ x.port = none
        then .next { s.afterMove with ctx := s.ctx.modify c fun x => { x with port := some w } }
        else .refused .portOccupied)
      ∧ (∀ c x, s.nextMove = .take c → s.ctx[c]? = some x →
        step s = if x.ready = true
          then .next { s.afterMove with ctx := s.ctx.modify c fun x => { x with ready := false } }
          else .refused .nothingToTake)
      ∧ (∀ c w, s.nextMove = .place c w ∨ s.nextMove = .take c → s.ctx.length ≤ c → step s = .refused .noSuchCaller)

/-- 44_lock.md R196 and 10_state.md R36: a caller with no enabled step takes none. That its turn then passes, with
nothing but the environment's move gone, is the model's choice (log 4). -/
def Obligations.TurnOfADisabledCallerPasses : Prop :=
  ∀ (s : State) (c : Nat), s.Inv → s.fault.cause = .none → s.nextMove = .turn c → s.enabled c = false →
    step s = .next (s.afterMove.as c)

/-! ## Starting a request, and faults -/

/-- 10_state.md R36 and 60_exceptions.md R233: the start step of a waiting word: it makes the caller BUSY at the
operation's beginning, and the checks run in order, legality first; it appends no event. -/
def Obligations.StartStepChecks : Prop :=
  ∀ (s : State) (c : Nat) (x : Ctx) (w : Word), s.nextMove = .turn c → s.fault.cause = .none →
    s.ctx[c]? = some x → x.status = .idle → x.port = some w →
    let u := (s.afterMove.as c).fetched
    step s = .next (match decodeRequest w with
      | .error _ => u.begunFault w (opProc w) .illegalRequest
      | .ok i =>
        match startCause (lockCheckOf i) s.lock c with
        | some f => u.begunFault w (opProc w) f
        | none => u.begun w (opProc w))

/-- 60_exceptions.md R233: the start of every instruction: with its lock check met it begins, else it takes the check's fault,
a next state. A wire command of an IDLE caller is the WBYTE of its byte (log 15). -/
def Obligations.EveryRequestStarts : Prop :=
  ∀ (s : State) (i : Instr), s.AtRest →
    let w := match i.wire with
      | some k => requestWord (.wbyte (k.byte s.cfg.commands))
      | none => requestWord i
    exec i s = .next (match startCause (lockCheckOf i) s.lock s.cur with
      | some f => s.begunFault w (opProc w) f
      | none => s.begun w (opProc w))

/-- 60_exceptions.md R236: fault entry: a step that records a fault is the start step of a waiting word; it writes `CAUSE`,
`CALLER` and `REQ`, appends no event and delivers no response, and from then on no caller has an enabled step and no port
accepts a request; the form that stop takes here is log 9. R237, which the spec marks derived: it is precise: the line, the
lock, `TRACE`, the draws and every other caller are as before. Which cause is recorded is left to `StartStepChecks`. -/
def Obligations.FaultEntry : Prop :=
  ∀ s t : State, step s = .next t → s.fault.cause = .none → t.fault.cause ≠ .none →
    (∃ x w, s.ctx[t.cur]? = some x ∧ x.status = .idle ∧ x.port = some w ∧ t.fault.caller = t.cur ∧ t.fault.req = w
        ∧ t.me.resp = x.resp ∧ t.me.ready = x.ready)
      ∧ t.trace = s.trace ∧ t.lineDir = s.lineDir ∧ t.lineOut = s.lineOut ∧ t.lock = s.lock ∧ t.env.draws = s.env.draws
      ∧ t.env.drawn = s.env.drawn ∧ (∀ d, d ≠ t.cur → t.ctx[d]? = s.ctx[d]?)
      ∧ (∀ c, t.enabled c = false) ∧ (∀ c w, runMove (.place c w) t = .fault .halted) ∧ t.final = false

/-- 60_exceptions.md R236 and R238: once a fault is recorded no instruction runs and no move is taken but the host's engine reset,
which clears it. Model's choices in it: the halted engine may be reset whatever its callers do (log 9); the reset state has the
values log 7 names where 70_reset_and_hazards.md R260 leaves a register unspecified; reset empties the ports and keeps the
configuration and the environment (log 10). -/
def Obligations.HaltedEngineOnlyResets : Prop :=
  ∀ s : State, s.fault.cause ≠ .none →
    (∀ i, exec i s = .fault .halted)
      ∧ (s.nextMove ≠ .engineReset → step s = .fault .halted)
      ∧ (s.nextMove = .engineReset → step s = .next (State.resetWith s.cfg s.afterMove.env))

/-! ## Line driver -/

/-- 40_line_driver.md R100: LSETOUT. -/
def Obligations.LsetoutRule : Prop :=
  (∀ w : Word, w.extractLsb' 1 31 = 8388608#31 → decodeRequest w = .ok (.lsetout (w.extractLsb' 0 1)))
    ∧ (∀ w : Word, w.extractLsb' 24 8 = 0x01#8 → w.extractLsb' 1 15 ≠ 0 → IsIllegal w)
    ∧ ∀ (l : Level) (s : State), s.AtRest →
      (s.lock ≠ .held s.cur →
        exec (.lsetout l) s = .next (s.begunFault (requestWord (.lsetout l)) .lsetout .lockNotHeld))
      ∧ (s.lock = .held s.cur →
        execTimes (.lsetout l) 3 s = .next
          { s.completed (requestWord (.lsetout l)) 0 [.setOut s.cur l] id with lineDir := .output, lineOut := l })

/-- 40_line_driver.md R101: LWRITE. -/
def Obligations.LwriteRule : Prop :=
  (∀ w : Word, w.extractLsb' 1 31 = 16777216#31 → decodeRequest w = .ok (.lwrite (w.extractLsb' 0 1)))
    ∧ (∀ w : Word, w.extractLsb' 24 8 = 0x02#8 → w.extractLsb' 1 15 ≠ 0 → IsIllegal w)
    ∧ ∀ (l : Level) (s : State), s.AtRest →
      (s.lock ≠ .held s.cur →
        exec (.lwrite l) s = .next (s.begunFault (requestWord (.lwrite l)) .lwrite .lockNotHeld))
      ∧ (s.lock = .held s.cur →
        execTimes (.lwrite l) 3 s = .next
          { s.completed (requestWord (.lwrite l)) 0 [.writeLvl s.cur l] id with lineOut := l })

/-- 40_line_driver.md R102: LSETIN. -/
def Obligations.LsetinRule : Prop :=
  decodeRequest 0x03000000 = .ok .lsetin
    ∧ (∀ w : Word, w.extractLsb' 24 8 = 0x03#8 → w.extractLsb' 0 16 ≠ 0 → IsIllegal w)
    ∧ ∀ s : State, s.AtRest →
      (s.lock ≠ .held s.cur → exec .lsetin s = .next (s.begunFault 0x03000000 .lsetin .lockNotHeld))
      ∧ (s.lock = .held s.cur →
        let t := { s.completed 0x03000000 0 [.setIn s.cur] id with lineDir := .input }
        execTimes .lsetin 3 s = .next t ∧ t.drive = .z)

/-- 40_line_driver.md R103: LREAD. The sample is the draw, whatever it is. -/
def Obligations.LreadRule : Prop :=
  decodeRequest 0x04000000 = .ok .lread
    ∧ (∀ w : Word, w.extractLsb' 24 8 = 0x04#8 → w.extractLsb' 0 16 ≠ 0 → IsIllegal w)
    ∧ ∀ s : State, s.AtRest →
      (s.lock ≠ .held s.cur → exec .lread s = .next (s.begunFault 0x04000000 .lread .lockNotHeld))
      ∧ (s.lock = .held s.cur →
        execTimes .lread 3 s = .next
          { s.completed 0x04000000 ((s.env.level 0).setWidth 32) [.sample s.cur (s.env.level 0)]
              (fun x => { x with smp := s.env.level 0 }) with env := s.env.afterDraws 1 })

/-- 40_line_driver.md R105: DELAYUS, with the lock or without. -/
def Obligations.DelayusRule : Prop :=
  (∀ w : Word, w.extractLsb' 16 16 = 1280#16 → decodeRequest w = .ok (.delayus (w.extractLsb' 0 16)))
    ∧ ∀ (n : Half) (s : State), s.AtRest →
      execTimes (.delayus n) 3 s = .next (s.completed (requestWord (.delayus n)) 0 [.delayUs s.cur n] id)

/-- 40_line_driver.md R107: SLEEPMS, with the lock or without. -/
def Obligations.SleepmsRule : Prop :=
  (∀ w : Word, w.extractLsb' 16 16 = 1536#16 → decodeRequest w = .ok (.sleepms (w.extractLsb' 0 16)))
    ∧ ∀ (n : Half) (s : State), s.AtRest →
      execTimes (.sleepms n) 3 s = .next (s.completed (requestWord (.sleepms n)) 0 [.sleepMs s.cur n] id)

/-- 00_scope.md R12 and 40_line_driver.md: the micro-step of each one-step request, and its place in the sequence. -/
def Obligations.LineMicroStepsComplete : Prop :=
  ∀ s : State,
    (∀ l, s.At [⟨.lsetout, 0⟩] → exec (.lsetout l) s = .next
      ({ s with lineDir := .output, lineOut := l, trace := s.trace ++ [Event.setOut s.cur l] }.setPos [⟨.lsetout, 1⟩]))
    ∧ (∀ l, s.At [⟨.lwrite, 0⟩] → exec (.lwrite l) s = .next
      ({ s with lineOut := l, trace := s.trace ++ [Event.writeLvl s.cur l] }.setPos [⟨.lwrite, 1⟩]))
    ∧ (s.At [⟨.lsetin, 0⟩] → exec .lsetin s = .next
      ({ s with lineDir := .input, trace := s.trace ++ [Event.setIn s.cur] }.setPos [⟨.lsetin, 1⟩]))
    ∧ (s.At [⟨.lread, 0⟩] → exec .lread s = .next
      { s with
        env := s.env.afterDraws 1
        trace := s.trace ++ [.sample s.cur (s.env.level 0)]
        ctx := s.ctx.modify s.cur fun x => { x with smp := s.env.level 0, pos := [⟨.lread, 1⟩] } })
    ∧ (∀ n, s.At [⟨.delayus, 0⟩] → exec (.delayus n) s = .next
      ({ s with trace := s.trace ++ [Event.delayUs s.cur n] }.setPos [⟨.delayus, 1⟩]))
    ∧ (∀ n, s.At [⟨.sleepms, 0⟩] → exec (.sleepms n) s = .next
      ({ s with trace := s.trace ++ [Event.sleepMs s.cur n] }.setPos [⟨.sleepms, 1⟩]))

/-! ## Bit codec -/

/-- 41_bit_codec.md R120: RSTPD, in both outcomes, as a request, micro-step by micro-step (`PRESENT` is written at S6), and
as a procedure of SAMPLE, which then stands at the next item if there was presence and at its failure exit if not. Where
`POS` stands around the call and at the exit, and that S8's step takes the branch, is DEDUCED (logs 12, 13, 14). -/
def Obligations.RstpdRule : Prop :=
  decodeRequest 0x07000000 = .ok .rstpd
    ∧ (∀ w : Word, w.extractLsb' 24 8 = 0x07#8 → w.extractLsb' 0 16 ≠ 0 → IsIllegal w)
    ∧ (∀ s : State, s.AtRest →
      (s.lock ≠ .held s.cur → exec .rstpd s = .next (s.begunFault 0x07000000 .rstpd .lockNotHeld))
      ∧ (s.lock = .held s.cur →
        execTimes .rstpd 10 s = .next
          { s.completed 0x07000000 (if s.env.level 0 = 0 then 0x00000001 else 0x10000000)
              (rstpdEvents s.cfg.timing s.cur (s.env.level 0))
              (fun x => { x with smp := s.env.level 0, present := if s.env.level 0 = 0 then 1 else 0 }) with
            lineDir := .output, lineOut := 1, env := s.env.afterDraws 1 }))
    ∧ (∀ (s : State) (k : Nat), k < 8 → s.At [⟨.rstpd, k⟩] → ∃ t, exec .rstpd s = .next t
      ∧ t.me.pos = [⟨.rstpd, k + 1⟩]
      ∧ t.trace = s.trace ++ ((rstpdEvents s.cfg.timing s.cur (s.env.level 0)).drop k).take 1
      ∧ t.me.present = if k = 5 then (if s.env.level 0 = 0 then 1 else 0) else s.me.present)
    ∧ ∀ (s : State) (j : Nat), s.At [⟨.sample, j⟩] → (samplePlan s.cfg.holdLock)[j]? = some .presence →
      execTimes .sample 8 s = .next
        { s with
          lineDir := .output
          lineOut := 1
          env := s.env.afterDraws 1
          trace := s.trace ++ rstpdEvents s.cfg.timing s.cur (s.env.level 0)
          ctx := s.ctx.modify s.cur fun x =>
            { x with
              smp := s.env.level 0
              present := if s.env.level 0 = 0 then 1 else 0
              pos := [⟨.sample, if s.env.level 0 = 0 then j + 1 else presenceExit s.cfg.holdLock⟩] } }

/-- 41_bit_codec.md R124 and R125: WBIT, its value clamped, as a request, micro-step by micro-step (`BITV` is written at
W1), and as the procedure WBYTE calls for its bit `i` with the value masked out of the accumulator. Where `POS` stands
around the call is DEDUCED (log 12). -/
def Obligations.WbitRule : Prop :=
  (∀ w : Word, w.extractLsb' 16 16 = 2048#16 → decodeRequest w = .ok (.wbit (w.extractLsb' 0 16)))
    ∧ (∀ (v : Half) (s : State), s.AtRest →
      (s.lock ≠ .held s.cur → exec (.wbit v) s = .next (s.begunFault (requestWord (.wbit v)) .wbit .lockNotHeld))
      ∧ (s.lock = .held s.cur →
        let b : Level := if v ≠ 0 then 1 else 0
        execTimes (.wbit v) 10 s = .next
          { s.completed (requestWord (.wbit v)) 0 (wbitEvents s.cfg.timing s.cur b) (fun x => { x with bitv := b }) with
            lineDir := .output, lineOut := 1 }))
    ∧ (∀ (v : Half) (s : State) (k : Nat), k < 8 → s.At [⟨.wbit, k⟩] → ∃ t, exec (.wbit v) s = .next t
      ∧ t.me.pos = [⟨.wbit, k + 1⟩]
      ∧ t.trace = s.trace ++ ((wbitEvents s.cfg.timing s.cur s.me.bitv).drop k).take 1
      ∧ t.me.bitv = if k = 0 then (if v ≠ 0 then 1 else 0) else s.me.bitv)
    ∧ ∀ (a : Byte) (s : State) (i : Nat), i < 8 → s.At [⟨.wbyte, i⟩] →
      let acc : Byte := if i = 0 then a else s.me.acc
      let b : Level := if acc &&& (1#8 <<< i) ≠ 0 then 1 else 0
      execTimes (.wbyte a) 8 s = .next
        { s with
          lineDir := .output
          lineOut := 1
          trace := s.trace ++ wbitEvents s.cfg.timing s.cur b
          ctx := s.ctx.modify s.cur fun x => { x with acc := acc, bitv := b, idx := i + 1, pos := [⟨.wbyte, i + 1⟩] } }

/-- 41_bit_codec.md R127: RBIT, as a request, micro-step by micro-step (the sample is B5), and as the procedure RBYTE calls
for its bit `i`. Where `POS` stands around the call is DEDUCED (log 12). -/
def Obligations.RbitRule : Prop :=
  decodeRequest 0x09000000 = .ok .rbit
    ∧ (∀ w : Word, w.extractLsb' 24 8 = 0x09#8 → w.extractLsb' 0 16 ≠ 0 → IsIllegal w)
    ∧ (∀ s : State, s.AtRest →
      (s.lock ≠ .held s.cur → exec .rbit s = .next (s.begunFault 0x09000000 .rbit .lockNotHeld))
      ∧ (s.lock = .held s.cur →
        execTimes .rbit 8 s = .next
          { s.completed 0x09000000 ((s.env.level 0).setWidth 32) (rbitEvents s.cfg.timing s.cur (s.env.level 0))
              (fun x => { x with smp := s.env.level 0 }) with
            lineDir := .input, lineOut := 0, env := s.env.afterDraws 1 }))
    ∧ (∀ (s : State) (k : Nat), k < 6 → s.At [⟨.rbit, k⟩] → ∃ t, exec .rbit s = .next t
      ∧ t.me.pos = [⟨.rbit, k + 1⟩]
      ∧ t.trace = s.trace ++ ((rbitEvents s.cfg.timing s.cur (s.env.level 0)).drop k).take 1
      ∧ t.me.smp = if k = 4 then s.env.level 0 else s.me.smp)
    ∧ ∀ (s : State) (i : Nat), i < 8 → s.At [⟨.rbyte, i⟩] →
      execTimes .rbyte 6 s = .next
        { s with
          lineDir := .input
          lineOut := 0
          env := s.env.afterDraws 1
          trace := s.trace ++ rbitEvents s.cfg.timing s.cur (s.env.level 0)
          ctx := s.ctx.modify s.cur fun x =>
            { x with
              acc := (if i = 0 then 0 else x.acc) ||| ((s.env.level 0).setWidth 8 <<< i)
              smp := s.env.level 0
              idx := i + 1
              pos := [⟨.rbyte, i + 1⟩] } }

/-! ## Byte codec -/

/-- 42_byte_codec.md R150: WBYTE, as a request, micro-step by micro-step (`ACC` and `IDX` are written where the rule says), and
as a procedure of SAMPLE: 64 micro-steps, the level of slot `i` being bit `i` of the byte. Where `POS` stands around a call is
DEDUCED (log 12). -/
def Obligations.WbyteRule : Prop :=
  (∀ w : Word, w.extractLsb' 8 24 = 655360#24 → decodeRequest w = .ok (.wbyte (w.extractLsb' 0 8)))
    ∧ (∀ w : Word, w.extractLsb' 24 8 = 0x0A#8 → w.extractLsb' 8 8 ≠ 0 → IsIllegal w)
    ∧ (∀ (b : Byte) (s : State), s.AtRest →
      (s.lock ≠ .held s.cur → exec (.wbyte b) s = .next (s.begunFault (requestWord (.wbyte b)) .wbyte .lockNotHeld))
      ∧ (s.lock = .held s.cur →
        execTimes (.wbyte b) 66 s = .next
          { s.completed (requestWord (.wbyte b)) 0 (wbyteEvents s.cfg.timing s.cur b)
              (fun x => { x with acc := b, idx := 8, bitv := b.extractLsb' 7 1 }) with
            lineDir := .output, lineOut := 1 }))
    ∧ (∀ (b : Byte) (s : State) (i k : Nat), i < 8 → k < 8 →
      s.At (⟨.wbyte, i⟩ :: if k = 0 then [] else [⟨.wbit, k⟩]) → ∃ t, exec (.wbyte b) s = .next t
        ∧ t.me.pos = (if k = 7 then [⟨.wbyte, i + 1⟩] else [⟨.wbyte, i⟩, ⟨.wbit, k + 1⟩])
        ∧ t.trace = s.trace ++ ((wbitEvents s.cfg.timing s.cur s.me.bitv).drop k).take 1
        ∧ t.me.acc = (if i = 0 ∧ k = 0 then b else s.me.acc)
        ∧ t.me.bitv = (if k = 0 then (if i = 0 then b else s.me.acc).extractLsb' i 1 else s.me.bitv)
        ∧ t.me.idx = if k = 7 then i + 1 else if i = 0 ∧ k = 0 then 0 else s.me.idx)
    ∧ ∀ (s : State) (j : Nat) (k : WireCmd), s.At [⟨.sample, j⟩] →
      (samplePlan s.cfg.holdLock)[j]? = some (.command k) →
      let b := k.byte s.cfg.commands
      execTimes .sample 64 s = .next
        { s with
          lineDir := .output
          lineOut := 1
          trace := s.trace ++ wbyteEvents s.cfg.timing s.cur b
          ctx := s.ctx.modify s.cur fun x =>
            { x with acc := b, idx := 8, bitv := b.extractLsb' 7 1, pos := [⟨.sample, j + 1⟩] } }

/-- 42_byte_codec.md R152: RBYTE, as a request, micro-step by micro-step (`ACC` and `IDX` are written where the rule says), and
as a procedure of SAMPLE: 48 micro-steps, the byte being the eight samples, the first in bit 0. As 43_transaction.md R168
has it, SAMPLE's first byte goes to `LO`, the second to `HI`, and `RAW` becomes `HI ++ LO`. That `LO` is stored in the last
micro-step of the first RBYTE is DEDUCED (log 14), and so is where `POS` stands around a call (log 12). -/
def Obligations.RbyteRule : Prop :=
  decodeRequest 0x0B000000 = .ok .rbyte
    ∧ (∀ w : Word, w.extractLsb' 24 8 = 0x0B#8 → w.extractLsb' 0 16 ≠ 0 → IsIllegal w)
    ∧ (∀ s : State, s.AtRest →
      (s.lock ≠ .held s.cur → exec .rbyte s = .next (s.begunFault 0x0B000000 .rbyte .lockNotHeld))
      ∧ (s.lock = .held s.cur →
        execTimes .rbyte 50 s = .next
          { s.completed 0x0B000000 ((s.env.byte 0).setWidth 32) (rbyteEvents s.cfg.timing s.cur s.env 0)
              (fun x => { x with acc := s.env.byte 0, idx := 8, smp := s.env.level 7 }) with
            lineDir := .input, lineOut := 0, env := s.env.afterDraws 8 }))
    ∧ (∀ (s : State) (i k : Nat), i < 8 → k < 6 →
      s.At (⟨.rbyte, i⟩ :: if k = 0 then [] else [⟨.rbit, k⟩]) → ∃ t, exec .rbyte s = .next t
        ∧ t.me.pos = (if k = 5 then [⟨.rbyte, i + 1⟩] else [⟨.rbyte, i⟩, ⟨.rbit, k + 1⟩])
        ∧ t.trace = s.trace ++ ((rbitEvents s.cfg.timing s.cur (s.env.level 0)).drop k).take 1
        ∧ t.me.acc = (if i = 0 ∧ k = 0 then 0
          else if k = 4 then s.me.acc ||| ((s.env.level 0).setWidth 8 <<< i) else s.me.acc)
        ∧ t.me.idx = if k = 5 then i + 1 else if i = 0 ∧ k = 0 then 0 else s.me.idx)
    ∧ ∀ (s : State) (j : Nat), s.At [⟨.sample, j⟩] →
      let item := (samplePlan s.cfg.holdLock)[j]?
      let read (regs : Ctx → Ctx) : State :=
        { s with
          lineDir := .input
          lineOut := 0
          env := s.env.afterDraws 8
          trace := s.trace ++ rbyteEvents s.cfg.timing s.cur s.env 0
          ctx := s.ctx.modify s.cur fun x =>
            { regs x with acc := s.env.byte 0, idx := 8, smp := s.env.level 7, pos := [⟨.sample, j + 1⟩] } }
      (item = some .readLow → execTimes .sample 48 s = .next (read fun x => { x with lo := s.env.byte 0 }))
      ∧ (item = some .readHigh →
        execTimes .sample 48 s = .next
          (read fun x => { x with hi := s.env.byte 0, raw := (s.env.byte 0 ++ x.lo : BitVec 16) }))

/-- 42_byte_codec.md R153: if the draws of an RBYTE are the bits of a byte, LSB first, it answers that byte. -/
def Obligations.ByteRoundTrip : Prop :=
  ∀ (s : State) (b : Byte), s.AtRest → s.lock = .held s.cur →
    (∀ k, k < 8 → s.env.level k = b.extractLsb' k 1) →
    ∃ t, execTimes .rbyte 50 s = .next t ∧ t.me.resp = some (b.setWidth 32)

/-! ## Bus Lock -/

/-- 44_lock.md R190: ACQ: it takes a free lock; while another caller holds it, it takes no micro-step; a caller that holds
it faults. -/
def Obligations.AcqRule : Prop :=
  decodeRequest 0x0C000000 = .ok .acq
    ∧ (∀ w : Word, w.extractLsb' 24 8 = 0x0C#8 → w.extractLsb' 0 16 ≠ 0 → IsIllegal w)
    ∧ (∀ s : State, s.AtRest →
      (s.lock = .held s.cur → exec .acq s = .next (s.begunFault 0x0C000000 .acq .recursiveAcquire))
      ∧ (s.lock ≠ .held s.cur → exec .acq s = .next (s.begun 0x0C000000 .acq))
      ∧ (s.lock = .free → execTimes .acq 3 s = .next
          { s.completed 0x0C000000 0 [.acquire s.cur] id with lock := .held s.cur }))
    ∧ ∀ s : State, s.At [⟨.acq, 0⟩] →
      (s.lock = .free → exec .acq s = .next
        ({ s with lock := .held s.cur, trace := s.trace ++ [Event.acquire s.cur] }.setPos [⟨.acq, 1⟩]))
      ∧ ∀ d t, s.lock = .held d → d ≠ s.cur → exec .acq s = .next t → t = s

/-- 44_lock.md R192 and R193: TRYACQ: its one micro-step is Acquire exactly when the lock is free and TimeOut exactly when
another caller holds it, whatever the bound. That the step
to `BUS_BUSY` stands at index 2 is DEDUCED (log 13); that with the lock held by the caller itself neither is taken is log 22. -/
def Obligations.TryacqRule : Prop :=
  (∀ w : Word, w.extractLsb' 16 16 = 3328#16 → decodeRequest w = .ok (.tryacq (w.extractLsb' 0 16)))
    ∧ (∀ (b : Half) (s : State), s.AtRest →
      let w := requestWord (.tryacq b)
      (s.lock = .held s.cur → exec (.tryacq b) s = .next (s.begunFault w .tryacq .recursiveAcquire))
      ∧ (s.lock = .free → execTimes (.tryacq b) 3 s = .next
          { s.completed w 0 [.acquire s.cur] id with lock := .held s.cur })
      ∧ (∀ d, s.lock = .held d → d ≠ s.cur → execTimes (.tryacq b) 3 s = .next
          (s.completed w 0x20000000 [.busy s.cur] id)))
    ∧ ∀ (b : Half) (s : State), s.At [⟨.tryacq, 0⟩] →
      (s.lock = .free → exec (.tryacq b) s = .next
        ({ s with lock := .held s.cur, trace := s.trace ++ [Event.acquire s.cur] }.setPos [⟨.tryacq, 1⟩]))
      ∧ (∀ d, s.lock = .held d → d ≠ s.cur → exec (.tryacq b) s = .next
        ({ s with trace := s.trace ++ [Event.busy s.cur] }.setPos [⟨.tryacq, 2⟩]))
      ∧ (∀ t, s.lock = .held s.cur → exec (.tryacq b) s = .next t → t = s)

/-- 44_lock.md R194: REL: only the holder releases; the line stays as it is. -/
def Obligations.RelRule : Prop :=
  decodeRequest 0x0E000000 = .ok .rel
    ∧ (∀ w : Word, w.extractLsb' 24 8 = 0x0E#8 → w.extractLsb' 0 16 ≠ 0 → IsIllegal w)
    ∧ (∀ s : State, s.AtRest →
      (s.lock ≠ .held s.cur → exec .rel s = .next (s.begunFault 0x0E000000 .rel .releaseNotOwner))
      ∧ (s.lock = .held s.cur → execTimes .rel 3 s = .next
          { s.completed 0x0E000000 0 [.release s.cur] id with lock := .free }))
    ∧ ∀ s : State, s.At [⟨.rel, 0⟩] → exec .rel s = .next
      ({ s with lock := .free, trace := s.trace ++ [Event.release s.cur] }.setPos [⟨.rel, 1⟩])

/-! ## SAMPLE -/

/-- 43_transaction.md R160, R173: from a free lock, with presence at both resets and no other caller's step between, SAMPLE
appends exactly the events of its ten phases, in order, and answers the raw register its sixteen scratchpad draws make;
with the lock held during the conversion, two events fewer. -/
def Obligations.SampleSucceeds : Prop :=
  (∀ (g : Config) (c : Nat) (e : Env),
    (sampleFirstEvents g c ++ sampleWaitEvents g c ++ sampleSecondEvents g c e).length
      = if g.holdLock then 371 else 373)
  ∧ ∀ s : State, s.AtRest → s.lock = .free → s.env.level 0 = 0 → s.env.level 1 = 0 →
    let lo := s.env.byte 2
    let hi := s.env.byte 10
    execTimes .sample (if s.cfg.holdLock then 373 else 375) s = .next
      { s.completed 0x0F000000 ((hi ++ lo : BitVec 16).setWidth 32)
          (sampleFirstEvents s.cfg s.cur ++ sampleWaitEvents s.cfg s.cur ++ sampleSecondEvents s.cfg s.cur s.env)
          (fun x => { x with
            bitv := s.cfg.commands.readScratchpad.extractLsb' 7 1, smp := s.env.level 17, present := 1, acc := hi
            idx := 8, lo := lo, hi := hi, raw := hi ++ lo }) with
        lineDir := .input, lineOut := 0, env := s.env.afterDraws 18 }

/-- 43_transaction.md R162: no presence at phase 2: SAMPLE releases the lock, writes the line no more, and answers
`NO_RESPONSE` with no temperature; from phase 2 in every state, and from its start. -/
def Obligations.SampleFailsAtTheFirstReset : Prop :=
  (∀ s : State, s.At [⟨.sample, 1⟩] → s.env.level 0 = 1 →
    execTimes .sample 10 s = .next
      { s.completed s.me.req 0x10000000 (rstpdEvents s.cfg.timing s.cur 1 ++ [.release s.cur])
          (fun x => { x with smp := 1, present := 0 }) with
        lock := .free, lineDir := .output, lineOut := 1, env := s.env.afterDraws 1 })
  ∧ ∀ s : State, s.AtRest → s.lock = .free → s.env.level 0 = 1 →
    execTimes .sample 12 s = .next
      { s.completed 0x0F000000 0x10000000
          ([.acquire s.cur] ++ rstpdEvents s.cfg.timing s.cur 1 ++ [.release s.cur])
          (fun x => { x with smp := 1, present := 0 }) with
        lineDir := .output, lineOut := 1, env := s.env.afterDraws 1 }

/-- 43_transaction.md R166: no presence at phase 6: the same, after the conversion was started. The index at which phase 6
stands is DEDUCED (log 13). -/
def Obligations.SampleFailsAtTheSecondReset : Prop :=
  (∀ s : State, s.At [⟨.sample, if s.cfg.holdLock then 5 else 7⟩] → s.env.level 0 = 1 →
    execTimes .sample 10 s = .next
      { s.completed s.me.req 0x10000000 (rstpdEvents s.cfg.timing s.cur 1 ++ [.release s.cur])
          (fun x => { x with smp := 1, present := 0 }) with
        lock := .free, lineDir := .output, lineOut := 1, env := s.env.afterDraws 1 })
  ∧ ∀ s : State, s.AtRest → s.lock = .free → s.env.level 0 = 0 → s.env.level 1 = 1 →
    execTimes .sample (if s.cfg.holdLock then 149 else 151) s = .next
      { s.completed 0x0F000000 0x10000000
          (sampleFirstEvents s.cfg s.cur ++ sampleWaitEvents s.cfg s.cur ++ rstpdEvents s.cfg.timing s.cur 1
            ++ [.release s.cur])
          (fun x => { x with
            bitv := s.cfg.commands.convertT.extractLsb' 7 1, smp := 1, present := 0, acc := s.cfg.commands.convertT
            idx := 8 }) with
        lineDir := .output, lineOut := 1, env := s.env.afterDraws 2 }

/-- 43_transaction.md R172: with a bound configured, a time-out answers `BUS_BUSY`: at phase 1 with no bus operation at all,
and at any acquisition with no Release after it. The index
at which an acquisition stands is DEDUCED (log 13). -/
def Obligations.SampleTimesOut : Prop :=
  (∀ (s : State) (d b : Nat), s.AtRest → s.lock = .held d → d ≠ s.cur → s.cfg.acquireBound = some b →
    execTimes .sample 3 s = .next (s.completed 0x0F000000 0x20000000 [.busy s.cur] id))
  ∧ ∀ (s : State) (j d b : Nat), s.At [⟨.sample, j⟩] → (samplePlan s.cfg.holdLock)[j]? = some .acquire →
    s.lock = .held d → d ≠ s.cur → s.cfg.acquireBound = some b →
    execTimes .sample 2 s = .next (s.completed s.me.req 0x20000000 [.busy s.cur] id)

/-- 43_transaction.md R161, R164, R169, R170: the micro-steps of SAMPLE's own frame: it takes a free lock, and waits for one
that is taken unless a bound is configured; it releases; it sleeps; it answers the raw register. Model's choices in it: a wait
leaves the state as it is (log 4), also where the caller itself holds the lock, which the start check excludes (log 22); and
the index at which an item stands is DEDUCED (log 13). -/
def Obligations.SampleOwnMicroStepsComplete : Prop :=
  ∀ (s : State) (j : Nat), s.At [⟨.sample, j⟩] →
    let item := (samplePlan s.cfg.holdLock)[j]?
    (item = some .acquire → s.lock = .free → exec .sample s = .next
      ({ s with lock := .held s.cur, trace := s.trace ++ [Event.acquire s.cur] }.setPos [⟨.sample, j + 1⟩]))
    ∧ (∀ d, item = some .acquire → s.lock = .held d → s.cfg.acquireBound = none → exec .sample s = .next s)
    ∧ (item = some .release → exec .sample s = .next
      ({ s with lock := .free, trace := s.trace ++ [Event.release s.cur] }.setPos [⟨.sample, j + 1⟩]))
    ∧ (item = some .sleep → exec .sample s = .next
      ({ s with trace := s.trace ++ [Event.sleepMs s.cur s.cfg.timing.convMs] }.setPos [⟨.sample, j + 1⟩]))
    ∧ (item = some .respondRaw → exec .sample s = .next (s.completed s.me.req (s.me.raw.setWidth 32) [] id))

/-- 30_encoding.md R82: each wire command is sent with WBYTE semantics: from the call at which SAMPLE sends it, 64 micro-steps put
its byte on the line, LSB first, and leave SAMPLE at the next item; and micro-step `m` of bit `b` of it appends the event
of its place. SAMPLE sends them in the order `SKIP_ROM`, `CONVERT_T`, `SKIP_ROM`, `READ_SCRATCHPAD`, and no other. That
SAMPLE's step runs under the command's name is the model's DESIGN CHOICE (log 15), and where `POS` stands around a call is
DEDUCED (logs 12, 13). -/
def Obligations.WireCommandsAreSentAsBytes : Prop :=
  (∀ hold : Bool, (samplePlan hold).filterMap SampleItem.wire = [.skipRom, .convertT, .skipRom, .readScratchpad])
  ∧ (∀ (s : State) (j b m : Nat) (k : WireCmd), (samplePlan s.cfg.holdLock)[j]? = some (.command k) → b < 8 → m < 8 →
    s.At (⟨.sample, j⟩ :: wbyteFrames b m) →
    ∃ t, exec k.instr s = .next t
      ∧ t.me.pos = (if b = 7 ∧ m = 7 then [⟨.sample, j + 1⟩] else ⟨.sample, j⟩ :: wbyteFrames (b + (m + 1) / 8) ((m + 1) % 8))
      ∧ t.trace = s.trace ++ ((wbitEvents s.cfg.timing s.cur s.me.bitv).drop m).take 1)
  ∧ ∀ (s : State) (j : Nat) (k : WireCmd), s.At [⟨.sample, j⟩] →
    (samplePlan s.cfg.holdLock)[j]? = some (.command k) →
    execTimes k.instr 64 s = .next
      { s with
        lineDir := .output
        lineOut := 1
        trace := s.trace ++ wbyteEvents s.cfg.timing s.cur (k.byte s.cfg.commands)
        ctx := s.ctx.modify s.cur fun x =>
          { x with
            acc := k.byte s.cfg.commands, idx := 8, bitv := (k.byte s.cfg.commands).extractLsb' 7 1
            pos := [⟨.sample, j + 1⟩] } }

/-- 30_encoding.md R80 and R82: a wire command of a caller that is not in SAMPLE is the request `WBYTE` of its byte
(log 15), and it completes as that does. -/
def Obligations.WireCommandsAreWbyteRequests : Prop :=
  ∀ (s : State) (k : WireCmd), s.AtRest → s.lock = .held s.cur →
    execTimes k.instr 66 s = .next
      { s.completed (requestWord (.wbyte (k.byte s.cfg.commands))) 0
          (wbyteEvents s.cfg.timing s.cur (k.byte s.cfg.commands))
          (fun x => { x with
            acc := k.byte s.cfg.commands, idx := 8, bitv := (k.byte s.cfg.commands).extractLsb' 7 1 }) with
        lineDir := .output, lineOut := 1 }

/-! ## Temperature and results -/

/-- 45_temperature.md R210: DECODE, with the lock or without: `NEG` in bit 16 and `MAG`, negated at 16 bits. -/
def Obligations.DecodeRule : Prop :=
  (∀ w : Word, w.extractLsb' 16 16 = 4096#16 → decodeRequest w = .ok (.decode (w.extractLsb' 0 16)))
    ∧ (∀ (r : Half) (s : State), s.AtRest →
      let neg : BitVec 1 := r.extractLsb' 15 1
      let mag : BitVec 16 := if neg = 1 then ~~~r + 1 else r
      execTimes (.decode r) 2 s = .next
        (s.completed (requestWord (.decode r)) ((neg.setWidth 32 <<< 16) ||| mag.setWidth 32) [] id))
    ∧ ∀ (r : Half) (s : State), s.At [⟨.decode, 0⟩] → ∃ t, exec (.decode r) s = .next t ∧ t.me.status = .idle

/-- 45_temperature.md R212: sign and magnitude give the two's-complement value, in its range, and the text's integer fits. -/
def Obligations.SignMagnitudeIsTwosComplement : Prop :=
  ∀ r : Half, signedMagnitude r = (if r.toNat < 32768 then (r.toNat : Int) else (r.toNat : Int) - 65536)
    ∧ signedMagnitude r = temp16 r ∧ -20480000 ≤ value10000 r ∧ value10000 r ≤ 20479375

/-- 45_temperature.md R216: the text forms the spec works out. -/
def Obligations.TextFormsOfTheExamples : Prop :=
  exposeText 0x0191 = [0x74, 0x65, 0x6D, 0x70, 0x20, 0x3D, 0x20, 0x32, 0x35, 0x30, 0x36, 0x32, 0x35, 0x0A]
    ∧ exposeText 0xFE6F = [0x74, 0x65, 0x6D, 0x70, 0x20, 0x3D, 0x20, 0x2D, 0x32, 0x35, 0x30, 0x36, 0x32, 0x35, 0x0A]
    ∧ exposeText 0xFFFF = [0x74, 0x65, 0x6D, 0x70, 0x20, 0x3D, 0x20, 0x2D, 0x36, 0x32, 0x35, 0x0A]
    ∧ exposeText 0x0000 = [0x74, 0x65, 0x6D, 0x70, 0x20, 0x3D, 0x20, 0x30, 0x0A]

/-- 30_encoding.md R76 to R78 and 45_temperature.md R215, R218: the fields of a response word; a successful sample exposes
its raw register, undecoded, and a failed one exposes nothing. -/
def Obligations.ResponseFields : Prop :=
  (∀ (r : ResultCode) (d : BitVec 17),
    (responseWord r d).extractLsb' 28 4 = statusCode r ∧ (responseWord r d).extractLsb' 17 11 = 0
      ∧ (responseWord r d).extractLsb' 0 17 = d)
  ∧ (∀ raw : Half, exposedRaw (responseWord .ok (raw.setWidth 17)) = some raw)
  ∧ ∀ d : BitVec 17, exposedRaw (responseWord .noResponse d) = none ∧ exposedRaw (responseWord .busBusy d) = none

/-- 70_reset_and_hazards.md R274: the sums of the delay arguments with the default Timing Profile, in microseconds. -/
def Obligations.DelaySums : Prop :=
  ∀ (c : Nat) (v b : Level) (B : Byte) (e : Env) (k : Nat) (hold : Bool),
    minDurationUs (rstpdEvents Timing.default c v) = 560 ∧ minDurationUs (wbitEvents Timing.default c b) = 74
      ∧ minDurationUs (rbitEvents Timing.default c v) = 60 ∧ minDurationUs (wbyteEvents Timing.default c B) = 592
      ∧ minDurationUs (rbyteEvents Timing.default c e k) = 480
      ∧ (let g := { Config.default with holdLock := hold }
         minDurationUs (sampleFirstEvents g c ++ sampleWaitEvents g c ++ sampleSecondEvents g c e) = 754448)

/-! ## The machine -/

/-- 70_reset_and_hazards.md R260: the values engine reset gives, in every configuration. What it leaves unspecified is left
so: `IsReset` says nothing of it, but that `IDX` is in its range. R260 permits reset only when every caller is IDLE; that a
reset with a BUSY caller is the refusal `resetWhileBusy`, and that the environment stays over a reset, is the model's
DESIGN CHOICE (log 10). -/
def Obligations.ResetRule : Prop :=
  State.reset.IsReset ∧ (∀ (cfg : Config) (env : Env), (State.resetWith cfg env).IsReset)
    ∧ ∀ s : State, s.fault.cause = .none → s.nextMove = .engineReset →
      ((∀ x ∈ s.ctx, x.status = .idle) →
        ∃ t, step s = .next t ∧ t.IsReset ∧ t.cfg = s.cfg ∧ t.env = s.afterMove.env)
      ∧ ((∃ x ∈ s.ctx, x.status = .busy) → step s = .refused .resetWhileBusy)

/-- The invariant holds after reset, whatever the registers hold whose reset value the spec leaves open. -/
def Obligations.ResetMeetsTheInvariant : Prop := (∀ s : State, s.IsReset → s.Inv) ∧ State.reset.Inv

/-- THE INVARIANT IS KEPT BY EVERY STEP, whatever the schedule, the host and the draws: `TRACE` keeps the lock's discipline
(44_lock.md R197) and leaves `LOCK` as it is, every running caller stands at a position of its request at which the lock is
as that position asks, and `POS`, `IDX` and the ports are consistent (10_state.md R30, R31). -/
def Obligations.StepKeepsTheInvariant : Prop := ∀ s t : State, s.Inv → step s = .next t → t.Inv

/-- Under the invariant no step ends at a position no sequence has. -/
def Obligations.NoStepLosesItsPosition : Prop := ∀ s : State, s.Inv → step s ≠ .fault .badPosition

/-- 44_lock.md R197: in a trace that keeps the lock's discipline, every line event is performed by the caller that holds
the lock there: after its Acquire and before the next Release. -/
def Obligations.LineEventsAreTheHolders : Prop :=
  ∀ (before after : List Event) (e : Event) (l : Lock), lockAfter (before ++ e :: after) = some l → e.isLine = true →
    lockAfter before = some (.held e.caller)
      ∧ ∃ earlier held, before = earlier ++ .acquire e.caller :: held
        ∧ ∀ d, Event.acquire d ∉ held ∧ Event.release d ∉ held

/-- 44_lock.md R197 and 20_memory.md R60: no step but a lock holder's touches the line: neither drives it nor samples it. -/
def Obligations.OnlyTheHolderTouchesTheLine : Prop :=
  ∀ s t : State, s.Inv → step s = .next t → s.nextMove ≠ .engineReset →
    t.lineDir ≠ s.lineDir ∨ t.lineOut ≠ s.lineOut ∨ t.env.drawn ≠ s.env.drawn → s.lock = .held t.cur

/-- 10_state.md R28: no step writes the configuration. -/
def Obligations.ConfigurationIsReadOnly : Prop := ∀ s t : State, step s = .next t → t.cfg = s.cfg

/-- 10_state.md R26: `TRACE` is empty after reset, and no step removes or reorders an event: it appends one, the stepping
caller's, or none; a step of a running request that is not a wait appends exactly one. -/
def Obligations.TraceOnlyGrows : Prop :=
  State.reset.trace = []
  ∧ (∀ s t : State, step s = .next t → s.nextMove ≠ .engineReset →
    t.trace = s.trace ∨ ∃ e, t.trace = s.trace ++ [e] ∧ e.caller = t.cur)
  ∧ ∀ (i : Instr) (s t : State), s.me.status = .busy → exec i s = .next t →
    t = s ∨ ∃ e, t.trace = s.trace ++ [e] ∧ e.caller = s.cur

/-- 10_state.md R39: THE FRAME OF EVERY INSTRUCTION, in every form and at every step of it: what the access table does not let it
write is unchanged, and so is every other caller's context (R30). -/
def Obligations.EveryInstructionWritesOnlyItsAccess : Prop :=
  ∀ (i : Instr) (s t : State), exec i s = .next t → WritesOnly (accessOf i) s t

/-- 10_state.md R24 and 44_lock.md R193: the lock changes only by an Acquire of a free lock and by a Release, and only for the
caller that performs it; a start step, a time-out and an answer leave it. -/
def Obligations.LockChangesOnlyByItsMicroSteps : Prop :=
  ∀ (i : Instr) (s t : State), exec i s = .next t → t.lock ≠ s.lock →
    (s.lock = .free ∧ t.lock = .held s.cur ∧ t.trace = s.trace ++ [.acquire s.cur])
      ∨ (t.lock = .free ∧ t.trace = s.trace ++ [.release s.cur])

/-- 10_state.md R33: `PRESENT` is written only by a Sample micro-step, as the sampled level says. -/
def Obligations.PresentFollowsTheSample : Prop :=
  ∀ (i : Instr) (s t : State), exec i s = .next t → t.me.present ≠ s.me.present →
    ∃ v, t.trace = s.trace ++ [.sample s.cur v] ∧ t.me.present = (if v = 0 then 1 else 0) ∧ t.me.smp = v

/-- 60_exceptions.md R250: the respond micro-step is the end of every request: a step that leaves a running caller IDLE
builds the response word of some result and data, appends its Respond event, and writes `RESP`, `STATE`, `POS` and the port's
answer; it changes nothing else, the lock least of all. -/
def Obligations.RespondEndsEveryRequest : Prop :=
  ∀ (i : Instr) (s t : State), s.me.status = .busy → exec i s = .next t → t.me.status = .idle →
    ∃ (r : ResultCode) (d : BitVec 17), t = s.completed s.me.req (((statusCode r).setWidth 32 <<< 28) ||| d.setWidth 32) [] id

/-- 60_exceptions.md R250 and 10_state.md R30: `RESP` of every caller is the word of its last Respond event: it holds after reset and
every step keeps it. -/
def Obligations.RespIsTheLastResponse : Prop :=
  (∀ (c : Nat) (x : Ctx), State.reset.ctx[c]? = some x → x.resp = lastResponse c State.reset.trace)
  ∧ ∀ s t : State, (∀ (c : Nat) (x : Ctx), s.ctx[c]? = some x → x.resp = lastResponse c s.trace) → step s = .next t →
    ∀ (c : Nat) (x : Ctx), t.ctx[c]? = some x → x.resp = lastResponse c t.trace

/-- 44_lock.md R200: a lock holder always has an enabled step: running alone or not, its next step appends an event. -/
def Obligations.HolderAlwaysSteps : Prop :=
  ∀ (s : State) (i : Instr), s.Inv → s.Live → s.me.status = .busy → s.lock = .held s.cur →
    decodeRequest s.me.req = .ok i → ∃ t e, exec i s = .next t ∧ t.trace = s.trace ++ [e]

/-- 44_lock.md R200: a SAMPLE that holds the lock reaches its Release within 370 of its own steps, whatever the draws. -/
def Obligations.SampleHolderReleases : Prop :=
  ∀ s : State, s.Inv → s.Live → s.me.status = .busy → s.me.req = 0x0F000000 → s.lock = .held s.cur →
    ∃ n t, n ≤ 370 ∧ execTimes .sample n s = .next t ∧ t.lock = .free
      ∧ t.trace.getLast? = some (.release s.cur)

/-- 44_lock.md R198: with `HOLD_LOCK_DURING_CONVERSION`, a SAMPLE in phases 2 to 9 holds the lock, the conversion wait included:
from its Acquire to the Release of phase 9. The Release of the failure exit is not spoken of. That indices 1 to 10 are those
phases is DEDUCED (log 13). -/
def Obligations.HoldKeepsTheLockThroughTheConversion : Prop :=
  ∀ (s : State) (c j : Nat) (x : Ctx) (inner : List Frame), s.Inv → s.fault.cause = .none → s.cfg.holdLock = true →
    s.ctx[c]? = some x → x.status = .busy → x.req = 0x0F000000 → x.pos = ⟨.sample, j⟩ :: inner →
    1 ≤ j → j ≤ 10 → s.lock = .held c

/-- 10_state.md R30: no caller sees another's context: put any other there, and an instruction's outcome is the same, and
leaves it as it was put. -/
def Obligations.CallersDoNotSeeEachOther : Prop :=
  ∀ (i : Instr) (s : State) (d : Nat) (y : Ctx), d ≠ s.cur →
    exec i { s with ctx := s.ctx.set d y } =
      match exec i s with
      | .next t => .next { t with ctx := t.ctx.set d y }
      | .fault f => .fault f
      | .refused r => .refused r
end

