-- ==== Sys2Proof/Laws/State.lean ====
section
/-! SUPPORT. What each operation on State does to each field, one simp lemma a pair, and what it does to the stepping
caller's context. -/

namespace Sys2Proof.Machine

variable (s : State)


@[simp] theorem State.mapCtx_cfg (c : Nat) (f : Ctx → Ctx) : (s.mapCtx c f).cfg = s.cfg := rfl
@[simp] theorem State.mapCtx_lineDir (c : Nat) (f : Ctx → Ctx) : (s.mapCtx c f).lineDir = s.lineDir := rfl
@[simp] theorem State.mapCtx_lineOut (c : Nat) (f : Ctx → Ctx) : (s.mapCtx c f).lineOut = s.lineOut := rfl
@[simp] theorem State.mapCtx_lock (c : Nat) (f : Ctx → Ctx) : (s.mapCtx c f).lock = s.lock := rfl
@[simp] theorem State.mapCtx_fault (c : Nat) (f : Ctx → Ctx) : (s.mapCtx c f).fault = s.fault := rfl
@[simp] theorem State.mapCtx_trace (c : Nat) (f : Ctx → Ctx) : (s.mapCtx c f).trace = s.trace := rfl
@[simp] theorem State.mapCtx_ctx (c : Nat) (f : Ctx → Ctx) : (s.mapCtx c f).ctx = s.ctx.modify c f := rfl
@[simp] theorem State.mapCtx_cur (c : Nat) (f : Ctx → Ctx) : (s.mapCtx c f).cur = s.cur := rfl
@[simp] theorem State.mapCtx_env (c : Nat) (f : Ctx → Ctx) : (s.mapCtx c f).env = s.env := rfl

@[simp] theorem State.mapMe_cfg (f : Ctx → Ctx) : (s.mapMe f).cfg = s.cfg := rfl
@[simp] theorem State.mapMe_lineDir (f : Ctx → Ctx) : (s.mapMe f).lineDir = s.lineDir := rfl
@[simp] theorem State.mapMe_lineOut (f : Ctx → Ctx) : (s.mapMe f).lineOut = s.lineOut := rfl
@[simp] theorem State.mapMe_lock (f : Ctx → Ctx) : (s.mapMe f).lock = s.lock := rfl
@[simp] theorem State.mapMe_fault (f : Ctx → Ctx) : (s.mapMe f).fault = s.fault := rfl
@[simp] theorem State.mapMe_trace (f : Ctx → Ctx) : (s.mapMe f).trace = s.trace := rfl
@[simp] theorem State.mapMe_ctx (f : Ctx → Ctx) : (s.mapMe f).ctx = s.ctx.modify s.cur f := rfl
@[simp] theorem State.mapMe_cur (f : Ctx → Ctx) : (s.mapMe f).cur = s.cur := rfl
@[simp] theorem State.mapMe_env (f : Ctx → Ctx) : (s.mapMe f).env = s.env := rfl

@[simp] theorem State.setPos_cfg (pos : List Frame) : (s.setPos pos).cfg = s.cfg := rfl
@[simp] theorem State.setPos_lineDir (pos : List Frame) : (s.setPos pos).lineDir = s.lineDir := rfl
@[simp] theorem State.setPos_lineOut (pos : List Frame) : (s.setPos pos).lineOut = s.lineOut := rfl
@[simp] theorem State.setPos_lock (pos : List Frame) : (s.setPos pos).lock = s.lock := rfl
@[simp] theorem State.setPos_fault (pos : List Frame) : (s.setPos pos).fault = s.fault := rfl
@[simp] theorem State.setPos_trace (pos : List Frame) : (s.setPos pos).trace = s.trace := rfl
@[simp] theorem State.setPos_ctx (pos : List Frame) : (s.setPos pos).ctx = s.ctx.modify s.cur fun x => { x with pos := pos } := rfl
@[simp] theorem State.setPos_cur (pos : List Frame) : (s.setPos pos).cur = s.cur := rfl
@[simp] theorem State.setPos_env (pos : List Frame) : (s.setPos pos).env = s.env := rfl

@[simp] theorem State.emit_cfg (e : Event) : (s.emit e).cfg = s.cfg := rfl
@[simp] theorem State.emit_lineDir (e : Event) : (s.emit e).lineDir = s.lineDir := rfl
@[simp] theorem State.emit_lineOut (e : Event) : (s.emit e).lineOut = s.lineOut := rfl
@[simp] theorem State.emit_lock (e : Event) : (s.emit e).lock = s.lock := rfl
@[simp] theorem State.emit_fault (e : Event) : (s.emit e).fault = s.fault := rfl
@[simp] theorem State.emit_trace (e : Event) : (s.emit e).trace = s.trace ++ [e] := rfl
@[simp] theorem State.emit_ctx (e : Event) : (s.emit e).ctx = s.ctx := rfl
@[simp] theorem State.emit_cur (e : Event) : (s.emit e).cur = s.cur := rfl
@[simp] theorem State.emit_env (e : Event) : (s.emit e).env = s.env := rfl

@[simp] theorem State.setOut_cfg (v : Level) : (s.setOut v).cfg = s.cfg := rfl
@[simp] theorem State.setOut_lineDir (v : Level) : (s.setOut v).lineDir = .output := rfl
@[simp] theorem State.setOut_lineOut (v : Level) : (s.setOut v).lineOut = v := rfl
@[simp] theorem State.setOut_lock (v : Level) : (s.setOut v).lock = s.lock := rfl
@[simp] theorem State.setOut_fault (v : Level) : (s.setOut v).fault = s.fault := rfl
@[simp] theorem State.setOut_trace (v : Level) : (s.setOut v).trace = s.trace ++ [.setOut s.cur v] := rfl
@[simp] theorem State.setOut_ctx (v : Level) : (s.setOut v).ctx = s.ctx := rfl
@[simp] theorem State.setOut_cur (v : Level) : (s.setOut v).cur = s.cur := rfl
@[simp] theorem State.setOut_env (v : Level) : (s.setOut v).env = s.env := rfl

@[simp] theorem State.writeLvl_cfg (v : Level) : (s.writeLvl v).cfg = s.cfg := rfl
@[simp] theorem State.writeLvl_lineDir (v : Level) : (s.writeLvl v).lineDir = s.lineDir := rfl
@[simp] theorem State.writeLvl_lineOut (v : Level) : (s.writeLvl v).lineOut = v := rfl
@[simp] theorem State.writeLvl_lock (v : Level) : (s.writeLvl v).lock = s.lock := rfl
@[simp] theorem State.writeLvl_fault (v : Level) : (s.writeLvl v).fault = s.fault := rfl
@[simp] theorem State.writeLvl_trace (v : Level) : (s.writeLvl v).trace = s.trace ++ [.writeLvl s.cur v] := rfl
@[simp] theorem State.writeLvl_ctx (v : Level) : (s.writeLvl v).ctx = s.ctx := rfl
@[simp] theorem State.writeLvl_cur (v : Level) : (s.writeLvl v).cur = s.cur := rfl
@[simp] theorem State.writeLvl_env (v : Level) : (s.writeLvl v).env = s.env := rfl

@[simp] theorem State.setIn_cfg : (s.setIn).cfg = s.cfg := rfl
@[simp] theorem State.setIn_lineDir : (s.setIn).lineDir = .input := rfl
@[simp] theorem State.setIn_lineOut : (s.setIn).lineOut = s.lineOut := rfl
@[simp] theorem State.setIn_lock : (s.setIn).lock = s.lock := rfl
@[simp] theorem State.setIn_fault : (s.setIn).fault = s.fault := rfl
@[simp] theorem State.setIn_trace : (s.setIn).trace = s.trace ++ [.setIn s.cur] := rfl
@[simp] theorem State.setIn_ctx : (s.setIn).ctx = s.ctx := rfl
@[simp] theorem State.setIn_cur : (s.setIn).cur = s.cur := rfl
@[simp] theorem State.setIn_env : (s.setIn).env = s.env := rfl

@[simp] theorem State.sample_cfg : (s.sample).cfg = s.cfg := rfl
@[simp] theorem State.sample_lineDir : (s.sample).lineDir = s.lineDir := rfl
@[simp] theorem State.sample_lineOut : (s.sample).lineOut = s.lineOut := rfl
@[simp] theorem State.sample_lock : (s.sample).lock = s.lock := rfl
@[simp] theorem State.sample_fault : (s.sample).fault = s.fault := rfl
@[simp] theorem State.sample_trace : (s.sample).trace = s.trace ++ [.sample s.cur s.drawLevel] := rfl
@[simp] theorem State.sample_ctx : (s.sample).ctx = s.ctx.modify s.cur fun x => { x with smp := s.drawLevel } := rfl
@[simp] theorem State.sample_cur : (s.sample).cur = s.cur := rfl
@[simp] theorem State.sample_env : (s.sample).env = s.env.afterDraw := rfl

@[simp] theorem State.delayUs_cfg (n : Half) : (s.delayUs n).cfg = s.cfg := rfl
@[simp] theorem State.delayUs_lineDir (n : Half) : (s.delayUs n).lineDir = s.lineDir := rfl
@[simp] theorem State.delayUs_lineOut (n : Half) : (s.delayUs n).lineOut = s.lineOut := rfl
@[simp] theorem State.delayUs_lock (n : Half) : (s.delayUs n).lock = s.lock := rfl
@[simp] theorem State.delayUs_fault (n : Half) : (s.delayUs n).fault = s.fault := rfl
@[simp] theorem State.delayUs_trace (n : Half) : (s.delayUs n).trace = s.trace ++ [.delayUs s.cur n] := rfl
@[simp] theorem State.delayUs_ctx (n : Half) : (s.delayUs n).ctx = s.ctx := rfl
@[simp] theorem State.delayUs_cur (n : Half) : (s.delayUs n).cur = s.cur := rfl
@[simp] theorem State.delayUs_env (n : Half) : (s.delayUs n).env = s.env := rfl

@[simp] theorem State.sleepMs_cfg (n : Half) : (s.sleepMs n).cfg = s.cfg := rfl
@[simp] theorem State.sleepMs_lineDir (n : Half) : (s.sleepMs n).lineDir = s.lineDir := rfl
@[simp] theorem State.sleepMs_lineOut (n : Half) : (s.sleepMs n).lineOut = s.lineOut := rfl
@[simp] theorem State.sleepMs_lock (n : Half) : (s.sleepMs n).lock = s.lock := rfl
@[simp] theorem State.sleepMs_fault (n : Half) : (s.sleepMs n).fault = s.fault := rfl
@[simp] theorem State.sleepMs_trace (n : Half) : (s.sleepMs n).trace = s.trace ++ [.sleepMs s.cur n] := rfl
@[simp] theorem State.sleepMs_ctx (n : Half) : (s.sleepMs n).ctx = s.ctx := rfl
@[simp] theorem State.sleepMs_cur (n : Half) : (s.sleepMs n).cur = s.cur := rfl
@[simp] theorem State.sleepMs_env (n : Half) : (s.sleepMs n).env = s.env := rfl

@[simp] theorem State.acquire_cfg : (s.acquire).cfg = s.cfg := rfl
@[simp] theorem State.acquire_lineDir : (s.acquire).lineDir = s.lineDir := rfl
@[simp] theorem State.acquire_lineOut : (s.acquire).lineOut = s.lineOut := rfl
@[simp] theorem State.acquire_lock : (s.acquire).lock = .held s.cur := rfl
@[simp] theorem State.acquire_fault : (s.acquire).fault = s.fault := rfl
@[simp] theorem State.acquire_trace : (s.acquire).trace = s.trace ++ [.acquire s.cur] := rfl
@[simp] theorem State.acquire_ctx : (s.acquire).ctx = s.ctx := rfl
@[simp] theorem State.acquire_cur : (s.acquire).cur = s.cur := rfl
@[simp] theorem State.acquire_env : (s.acquire).env = s.env := rfl

@[simp] theorem State.release_cfg : (s.release).cfg = s.cfg := rfl
@[simp] theorem State.release_lineDir : (s.release).lineDir = s.lineDir := rfl
@[simp] theorem State.release_lineOut : (s.release).lineOut = s.lineOut := rfl
@[simp] theorem State.release_lock : (s.release).lock = .free := rfl
@[simp] theorem State.release_fault : (s.release).fault = s.fault := rfl
@[simp] theorem State.release_trace : (s.release).trace = s.trace ++ [.release s.cur] := rfl
@[simp] theorem State.release_ctx : (s.release).ctx = s.ctx := rfl
@[simp] theorem State.release_cur : (s.release).cur = s.cur := rfl
@[simp] theorem State.release_env : (s.release).env = s.env := rfl

@[simp] theorem State.timeOut_cfg : (s.timeOut).cfg = s.cfg := rfl
@[simp] theorem State.timeOut_lineDir : (s.timeOut).lineDir = s.lineDir := rfl
@[simp] theorem State.timeOut_lineOut : (s.timeOut).lineOut = s.lineOut := rfl
@[simp] theorem State.timeOut_lock : (s.timeOut).lock = s.lock := rfl
@[simp] theorem State.timeOut_fault : (s.timeOut).fault = s.fault := rfl
@[simp] theorem State.timeOut_trace : (s.timeOut).trace = s.trace ++ [.busy s.cur] := rfl
@[simp] theorem State.timeOut_ctx : (s.timeOut).ctx = s.ctx := rfl
@[simp] theorem State.timeOut_cur : (s.timeOut).cur = s.cur := rfl
@[simp] theorem State.timeOut_env : (s.timeOut).env = s.env := rfl

@[simp] theorem State.respond_cfg (r : ResultCode) (d : BitVec 17) : (s.respond r d).cfg = s.cfg := rfl
@[simp] theorem State.respond_lineDir (r : ResultCode) (d : BitVec 17) : (s.respond r d).lineDir = s.lineDir := rfl
@[simp] theorem State.respond_lineOut (r : ResultCode) (d : BitVec 17) : (s.respond r d).lineOut = s.lineOut := rfl
@[simp] theorem State.respond_lock (r : ResultCode) (d : BitVec 17) : (s.respond r d).lock = s.lock := rfl
@[simp] theorem State.respond_fault (r : ResultCode) (d : BitVec 17) : (s.respond r d).fault = s.fault := rfl
@[simp] theorem State.respond_trace (r : ResultCode) (d : BitVec 17) : (s.respond r d).trace = s.trace ++ [.respond s.cur (responseWord r d)] := rfl
@[simp] theorem State.respond_ctx (r : ResultCode) (d : BitVec 17) : (s.respond r d).ctx = s.ctx.modify s.cur fun x =>
      { x with status := .idle, pos := [], resp := some (responseWord r d), ready := true } := rfl
@[simp] theorem State.respond_cur (r : ResultCode) (d : BitVec 17) : (s.respond r d).cur = s.cur := rfl
@[simp] theorem State.respond_env (r : ResultCode) (d : BitVec 17) : (s.respond r d).env = s.env := rfl

@[simp] theorem State.raise_cfg (f : FaultCause) (w : Word) : (s.raise f w).cfg = s.cfg := rfl
@[simp] theorem State.raise_lineDir (f : FaultCause) (w : Word) : (s.raise f w).lineDir = s.lineDir := rfl
@[simp] theorem State.raise_lineOut (f : FaultCause) (w : Word) : (s.raise f w).lineOut = s.lineOut := rfl
@[simp] theorem State.raise_lock (f : FaultCause) (w : Word) : (s.raise f w).lock = s.lock := rfl
@[simp] theorem State.raise_fault (f : FaultCause) (w : Word) : (s.raise f w).fault = ⟨f, s.cur, w⟩ := rfl
@[simp] theorem State.raise_trace (f : FaultCause) (w : Word) : (s.raise f w).trace = s.trace := rfl
@[simp] theorem State.raise_ctx (f : FaultCause) (w : Word) : (s.raise f w).ctx = s.ctx := rfl
@[simp] theorem State.raise_cur (f : FaultCause) (w : Word) : (s.raise f w).cur = s.cur := rfl
@[simp] theorem State.raise_env (f : FaultCause) (w : Word) : (s.raise f w).env = s.env := rfl

@[simp] theorem State.as_cfg (c : Nat) : (s.as c).cfg = s.cfg := rfl
@[simp] theorem State.as_lineDir (c : Nat) : (s.as c).lineDir = s.lineDir := rfl
@[simp] theorem State.as_lineOut (c : Nat) : (s.as c).lineOut = s.lineOut := rfl
@[simp] theorem State.as_lock (c : Nat) : (s.as c).lock = s.lock := rfl
@[simp] theorem State.as_fault (c : Nat) : (s.as c).fault = s.fault := rfl
@[simp] theorem State.as_trace (c : Nat) : (s.as c).trace = s.trace := rfl
@[simp] theorem State.as_ctx (c : Nat) : (s.as c).ctx = s.ctx := rfl
@[simp] theorem State.as_cur (c : Nat) : (s.as c).cur = c := rfl
@[simp] theorem State.as_env (c : Nat) : (s.as c).env = s.env := rfl

@[simp] theorem State.fetched_cfg : (s.fetched).cfg = s.cfg := rfl
@[simp] theorem State.fetched_lineDir : (s.fetched).lineDir = s.lineDir := rfl
@[simp] theorem State.fetched_lineOut : (s.fetched).lineOut = s.lineOut := rfl
@[simp] theorem State.fetched_lock : (s.fetched).lock = s.lock := rfl
@[simp] theorem State.fetched_fault : (s.fetched).fault = s.fault := rfl
@[simp] theorem State.fetched_trace : (s.fetched).trace = s.trace := rfl
@[simp] theorem State.fetched_ctx : (s.fetched).ctx = s.ctx.modify s.cur fun x => { x with port := none } := rfl
@[simp] theorem State.fetched_cur : (s.fetched).cur = s.cur := rfl
@[simp] theorem State.fetched_env : (s.fetched).env = s.env := rfl

@[simp] theorem State.afterMove_cfg : (s.afterMove).cfg = s.cfg := rfl
@[simp] theorem State.afterMove_lineDir : (s.afterMove).lineDir = s.lineDir := rfl
@[simp] theorem State.afterMove_lineOut : (s.afterMove).lineOut = s.lineOut := rfl
@[simp] theorem State.afterMove_lock : (s.afterMove).lock = s.lock := rfl
@[simp] theorem State.afterMove_fault : (s.afterMove).fault = s.fault := rfl
@[simp] theorem State.afterMove_trace : (s.afterMove).trace = s.trace := rfl
@[simp] theorem State.afterMove_ctx : (s.afterMove).ctx = s.ctx := rfl
@[simp] theorem State.afterMove_cur : (s.afterMove).cur = s.cur := rfl
@[simp] theorem State.afterMove_env : (s.afterMove).env = { s.env with moves := s.env.moves.tail, moved := s.env.moved + 1 } := rfl

@[simp] theorem State.recordPresence_cfg : (s.recordPresence).cfg = s.cfg := rfl
@[simp] theorem State.recordPresence_lineDir : (s.recordPresence).lineDir = s.lineDir := rfl
@[simp] theorem State.recordPresence_lineOut : (s.recordPresence).lineOut = s.lineOut := rfl
@[simp] theorem State.recordPresence_lock : (s.recordPresence).lock = s.lock := rfl
@[simp] theorem State.recordPresence_fault : (s.recordPresence).fault = s.fault := rfl
@[simp] theorem State.recordPresence_trace : (s.recordPresence).trace = s.trace := rfl
@[simp] theorem State.recordPresence_ctx : (s.recordPresence).ctx = s.ctx.modify s.cur fun x => { x with present := presentOf x.smp } := rfl
@[simp] theorem State.recordPresence_cur : (s.recordPresence).cur = s.cur := rfl
@[simp] theorem State.recordPresence_env : (s.recordPresence).env = s.env := rfl

@[simp] theorem State.beginByte_cfg (a : Byte) : (s.beginByte a).cfg = s.cfg := rfl
@[simp] theorem State.beginByte_lineDir (a : Byte) : (s.beginByte a).lineDir = s.lineDir := rfl
@[simp] theorem State.beginByte_lineOut (a : Byte) : (s.beginByte a).lineOut = s.lineOut := rfl
@[simp] theorem State.beginByte_lock (a : Byte) : (s.beginByte a).lock = s.lock := rfl
@[simp] theorem State.beginByte_fault (a : Byte) : (s.beginByte a).fault = s.fault := rfl
@[simp] theorem State.beginByte_trace (a : Byte) : (s.beginByte a).trace = s.trace := rfl
@[simp] theorem State.beginByte_ctx (a : Byte) : (s.beginByte a).ctx = s.ctx.modify s.cur fun x => { x with acc := a, idx := 0 } := rfl
@[simp] theorem State.beginByte_cur (a : Byte) : (s.beginByte a).cur = s.cur := rfl
@[simp] theorem State.beginByte_env (a : Byte) : (s.beginByte a).env = s.env := rfl

@[simp] theorem State.bitDone_cfg (i : Nat) : (s.bitDone i).cfg = s.cfg := rfl
@[simp] theorem State.bitDone_lineDir (i : Nat) : (s.bitDone i).lineDir = s.lineDir := rfl
@[simp] theorem State.bitDone_lineOut (i : Nat) : (s.bitDone i).lineOut = s.lineOut := rfl
@[simp] theorem State.bitDone_lock (i : Nat) : (s.bitDone i).lock = s.lock := rfl
@[simp] theorem State.bitDone_fault (i : Nat) : (s.bitDone i).fault = s.fault := rfl
@[simp] theorem State.bitDone_trace (i : Nat) : (s.bitDone i).trace = s.trace := rfl
@[simp] theorem State.bitDone_ctx (i : Nat) : (s.bitDone i).ctx = s.ctx.modify s.cur fun x => { x with idx := i + 1 } := rfl
@[simp] theorem State.bitDone_cur (i : Nat) : (s.bitDone i).cur = s.cur := rfl
@[simp] theorem State.bitDone_env (i : Nat) : (s.bitDone i).env = s.env := rfl

@[simp] theorem State.accumulate_cfg (i : Nat) : (State.accumulate i s).cfg = s.cfg := rfl
@[simp] theorem State.accumulate_lineDir (i : Nat) : (State.accumulate i s).lineDir = s.lineDir := rfl
@[simp] theorem State.accumulate_lineOut (i : Nat) : (State.accumulate i s).lineOut = s.lineOut := rfl
@[simp] theorem State.accumulate_lock (i : Nat) : (State.accumulate i s).lock = s.lock := rfl
@[simp] theorem State.accumulate_fault (i : Nat) : (State.accumulate i s).fault = s.fault := rfl
@[simp] theorem State.accumulate_trace (i : Nat) : (State.accumulate i s).trace = s.trace := rfl
@[simp] theorem State.accumulate_ctx (i : Nat) : (State.accumulate i s).ctx = s.ctx.modify s.cur fun x => { x with acc := orBit x.acc x.smp i } := rfl
@[simp] theorem State.accumulate_cur (i : Nat) : (State.accumulate i s).cur = s.cur := rfl
@[simp] theorem State.accumulate_env (i : Nat) : (State.accumulate i s).env = s.env := rfl

@[simp] theorem State.storeLow_cfg : (s.storeLow).cfg = s.cfg := rfl
@[simp] theorem State.storeLow_lineDir : (s.storeLow).lineDir = s.lineDir := rfl
@[simp] theorem State.storeLow_lineOut : (s.storeLow).lineOut = s.lineOut := rfl
@[simp] theorem State.storeLow_lock : (s.storeLow).lock = s.lock := rfl
@[simp] theorem State.storeLow_fault : (s.storeLow).fault = s.fault := rfl
@[simp] theorem State.storeLow_trace : (s.storeLow).trace = s.trace := rfl
@[simp] theorem State.storeLow_ctx : (s.storeLow).ctx = s.ctx.modify s.cur fun x => { x with lo := x.acc } := rfl
@[simp] theorem State.storeLow_cur : (s.storeLow).cur = s.cur := rfl
@[simp] theorem State.storeLow_env : (s.storeLow).env = s.env := rfl

@[simp] theorem State.storeHigh_cfg : (s.storeHigh).cfg = s.cfg := rfl
@[simp] theorem State.storeHigh_lineDir : (s.storeHigh).lineDir = s.lineDir := rfl
@[simp] theorem State.storeHigh_lineOut : (s.storeHigh).lineOut = s.lineOut := rfl
@[simp] theorem State.storeHigh_lock : (s.storeHigh).lock = s.lock := rfl
@[simp] theorem State.storeHigh_fault : (s.storeHigh).fault = s.fault := rfl
@[simp] theorem State.storeHigh_trace : (s.storeHigh).trace = s.trace := rfl
@[simp] theorem State.storeHigh_ctx : (s.storeHigh).ctx = s.ctx.modify s.cur fun x => { x with hi := x.acc, raw := rawOf x.acc x.lo } := rfl
@[simp] theorem State.storeHigh_cur : (s.storeHigh).cur = s.cur := rfl
@[simp] theorem State.storeHigh_env : (s.storeHigh).env = s.env := rfl

/-! ## The stepping caller's context -/

theorem State.me_eq (h : s.cur < s.ctx.length) : s.me = s.ctx[s.cur] := by
  simp [State.me, List.getD, h]

theorem State.getElem?_me (h : s.cur < s.ctx.length) : s.ctx[s.cur]? = some s.me := by
  simp [s.me_eq h, h]

/-- A state whose context list is changed at `cur` only. -/
theorem State.me_of_modify {t : State} {f : Ctx → Ctx} (h : s.cur < s.ctx.length) (hc : t.cur = s.cur)
    (hx : t.ctx = s.ctx.modify s.cur f) : t.me = f s.me := by
  simp [State.me, List.getD, hc, hx, h]

theorem State.me_of_ctx {t : State} (hc : t.cur = s.cur) (hx : t.ctx = s.ctx) : t.me = s.me := by
  simp [State.me, hc, hx]

@[simp] theorem State.mapMe_me (f : Ctx → Ctx) (h : s.cur < s.ctx.length) : (s.mapMe f).me = f s.me :=
  s.me_of_modify h rfl rfl
@[simp] theorem State.setPos_me (pos : List Frame) (h : s.cur < s.ctx.length) : (s.setPos pos).me = { s.me with pos := pos } :=
  s.me_of_modify (f := fun x => { x with pos := pos }) h rfl rfl
@[simp] theorem State.emit_me (e : Event) : (s.emit e).me = s.me := rfl
@[simp] theorem State.setOut_me (v : Level) : (s.setOut v).me = s.me := rfl
@[simp] theorem State.writeLvl_me (v : Level) : (s.writeLvl v).me = s.me := rfl
@[simp] theorem State.setIn_me : (s.setIn).me = s.me := rfl
@[simp] theorem State.sample_me (h : s.cur < s.ctx.length) : (s.sample).me = { s.me with smp := s.drawLevel } :=
  s.me_of_modify (f := fun x => { x with smp := s.drawLevel }) h rfl rfl
@[simp] theorem State.delayUs_me (n : Half) : (s.delayUs n).me = s.me := rfl
@[simp] theorem State.sleepMs_me (n : Half) : (s.sleepMs n).me = s.me := rfl
@[simp] theorem State.acquire_me : (s.acquire).me = s.me := rfl
@[simp] theorem State.release_me : (s.release).me = s.me := rfl
@[simp] theorem State.timeOut_me : (s.timeOut).me = s.me := rfl
@[simp] theorem State.respond_me (r : ResultCode) (d : BitVec 17) (h : s.cur < s.ctx.length) : (s.respond r d).me = { s.me with status := .idle, pos := [], resp := some (responseWord r d), ready := true } :=
  s.me_of_modify (f := fun x => { x with status := .idle, pos := [], resp := some (responseWord r d), ready := true }) h rfl rfl
@[simp] theorem State.raise_me (f : FaultCause) (w : Word) : (s.raise f w).me = s.me := rfl
@[simp] theorem State.fetched_me (h : s.cur < s.ctx.length) : (s.fetched).me = { s.me with port := none } :=
  s.me_of_modify (f := fun x => { x with port := none }) h rfl rfl
@[simp] theorem State.afterMove_me : (s.afterMove).me = s.me := rfl
@[simp] theorem State.recordPresence_me (h : s.cur < s.ctx.length) : (s.recordPresence).me = { s.me with present := presentOf s.me.smp } :=
  s.me_of_modify (f := fun x => { x with present := presentOf x.smp }) h rfl rfl
@[simp] theorem State.beginByte_me (a : Byte) (h : s.cur < s.ctx.length) : (s.beginByte a).me = { s.me with acc := a, idx := 0 } :=
  s.me_of_modify (f := fun x => { x with acc := a, idx := 0 }) h rfl rfl
@[simp] theorem State.bitDone_me (i : Nat) (h : s.cur < s.ctx.length) : (s.bitDone i).me = { s.me with idx := i + 1 } :=
  s.me_of_modify (f := fun x => { x with idx := i + 1 }) h rfl rfl
@[simp] theorem State.accumulate_me (i : Nat) (h : s.cur < s.ctx.length) : (State.accumulate i s).me = { s.me with acc := orBit s.me.acc s.me.smp i } :=
  s.me_of_modify (f := fun x => { x with acc := orBit x.acc x.smp i }) h rfl rfl
@[simp] theorem State.storeLow_me (h : s.cur < s.ctx.length) : (s.storeLow).me = { s.me with lo := s.me.acc } :=
  s.me_of_modify (f := fun x => { x with lo := x.acc }) h rfl rfl
@[simp] theorem State.storeHigh_me (h : s.cur < s.ctx.length) : (s.storeHigh).me = { s.me with hi := s.me.acc, raw := rawOf s.me.acc s.me.lo } :=
  s.me_of_modify (f := fun x => { x with hi := x.acc, raw := rawOf x.acc x.lo }) h rfl rfl

end Sys2Proof.Machine
end

