-- ==== Sys2Proof/Laws/Effects.lean ====
section
/-! SUPPORT. What one micro-step can do, said once: it appends one event, and the event determines what becomes of the
line, the lock and the draws (`Act`); the rest of the step is the caller's own context (`Quiet`). One lemma for each
shared operation. -/

namespace Sys2Proof.Machine

/-- What an event makes of `LOCK`. -/
def Event.lockOf (e : Event) (l : Lock) : Lock :=
  match e with
  | .acquire c => .held c
  | .release _ => .free
  | .setOut _ _ | .writeLvl _ _ | .setIn _ | .sample _ _ | .delayUs _ _ | .sleepMs _ _ | .busy _ | .respond _ _ => l

/-- What an event makes of `LINE_DIR`. -/
def Event.dirOf (e : Event) (d : LineDir) : LineDir :=
  match e with
  | .setOut _ _ => .output
  | .setIn _ => .input
  | .writeLvl _ _ | .sample _ _ | .delayUs _ _ | .sleepMs _ _ | .acquire _ | .release _ | .busy _ | .respond _ _ => d

/-- What an event makes of `LINE_OUT`. -/
def Event.outOf (e : Event) (v : Level) : Level :=
  match e with
  | .setOut _ w | .writeLvl _ w => w
  | .setIn _ | .sample _ _ | .delayUs _ _ | .sleepMs _ _ | .acquire _ | .release _ | .busy _ | .respond _ _ => v

/-- What an event makes of the environment: only a Sample draws. -/
def Event.envOf (e : Event) (v : Env) : Env :=
  match e with
  | .sample _ _ => v.afterDraw
  | .setOut _ _ | .writeLvl _ _ | .setIn _ | .delayUs _ _ | .sleepMs _ _ | .acquire _ | .release _ | .busy _
  | .respond _ _ => v

/-- A line event or a delay: what the codec is made of. -/
def Event.isCodec (e : Event) : Bool :=
  match e with
  | .setOut _ _ | .writeLvl _ _ | .setIn _ | .sample _ _ | .delayUs _ _ => true
  | .sleepMs _ _ | .acquire _ | .release _ | .busy _ | .respond _ _ => false

/-- Of the callers' contexts only the stepping caller's changes, and not its port. -/
structure Own (s t : State) : Prop where
  cfg : t.cfg = s.cfg
  cur : t.cur = s.cur
  len : t.ctx.length = s.ctx.length
  others : ∀ d, d ≠ s.cur → t.ctx[d]? = s.ctx[d]?
  port : t.me.port = s.me.port
  idx : s.me.idx ≤ 8 → t.me.idx ≤ 8

/-- The caller stands where it stood. -/
structure Stays (s t : State) : Prop where
  status : t.me.status = s.me.status
  req : t.me.req = s.me.req
  pos : t.me.pos = s.me.pos
  resp : t.me.resp = s.me.resp

/-- The shared state and the environment are as before. -/
structure Quiet (s t : State) : Prop where
  own : Own s t
  dir : t.lineDir = s.lineDir
  out : t.lineOut = s.lineOut
  lock : t.lock = s.lock
  fault : t.fault = s.fault
  trace : t.trace = s.trace
  env : t.env = s.env

/-- Event `e` of the stepping caller happened, and the shared state and the environment are what it makes of them. -/
structure Act (s t : State) (e : Event) : Prop where
  own : Own s t
  caller : e.caller = s.cur
  dir : t.lineDir = e.dirOf s.lineDir
  out : t.lineOut = e.outOf s.lineOut
  lock : t.lock = e.lockOf s.lock
  fault : t.fault = s.fault
  trace : t.trace = s.trace ++ [e]
  env : t.env = e.envOf s.env

theorem Own.of_ctx {s t : State} (hg : t.cfg = s.cfg) (hc : t.cur = s.cur) (hx : t.ctx = s.ctx) : Own s t where
  cfg := hg
  cur := hc
  len := by rw [hx]
  others d _ := by rw [hx]
  port := by rw [s.me_of_ctx hc hx]
  idx := by rw [s.me_of_ctx hc hx]; exact id

theorem Stays.of_ctx {s t : State} (hc : t.cur = s.cur) (hx : t.ctx = s.ctx) : Stays s t := by
  constructor <;> rw [s.me_of_ctx hc hx]

theorem Own.rfl (s : State) : Own s s := Own.of_ctx (Eq.refl _) (Eq.refl _) (Eq.refl _)

theorem Stays.rfl (s : State) : Stays s s := Stays.of_ctx (Eq.refl _) (Eq.refl _)

theorem Quiet.rfl (s : State) : Quiet s s :=
  ⟨Own.rfl s, Eq.refl _, Eq.refl _, Eq.refl _, Eq.refl _, Eq.refl _, Eq.refl _⟩

theorem Own.trans {s t u : State} (h : Own s t) (k : Own t u) : Own s u where
  cfg := k.cfg.trans h.cfg
  cur := k.cur.trans h.cur
  len := k.len.trans h.len
  others d hd := (k.others d (by rw [h.cur]; exact hd)).trans (h.others d hd)
  port := k.port.trans h.port
  idx hi := k.idx (h.idx hi)

theorem Stays.trans {s t u : State} (h : Stays s t) (k : Stays t u) : Stays s u :=
  ⟨k.status.trans h.status, k.req.trans h.req, k.pos.trans h.pos, k.resp.trans h.resp⟩

theorem Own.bound {s t : State} (h : Own s t) (hs : s.cur < s.ctx.length) : t.cur < t.ctx.length := by
  rw [h.cur, h.len]; exact hs

theorem Act.then_quiet {s t u : State} {e : Event} (h : Act s t e) (k : Quiet t u) : Act s u e where
  own := h.own.trans k.own
  caller := h.caller
  dir := k.dir.trans h.dir
  out := k.out.trans h.out
  lock := k.lock.trans h.lock
  fault := k.fault.trans h.fault
  trace := k.trace.trans h.trace
  env := k.env.trans h.env

theorem Quiet.then_act {s t u : State} {e : Event} (h : Quiet s t) (k : Act t u e) : Act s u e where
  own := h.own.trans k.own
  caller := by rw [k.caller, h.own.cur]
  dir := by rw [k.dir, h.dir]
  out := by rw [k.out, h.out]
  lock := by rw [k.lock, h.lock]
  fault := k.fault.trans h.fault
  trace := by rw [k.trace, h.trace]
  env := by rw [k.env, h.env]

variable (s : State)

/-! ## Changes of the caller's context -/

/-- A change of the stepping caller's context that leaves its port and keeps `IDX` in range. -/
theorem State.mapMe_own (hs : s.cur < s.ctx.length) (f : Ctx → Ctx) (hp : (f s.me).port = s.me.port)
    (hi : s.me.idx ≤ 8 → (f s.me).idx ≤ 8) : Own s (s.mapMe f) where
  cfg := Eq.refl _
  cur := Eq.refl _
  len := by simp
  others d hd := by
    rw [State.mapMe_ctx, List.getElem?_modify]
    cases s.ctx[d]? <;> simp [Ne.symm hd]
  port := by simp [hs, hp]
  idx := by simpa [hs] using hi

theorem State.mapMe_quiet (hs : s.cur < s.ctx.length) (f : Ctx → Ctx) (hp : (f s.me).port = s.me.port)
    (hi : s.me.idx ≤ 8 → (f s.me).idx ≤ 8) : Quiet s (s.mapMe f) :=
  ⟨s.mapMe_own hs f hp hi, Eq.refl _, Eq.refl _, Eq.refl _, Eq.refl _, Eq.refl _, Eq.refl _⟩

theorem State.mapMe_stays (hs : s.cur < s.ctx.length) (f : Ctx → Ctx) (h1 : (f s.me).status = s.me.status)
    (h2 : (f s.me).req = s.me.req) (h3 : (f s.me).pos = s.me.pos) (h4 : (f s.me).resp = s.me.resp) :
    Stays s (s.mapMe f) := by
  constructor <;> simp [hs, h1, h2, h3, h4]

theorem State.setPos_quiet (hs : s.cur < s.ctx.length) (pos : List Frame) : Quiet s (s.setPos pos) :=
  s.mapMe_quiet hs _ (Eq.refl _) id

/-! ## Micro-steps -/

/-- Each line or delay micro-step appends one codec event, and the caller stands where it stood. -/
theorem State.micro_act (hs : s.cur < s.ctx.length) (m : Micro) :
    ∃ e, Act s (s.micro m) e ∧ e.isCodec = true ∧ Stays s (s.micro m) := by
  cases m with
  | sample =>
    refine ⟨_, ⟨?_, Eq.refl _, Eq.refl _, Eq.refl _, Eq.refl _, Eq.refl _, Eq.refl _, Eq.refl _⟩, Eq.refl _, ?_⟩
    · have := s.mapMe_own hs (fun x => { x with smp := s.drawLevel }) (Eq.refl _) id
      exact ⟨Eq.refl _, Eq.refl _, this.len, this.others, this.port, this.idx⟩
    · constructor <;> simp [State.micro, hs]
  | setOut v | writeLvl v | setIn | delayUs n =>
    exact ⟨_, ⟨Own.of_ctx (Eq.refl _) (Eq.refl _) (Eq.refl _), Eq.refl _, Eq.refl _, Eq.refl _, Eq.refl _, Eq.refl _,
      Eq.refl _, Eq.refl _⟩, Eq.refl _, Stays.of_ctx (Eq.refl _) (Eq.refl _)⟩

/-- A sequence's micro-step appends one codec event, if what it adds to a Sample is quiet. -/
theorem runMicro_act (hs : s.cur < s.ctx.length) {seq : List Micro} {f : State → State} {k : Nat} (hk : k < seq.length)
    (hf : ∀ t : State, t.cur < t.ctx.length → Quiet t (f t) ∧ Stays t (f t)) :
    ∃ e, Act s (runMicro seq f k s) e ∧ e.isCodec = true ∧ Stays s (runMicro seq f k s) := by
  obtain ⟨e, ha, he, hst⟩ := s.micro_act hs seq[k]
  rw [runMicro, List.getElem?_eq_getElem hk]
  cases hm : seq[k] <;> rw [hm] at ha hst <;> try exact ⟨e, ha, he, hst⟩
  obtain ⟨hq, hst'⟩ := hf _ (ha.own.bound hs)
  exact ⟨e, ha.then_quiet hq, he, hst.trans hst'⟩

theorem recordPresence_quiet (hs : s.cur < s.ctx.length) : Quiet s s.recordPresence ∧ Stays s s.recordPresence :=
  ⟨s.mapMe_quiet hs _ (Eq.refl _) id, s.mapMe_stays hs _ (Eq.refl _) (Eq.refl _) (Eq.refl _) (Eq.refl _)⟩

theorem accumulate_quiet (i : Nat) (hs : s.cur < s.ctx.length) :
    Quiet s (State.accumulate i s) ∧ Stays s (State.accumulate i s) :=
  ⟨s.mapMe_quiet hs _ (Eq.refl _) id, s.mapMe_stays hs _ (Eq.refl _) (Eq.refl _) (Eq.refl _) (Eq.refl _)⟩

theorem beginByte_quiet (a : Byte) (hs : s.cur < s.ctx.length) : Quiet s (s.beginByte a) ∧ Stays s (s.beginByte a) :=
  ⟨s.mapMe_quiet hs _ (Eq.refl _) (fun _ => Nat.zero_le _),
    s.mapMe_stays hs _ (Eq.refl _) (Eq.refl _) (Eq.refl _) (Eq.refl _)⟩

theorem bitDone_quiet {i : Nat} (hi : i < 8) (hs : s.cur < s.ctx.length) : Quiet s (s.bitDone i) ∧ Stays s (s.bitDone i) :=
  ⟨s.mapMe_quiet hs _ (Eq.refl _) (fun _ => hi), s.mapMe_stays hs _ (Eq.refl _) (Eq.refl _) (Eq.refl _) (Eq.refl _)⟩

theorem rstpdMicro_act (hs : s.cur < s.ctx.length) {k : Nat} (hk : k < 8) :
    ∃ e, Act s (rstpdMicro k s) e ∧ e.isCodec = true ∧ Stays s (rstpdMicro k s) :=
  runMicro_act s hs (by simpa [rstpdSeq] using hk) fun t ht => recordPresence_quiet t ht

theorem rbitMicro_act (hs : s.cur < s.ctx.length) {f : State → State} {k : Nat} (hk : k < 6)
    (hf : ∀ t : State, t.cur < t.ctx.length → Quiet t (f t) ∧ Stays t (f t)) :
    ∃ e, Act s (rbitMicro f k s) e ∧ e.isCodec = true ∧ Stays s (rbitMicro f k s) :=
  runMicro_act s hs (by simpa [rbitSeq] using hk) hf

theorem wbitMicro_act (hs : s.cur < s.ctx.length) {v : Half} {k : Nat} (hk : k < 8) :
    ∃ e, Act s (wbitMicro v k s) e ∧ e.isCodec = true ∧ Stays s (wbitMicro v k s) := by
  rw [wbitMicro]
  by_cases h : k = 0
  · rw [if_pos h]
    have hq := s.mapMe_quiet hs (fun x => { x with bitv := clamp v }) (Eq.refl _) id
    have hst := s.mapMe_stays hs (fun x => { x with bitv := clamp v }) (Eq.refl _) (Eq.refl _) (Eq.refl _) (Eq.refl _)
    obtain ⟨e, ha, he, hs'⟩ := runMicro_act _ (hq.own.bound hs)
      (seq := wbitSeq (s.mapMe fun x => { x with bitv := clamp v }).cfg.timing
        (s.mapMe fun x => { x with bitv := clamp v }).me.bitv)
      (f := id) (k := k) (by simpa [wbitSeq] using hk) (fun t _ => ⟨Quiet.rfl t, Stays.rfl t⟩)
    exact ⟨e, hq.then_act ha, he, hst.trans hs'⟩
  · rw [if_neg h]
    exact runMicro_act s hs (by simpa [wbitSeq] using hk) fun t _ => ⟨Quiet.rfl t, Stays.rfl t⟩

/-- A quiet beginning and a quiet end around a micro-step. -/
theorem act_between {f g h : State → State} (hs : s.cur < s.ctx.length) (hf : Quiet s (f s) ∧ Stays s (f s))
    (hg : ∀ t : State, t.cur < t.ctx.length → ∃ e, Act t (g t) e ∧ e.isCodec = true ∧ Stays t (g t))
    (hh : ∀ t : State, t.cur < t.ctx.length → Quiet t (h t) ∧ Stays t (h t)) :
    ∃ e, Act s (h (g (f s))) e ∧ e.isCodec = true ∧ Stays s (h (g (f s))) := by
  obtain ⟨e, ha, he, hst⟩ := hg _ (hf.1.own.bound hs)
  obtain ⟨hq, hst'⟩ := hh _ (ha.own.bound (hf.1.own.bound hs))
  exact ⟨e, (hf.1.then_act ha).then_quiet hq, he, hf.2.trans (hst.trans hst')⟩

theorem wbyteMicro_act (hs : s.cur < s.ctx.length) {b : Byte} {i k : Nat} (hi : i < 8) (hk : k < 8) :
    ∃ e, Act s (wbyteMicro b i k s) e ∧ e.isCodec = true ∧ Stays s (wbyteMicro b i k s) :=
  act_between s (f := fun s => if i = 0 ∧ k = 0 then s.beginByte b else s)
    (g := fun s => wbitMicro (maskedBit s.me.acc i) k s) (h := fun s => if k = 7 then s.bitDone i else s) hs
    (by split; exacts [beginByte_quiet s b hs, ⟨Quiet.rfl s, Stays.rfl s⟩])
    (fun t ht => wbitMicro_act t ht hk)
    (fun t ht => by split; exacts [bitDone_quiet t hi ht, ⟨Quiet.rfl t, Stays.rfl t⟩])

theorem rbyteMicro_act (hs : s.cur < s.ctx.length) {i k : Nat} (hi : i < 8) (hk : k < 6) :
    ∃ e, Act s (rbyteMicro i k s) e ∧ e.isCodec = true ∧ Stays s (rbyteMicro i k s) :=
  act_between s (f := fun s => if i = 0 ∧ k = 0 then s.beginByte 0 else s)
    (g := fun s => rbitMicro (State.accumulate i) k s) (h := fun s => if k = 5 then s.bitDone i else s) hs
    (by split; exacts [beginByte_quiet s 0 hs, ⟨Quiet.rfl s, Stays.rfl s⟩])
    (fun t ht => rbitMicro_act t ht hk fun u hu => accumulate_quiet u i hu)
    (fun t ht => by split; exacts [bitDone_quiet t hi ht, ⟨Quiet.rfl t, Stays.rfl t⟩])

/-! ## The lock and the answer -/

theorem State.acquire_act : Act s s.acquire (.acquire s.cur) :=
  ⟨Own.of_ctx (Eq.refl _) (Eq.refl _) (Eq.refl _), Eq.refl _, Eq.refl _, Eq.refl _, Eq.refl _, Eq.refl _, Eq.refl _,
    Eq.refl _⟩

theorem State.release_act : Act s s.release (.release s.cur) :=
  ⟨Own.of_ctx (Eq.refl _) (Eq.refl _) (Eq.refl _), Eq.refl _, Eq.refl _, Eq.refl _, Eq.refl _, Eq.refl _, Eq.refl _,
    Eq.refl _⟩

theorem State.timeOut_act : Act s s.timeOut (.busy s.cur) :=
  ⟨Own.of_ctx (Eq.refl _) (Eq.refl _) (Eq.refl _), Eq.refl _, Eq.refl _, Eq.refl _, Eq.refl _, Eq.refl _, Eq.refl _,
    Eq.refl _⟩

theorem State.sleepMs_act (n : Half) : Act s (s.sleepMs n) (.sleepMs s.cur n) :=
  ⟨Own.of_ctx (Eq.refl _) (Eq.refl _) (Eq.refl _), Eq.refl _, Eq.refl _, Eq.refl _, Eq.refl _, Eq.refl _, Eq.refl _,
    Eq.refl _⟩

theorem State.respond_act (hs : s.cur < s.ctx.length) (r : ResultCode) (d : BitVec 17) :
    Act s (s.respond r d) (.respond s.cur (responseWord r d)) := by
  refine ⟨?_, Eq.refl _, Eq.refl _, Eq.refl _, Eq.refl _, Eq.refl _, Eq.refl _, Eq.refl _⟩
  have := s.mapMe_own hs (fun x =>
    { x with status := .idle, pos := [], resp := some (responseWord r d), ready := true }) (Eq.refl _) id
  exact ⟨Eq.refl _, Eq.refl _, this.len, this.others, this.port, this.idx⟩

/-- What an acquisition can come to. -/
theorem State.grab_cases (bounded : Bool) :
    (s.lock = .free ∧ s.grab bounded = .got s.acquire)
      ∨ (∃ d, s.lock = .held d ∧ d ≠ s.cur ∧ bounded = true ∧ s.grab bounded = .late s.timeOut)
      ∨ ((∃ d, s.lock = .held d ∧ (bounded = false ∨ d = s.cur)) ∧ s.grab bounded = .wait) := by
  unfold State.grab
  cases h : s.lock with
  | free => exact .inl ⟨Eq.refl _, Eq.refl _⟩
  | held d =>
    by_cases hb : bounded = true ∧ d ≠ s.cur
    · exact .inr (.inl ⟨d, Eq.refl _, hb.2, hb.1, by simp [hb]⟩)
    · refine .inr (.inr ⟨⟨d, Eq.refl _, ?_⟩, by simp [hb]⟩)
      cases bounded <;> simp_all

end Sys2Proof.Machine
end

