-- ==== Sys2Proof/Laws/PerInstr.lean ====
section
/-! SUPPORT. What holds of every instruction as syntax: it is well-formed, the fields of its request word are its
operation code, zero and its operand (30_encoding.md R70 to R73), and a request's word passes the legality test (R74). -/

namespace Sys2Proof

/-- `OP` of an assembled word. -/
theorem opField_word (o : Byte) (m : Half) : opField ((o.setWidth 32 <<< 24) ||| m.setWidth 32) = o := by
  unfold opField
  ext i hi
  interval_cases i <;> simp

/-- `RSV` of an assembled word. -/
theorem rsvField_word (o : Byte) (m : Half) : rsvField ((o.setWidth 32 <<< 24) ||| m.setWidth 32) = 0 := by
  unfold rsvField
  ext i hi
  interval_cases i <;> simp

/-- `IMM` of an assembled word. -/
theorem immField_word (o : Byte) (m : Half) : immField ((o.setWidth 32 <<< 24) ||| m.setWidth 32) = m := by
  unfold immField
  ext i hi
  interval_cases i <;> simp

@[simp] theorem opField_requestWord (i : Instr) : opField (requestWord i) = i.opcode := opField_word _ _

@[simp] theorem rsvField_requestWord (i : Instr) : rsvField (requestWord i) = 0 := rsvField_word _ _

@[simp] theorem immField_requestWord (i : Instr) : immField (requestWord i) = i.imm := immField_word _ _

namespace Laws.WordFields

/-- The statement made of every instruction. -/
def Statement (i : Instr) : Prop :=
  i.wellFormed = true ∧ opField (requestWord i) = i.opcode ∧ rsvField (requestWord i) = 0 ∧ immField (requestWord i) = i.imm

/-- It rests on the must-be-zero bits alone. -/
theorem of_wellFormed (i : Instr) (h : i.wellFormed = true) : Statement i :=
  ⟨h, opField_requestWord i, rsvField_requestWord i, immField_requestWord i⟩

/-- A level leaves the bits above bit 0 zero (R73). -/
theorem level_mask (l : Level) : l.setWidth 16 &&& 0xFFFE#16 = 0 := by revert l; decide

/-- A byte leaves the bits above bit 7 zero (R73). -/
theorem byte_mask (b : Byte) : b.setWidth 16 &&& 0xFF00#16 = 0 := by revert b; decide

theorem lsetout (l : Level) : Statement (.lsetout l) :=
  of_wellFormed _ (by simp [Instr.wellFormed, Instr.imm, Instr.mustBeZero, level_mask])

theorem lwrite (l : Level) : Statement (.lwrite l) :=
  of_wellFormed _ (by simp [Instr.wellFormed, Instr.imm, Instr.mustBeZero, level_mask])

theorem lsetin : Statement .lsetin :=
  of_wellFormed _ (by decide)

theorem lread : Statement .lread :=
  of_wellFormed _ (by decide)

theorem delayus (n : Half) : Statement (.delayus n) :=
  of_wellFormed _ (by simp [Instr.wellFormed, Instr.mustBeZero])

theorem sleepms (n : Half) : Statement (.sleepms n) :=
  of_wellFormed _ (by simp [Instr.wellFormed, Instr.mustBeZero])

theorem rstpd : Statement .rstpd :=
  of_wellFormed _ (by decide)

theorem wbit (v : Half) : Statement (.wbit v) :=
  of_wellFormed _ (by simp [Instr.wellFormed, Instr.mustBeZero])

theorem rbit : Statement .rbit :=
  of_wellFormed _ (by decide)

theorem wbyte (b : Byte) : Statement (.wbyte b) :=
  of_wellFormed _ (by simp [Instr.wellFormed, Instr.imm, Instr.mustBeZero, byte_mask])

theorem rbyte : Statement .rbyte :=
  of_wellFormed _ (by decide)

theorem acq : Statement .acq :=
  of_wellFormed _ (by decide)

theorem tryacq (n : Half) : Statement (.tryacq n) :=
  of_wellFormed _ (by simp [Instr.wellFormed, Instr.mustBeZero])

theorem rel : Statement .rel :=
  of_wellFormed _ (by decide)

theorem sample : Statement .sample :=
  of_wellFormed _ (by decide)

theorem decode (r : Half) : Statement (.decode r) :=
  of_wellFormed _ (by simp [Instr.wellFormed, Instr.mustBeZero])

theorem cmdSkipRom : Statement .cmdSkipRom :=
  of_wellFormed _ (by decide)

theorem cmdConvertT : Statement .cmdConvertT :=
  of_wellFormed _ (by decide)

theorem cmdReadScratchpad : Statement .cmdReadScratchpad :=
  of_wellFormed _ (by decide)

end Laws.WordFields

end Sys2Proof
end

