-- ==== Sys2Proof/Laws/Progress.lean ====
section
/-! SUPPORT. What one step of a running request can do, said once for each shape of request: at a position of the request,
the lock being as the position asks, it waits or it appends one event that the lock's discipline admits, and leaves the
caller answered or at the next position, the lock being as that position asks. -/

namespace Sys2Proof.Machine

/-- A step from `s` that appends one admitted event and leaves the caller answered, or at a position of which `good` says
what it asks of the lock. -/
def Advances (good : List Frame → Option LockNeed) (s t : State) : Prop :=
  ∃ e, Act s t e ∧ lockStep (some s.lock) e = some t.lock ∧
    ((t.me.status = .idle ∧ t.me.pos = []) ∨
      (t.me.status = .busy ∧ t.me.req = s.me.req ∧ t.me.resp = s.me.resp ∧
        ∃ n, good t.me.pos = some n ∧ needMet n t.lock s.cur = true))

/-- The step waits, or advances. -/
def Proceeds (good : List Frame → Option LockNeed) (s : State) (o : Out) : Prop :=
  ∃ t, o = .next t ∧ (t = s ∨ Advances good s t)

variable {s : State}

/-- A codec event of the lock's holder is admitted and leaves the lock. -/
theorem codec_admitted {t : State} {e : Event} (ha : Act s t e) (he : e.isCodec = true) (hl : s.lock = .held s.cur) :
    lockStep (some s.lock) e = some t.lock ∧ t.lock = .held s.cur := by
  have h1 := ha.caller
  have h2 := ha.lock
  cases e <;> simp_all [Event.isCodec, Event.caller, Event.lockOf, lockStep]

/-- An answer advances. -/
theorem respond_advances (good : List Frame → Option LockNeed) (hs : s.cur < s.ctx.length) (r : ResultCode)
    (d : BitVec 17) : Advances good s (s.respond r d) :=
  ⟨_, s.respond_act hs r d, Eq.refl _, .inl (by simp [hs])⟩

/-- A micro-step followed by a move of the position advances. -/
theorem setPos_advances {good : List Frame → Option LockNeed} {t : State} {e : Event} (hs : s.cur < s.ctx.length)
    (hb : s.me.status = .busy) (ha : Act s t e) (hst : Stays s t) (hl : lockStep (some s.lock) e = some t.lock)
    {pos : List Frame} {n : LockNeed} (hg : good pos = some n) (hn : needMet n t.lock s.cur = true) :
    Advances good s (t.setPos pos) := by
  have ht := ha.own.bound hs
  refine ⟨e, ha.then_quiet (t.setPos_quiet ht pos), by simpa using hl, .inr ?_⟩
  simp [ht, hst.status, hst.req, hst.resp, hb, hg, hn]

/-- A running request takes the step of its body. -/
theorem request_running (hl : s.Live) (hb : s.me.status = .busy) {p : Proc} {f : Frame} {inner : List Frame}
    (hp : s.me.pos = f :: inner) (hf : f.proc = p) (w : Word) (chk : State → Option FaultCause)
    (body : Nat → List Frame → State → Out) : request w p chk body s = body f.index inner s := by
  have h1 : s.faulted = false := by simp [State.faulted, hl.1]
  have h2 : ¬ s.ctx.length ≤ s.cur := by have := hl.2; omega
  simp [request, h1, h2, hb, hp, hf]

/-- The start step of a request (10_state.md R36). -/
theorem request_start (hl : s.Live) (hi : s.me.status = .idle) (p : Proc) (w : Word) (chk : State → Option FaultCause)
    (body : Nat → List Frame → State → Out) : request w p chk body s = .next (s.start w p (chk s)) := by
  have h1 : s.faulted = false := by simp [State.faulted, hl.1]
  have h2 : ¬ s.ctx.length ≤ s.cur := by have := hl.2; omega
  simp [request, h1, h2, hi]

/-- A request of `n` micro-steps. -/
theorem sequence_proceeds (hl : s.Live) (hb : s.me.status = .busy) {p : Proc} {n : Nat} {before after need : LockNeed}
    (hg : seqNeed p n before after s.me.pos = some need) (hn : needMet need s.lock s.cur = true)
    {micro : Nat → State → State} {answer : State → State}
    (hm : ∀ k, k < n → needMet before s.lock s.cur = true → ∃ e, Act s (micro k s) e ∧ Stays s (micro k s) ∧
      lockStep (some s.lock) e = some (micro k s).lock ∧
        needMet (if k + 1 < n then before else after) (micro k s).lock s.cur = true)
    (ha : ∃ r d, answer s = s.respond r d) (w : Word) (chk : State → Option FaultCause) :
    Proceeds (seqNeed p n before after) s (request w p chk (sequence p n micro answer) s) := by
  match hp : s.me.pos with
  | [] => simp [hp, seqNeed] at hg
  | _ :: _ :: _ => simp [hp, seqNeed] at hg
  | [f] =>
    rw [hp, seqNeed] at hg
    split at hg
    case isFalse => simp at hg
    case isTrue hf =>
      rw [request_running hl hb hp hf.1]
      unfold sequence
      by_cases hk : f.index < n
      · rw [if_pos hk] at hg
        injection hg with hg
        obtain ⟨e, hact, hst, hls, hneed⟩ := hm _ hk (hg ▸ hn)
        refine ⟨_, if_pos hk, .inr ?_⟩
        refine setPos_advances hl.2 hb hact hst hls (n := if f.index + 1 < n then before else after) ?_ hneed
        simp [seqNeed, Nat.succ_le_of_lt hk]
      · have he : f.index = n := by omega
        obtain ⟨r, d, hrd⟩ := ha
        exact ⟨s.respond r d, by simp [he, hrd], .inr (respond_advances _ hl.2 r d)⟩

/-- One micro-step of a called procedure, the lock being held. -/
theorem callSeq_spec {p : Proc} {n : Nat} (h1 : 1 < n) {micro : Nat → State → State}
    (hm : ∀ k, k < n → ∃ e, Act s (micro k s) e ∧ e.isCodec = true ∧ Stays s (micro k s)) {inner : List Frame}
    (hi : insideSeq p n inner = true) :
    ∃ t fs e, callSeq p n micro inner s = some (t, fs) ∧ Act s t e ∧ e.isCodec = true ∧ Stays s t ∧
      insideSeq p n fs = true := by
  have go : ∀ k, k < n → ∃ t fs e, callSeqAt p n micro k s = some (t, fs) ∧ Act s t e ∧ e.isCodec = true ∧
      Stays s t ∧ insideSeq p n fs = true := by
    intro k hk
    obtain ⟨e, h⟩ := hm k hk
    by_cases hk' : k + 1 < n
    · exact ⟨_, _, e, if_pos hk', h.1, h.2.1, h.2.2, by simp [insideSeq, hk']⟩
    · exact ⟨_, [], e, by rw [callSeqAt, if_neg hk', if_pos (by omega)], h.1, h.2.1, h.2.2, Eq.refl _⟩
  match inner with
  | [] => exact go 0 (by omega)
  | [f] =>
    simp only [insideSeq, decide_eq_true_eq] at hi
    simpa [callSeq, hi.1] using go f.index hi.2.2
  | _ :: _ :: _ => simp [insideSeq] at hi

/-- One micro-step of a bit of a byte procedure, the lock being held. -/
theorem byteBit_spec {q : Proc} {n : Nat} (h1 : 1 < n) {micro : Nat → Nat → State → State}
    {i : Nat} (hi : i < 8)
    (hm : ∀ k, k < n → ∃ e, Act s (micro i k s) e ∧ e.isCodec = true ∧ Stays s (micro i k s)) {inner : List Frame}
    (hin : insideSeq q n inner = true) :
    ∃ t j fs e, byteBit q n micro i inner s = some (t, j, fs) ∧ Act s t e ∧ e.isCodec = true ∧ Stays s t ∧
      insideSeq q n fs = true ∧ (j = i ∧ fs ≠ [] ∨ j = i + 1 ∧ fs = []) := by
  obtain ⟨t, fs, e, hc, ha, he, hst, hfs⟩ := callSeq_spec h1 hm hin
  match fs with
  | [] => exact ⟨t, i + 1, [], e, by simp [byteBit, hi, hc], ha, he, hst, hfs, .inr ⟨Eq.refl _, Eq.refl _⟩⟩
  | f :: fs => exact ⟨t, i, f :: fs, e, by simp [byteBit, hi, hc], ha, he, hst, hfs, .inl ⟨Eq.refl _, by simp⟩⟩

/-- A byte request, the lock being held. -/
theorem byteRequest_proceeds (hl : s.Live) (hb : s.me.status = .busy) {p q : Proc} {n : Nat} {need : LockNeed}
    (h1 : 1 < n) (hg : byteNeed p q n s.me.pos = some need) (hn : needMet need s.lock s.cur = true)
    {micro : Nat → Nat → State → State} {answer : State → State}
    (hm : ∀ i k, i < 8 → k < n → ∃ e, Act s (micro i k s) e ∧ e.isCodec = true ∧ Stays s (micro i k s))
    (ha : ∃ r d, answer s = s.respond r d) (w : Word) (chk : State → Option FaultCause) :
    Proceeds (byteNeed p q n) s (request w p chk (byteRequest p q n micro answer) s) := by
  have key : ∀ (f : Frame) (inner : List Frame), s.me.pos = f :: inner → f.proc = p → f.index < 8 →
      insideSeq q n inner = true → s.lock = .held s.cur →
      Proceeds (byteNeed p q n) s (request w p chk (byteRequest p q n micro answer) s) := by
    intro f inner hp hf hi hin hlock
    obtain ⟨t, j, fs, e, hbit, hact, hc, hst, hfs, hj⟩ := byteBit_spec h1 hi (fun k hk => hm _ k hi hk) hin
    obtain ⟨hls, hlk⟩ := codec_admitted hact hc hlock
    rw [request_running hl hb hp hf, byteRequest, if_neg (by omega), hbit]
    refine ⟨_, Eq.refl _, .inr (setPos_advances hl.2 hb hact hst hls (n := .hold) ?_ (by simp [needMet, hlk]))⟩
    rcases hj with ⟨rfl, hne⟩ | ⟨rfl, rfl⟩
    · match fs with
      | [] => exact absurd (Eq.refl _) hne
      | g :: gs => simp [byteNeed, hi, hfs]
    · simp [byteNeed, Nat.succ_le_of_lt hi]
  match hp : s.me.pos with
  | [] => simp [hp, byteNeed] at hg
  | [f] =>
    rw [hp, byteNeed] at hg
    split at hg
    case isFalse => simp at hg
    case isTrue hf =>
      cases hg
      have hlock : s.lock = .held s.cur := by simpa [needMet] using hn
      by_cases hi : f.index < 8
      · exact key f [] hp hf.1 hi (Eq.refl _) hlock
      · have he : f.index = 8 := by omega
        obtain ⟨r, d, hrd⟩ := ha
        rw [request_running hl hb hp hf.1]
        exact ⟨_, by simp [byteRequest, he], .inr (hrd ▸ respond_advances _ hl.2 r d)⟩
  | f :: g :: inner =>
    rw [hp, byteNeed] at hg
    split at hg
    case isFalse => simp at hg
    case isTrue hf =>
      cases hg
      exact key f (g :: inner) hp hf.1 hf.2.1 hf.2.2 (by simpa [needMet] using hn)
    all_goals simp

/-- One micro-step of a called byte procedure, the lock being held. -/
theorem callByte_spec {p q : Proc} {n : Nat} (h1 : 1 < n)
    {micro : Nat → Nat → State → State}
    (hm : ∀ i k, i < 8 → k < n → ∃ e, Act s (micro i k s) e ∧ e.isCodec = true ∧ Stays s (micro i k s))
    {inner : List Frame} (hin : insideByte p q n inner = true) :
    ∃ t fs e, callByte p q n micro inner s = some (t, fs) ∧ Act s t e ∧ e.isCodec = true ∧ Stays s t ∧
      insideByte p q n fs = true := by
  have go : ∀ i rest, i < 8 → insideSeq q n rest = true → ∃ t fs e, callByteAt p q n micro i rest s = some (t, fs) ∧
      Act s t e ∧ e.isCodec = true ∧ Stays s t ∧ insideByte p q n fs = true := by
    intro i rest hi hrest
    obtain ⟨t, j, fs, e, hbit, hact, hc, hst, hfs, hj⟩ := byteBit_spec h1 hi (fun k hk => hm _ k hi hk) hrest
    rw [callByteAt, hbit]
    rcases hj with ⟨rfl, hne⟩ | ⟨rfl, rfl⟩
    · match fs with
      | [] => exact absurd (Eq.refl _) hne
      | g :: gs => exact ⟨t, _, e, if_neg (by omega), hact, hc, hst, by simp [insideByte, hi, hfs]⟩
    · by_cases h8 : i + 1 = 8
      · exact ⟨t, _, e, if_pos h8, hact, hc, hst, Eq.refl _⟩
      · refine ⟨t, _, e, if_neg h8, hact, hc, hst, ?_⟩
        simp only [insideByte, decide_eq_true_eq, true_and]
        omega
  match inner with
  | [] => exact go 0 [] (by omega) (Eq.refl _)
  | [f] =>
    simp only [insideByte, decide_eq_true_eq] at hin
    simpa [callByte, hin.1] using go f.index [] hin.2.2 (Eq.refl _)
  | f :: g :: inner =>
    simp only [insideByte, Bool.and_eq_true, decide_eq_true_eq] at hin
    simpa [callByte, hin.1.1] using go f.index (g :: inner) hin.1.2 hin.2

/-- ACQ and TRYACQ. -/
theorem acquireBody_proceeds (hl : s.Live) (hb : s.me.status = .busy) {p : Proc} {bounded : Bool} {need : LockNeed}
    (hg : acquireNeed p bounded s.me.pos = some need) (w : Word)
    (chk : State → Option FaultCause) :
    Proceeds (acquireNeed p bounded) s (request w p chk (acquireBody p bounded) s) := by
  match hp : s.me.pos with
  | [] => simp [hp, acquireNeed] at hg
  | _ :: _ :: _ => simp [hp, acquireNeed] at hg
  | [f] =>
    rw [hp, acquireNeed] at hg
    split at hg
    case isFalse => simp at hg
    case isTrue hf =>
      rw [request_running hl hb hp hf]
      unfold acquireBody
      match hk : f.index with
      | 0 =>
        rcases s.grab_cases bounded with ⟨hfree, hgot⟩ | ⟨d, hheld, hd, hbd, hlate⟩ | ⟨_, hwait⟩
        · simp only [hgot]
          refine ⟨_, Eq.refl _, .inr (setPos_advances (n := .hold) hl.2 hb s.acquire_act
            (Stays.of_ctx (Eq.refl _) (Eq.refl _)) (by simp [lockStep, hfree]) ?_ (by simp [needMet]))⟩
          simp [acquireNeed]
        · simp only [hlate]
          refine ⟨_, Eq.refl _, .inr (setPos_advances (n := .notHold) hl.2 hb s.timeOut_act
            (Stays.of_ctx (Eq.refl _) (Eq.refl _)) (by simp [lockStep, hheld, hd]) ?_ (by simp [needMet, hheld, hd]))⟩
          simp [acquireNeed, hbd]
        · simp only [hwait]
          exact ⟨_, Eq.refl _, .inl (Eq.refl _)⟩
      | 1 => exact ⟨_, Eq.refl _, .inr (respond_advances _ hl.2 _ _)⟩
      | 2 =>
        cases bounded with
        | true => exact ⟨_, Eq.refl _, .inr (respond_advances _ hl.2 _ _)⟩
        | false => simp [hk] at hg
      | _ + 3 => simp [hk] at hg

/-! ## SAMPLE -/

/-- Each phase list ends where the failure exits begin, and an item's successor asks of the lock what the item leaves. -/
theorem samplePlan_exits (hold : Bool) :
    (samplePlan hold)[presenceExit hold]? = some .release ∧ (samplePlan hold)[busyExit hold]? = some .respondBusBusy := by
  cases hold <;> decide

/-- What an item of SAMPLE leaves the lock as, before the next item. -/
def leavesNeed (hold : Bool) : SampleItem → LockNeed
  | .acquire | .presence | .command _ | .readLow | .readHigh => .hold
  | .release => .notHold
  | .sleep => if hold then .hold else .notHold
  | .respondRaw | .respondNoResponse | .respondBusBusy => .any

/-- After an item that does not answer stands an item that asks of the lock what the first leaves. -/
theorem samplePlan_next (hold : Bool) (j : Nat) (item : SampleItem) (h : (samplePlan hold)[j]? = some item)
    (hr : item ≠ .respondRaw ∧ item ≠ .respondNoResponse ∧ item ≠ .respondBusBusy) :
    ∃ next, (samplePlan hold)[j + 1]? = some next ∧ itemNeed hold next [] = some (leavesNeed hold item) := by
  have hj : j < (samplePlan hold).length := by
    by_contra hc
    rw [List.getElem?_eq_none (by omega)] at h
    cases h
  cases hold
  · have : j < 17 := hj
    interval_cases j <;> simp [samplePlan, samplePhases] at h ⊢ <;> subst h <;> simp_all [itemNeed, leavesNeed, insideSeq, insideByte]
  · have : j < 15 := hj
    interval_cases j <;> simp [samplePlan, samplePhases] at h ⊢ <;> subst h <;> simp_all [itemNeed, leavesNeed, insideSeq, insideByte]

/-- SAMPLE at an index, with the frames inside, is at a position asking `n`. -/
theorem sampleNeed_at {hold : Bool} {j : Nat} {item : SampleItem} {inner : List Frame} {n : LockNeed}
    (h : (samplePlan hold)[j]? = some item) (hn : itemNeed hold item inner = some n) :
    sampleNeed hold (⟨.sample, j⟩ :: inner) = some n := by
  simp [sampleNeed, h, hn]

/-- A call of a byte procedure by SAMPLE. -/
theorem sampleCall_proceeds (hl : s.Live) (hb : s.me.status = .busy) {j : Nat} {item : SampleItem}
    (hj : (samplePlan s.cfg.holdLock)[j]? = some item) {p q : Proc} {m : Nat}
    (hin : ∀ inner, insideByte p q m inner = true → itemNeed s.cfg.holdLock item inner = some .hold)
    (hr : item ≠ .respondRaw ∧ item ≠ .respondNoResponse ∧ item ≠ .respondBusBusy)
    (hleave : leavesNeed s.cfg.holdLock item = .hold) (hlock : s.lock = .held s.cur)
    {call : Option (State × List Frame)} {store : State → State}
    (hc : ∃ t fs e, call = some (t, fs) ∧ Act s t e ∧ e.isCodec = true ∧ Stays s t ∧ insideByte p q m fs = true)
    (hstore : ∀ t : State, t.cur < t.ctx.length → Quiet t (store t) ∧ Stays t (store t)) :
    Proceeds (sampleNeed s.cfg.holdLock) s (sampleCall call store j) := by
  obtain ⟨t, fs, e, hcall, hact, hcod, hst, hfs⟩ := hc
  obtain ⟨hls, hlk⟩ := codec_admitted hact hcod hlock
  have ht := hact.own.bound hl.2
  match fs with
  | [] =>
    obtain ⟨hq, hst'⟩ := hstore t ht
    obtain ⟨next, hnext, hneed⟩ := samplePlan_next _ _ _ hj hr
    refine ⟨_, by rw [hcall]; exact Eq.refl _, .inr ?_⟩
    refine setPos_advances hl.2 hb (hact.then_quiet hq) (hst.trans hst') (by rw [hq.lock]; exact hls)
      (sampleNeed_at hnext hneed) ?_
    simp [hleave, needMet, hq.lock, hlk]
  | f :: fs =>
    refine ⟨_, by rw [hcall]; exact Eq.refl _, .inr ?_⟩
    exact setPos_advances hl.2 hb hact hst hls (sampleNeed_at hj (hin _ hfs)) (by simp [needMet, hlk])

theorem storeLow_quiet (hs : s.cur < s.ctx.length) : Quiet s s.storeLow ∧ Stays s s.storeLow :=
  ⟨s.mapMe_quiet hs _ (Eq.refl _) id, s.mapMe_stays hs _ (Eq.refl _) (Eq.refl _) (Eq.refl _) (Eq.refl _)⟩

theorem storeHigh_quiet (hs : s.cur < s.ctx.length) : Quiet s s.storeHigh ∧ Stays s s.storeHigh :=
  ⟨s.mapMe_quiet hs _ (Eq.refl _) id, s.mapMe_stays hs _ (Eq.refl _) (Eq.refl _) (Eq.refl _) (Eq.refl _)⟩

theorem callWbyte_spec (hs : s.cur < s.ctx.length) (b : Byte) {inner : List Frame}
    (h : insideByte .wbyte .wbit 8 inner = true) :
    ∃ t fs e, callWbyte b inner s = some (t, fs) ∧ Act s t e ∧ e.isCodec = true ∧ Stays s t ∧
      insideByte .wbyte .wbit 8 fs = true :=
  callByte_spec (by omega) (fun _ _ hi hk => wbyteMicro_act s hs hi hk) h

theorem callRbyte_spec (hs : s.cur < s.ctx.length) {inner : List Frame} (h : insideByte .rbyte .rbit 6 inner = true) :
    ∃ t fs e, callRbyte inner s = some (t, fs) ∧ Act s t e ∧ e.isCodec = true ∧ Stays s t ∧
      insideByte .rbyte .rbit 6 fs = true :=
  callByte_spec (by omega) (fun _ _ hi hk => rbyteMicro_act s hs hi hk) h

/-- The RSTPD of SAMPLE. -/
theorem samplePresence_proceeds (hl : s.Live) (hb : s.me.status = .busy) {j : Nat}
    (hj : (samplePlan s.cfg.holdLock)[j]? = some .presence) {inner : List Frame}
    (hin : insideSeq .rstpd 8 inner = true) (hlock : s.lock = .held s.cur) :
    Proceeds (sampleNeed s.cfg.holdLock) s (samplePresence j inner s) := by
  obtain ⟨t, fs, e, hcall, hact, hcod, hst, hfs⟩ :=
    callSeq_spec (p := .rstpd) (n := 8) (by omega) (fun k hk => rstpdMicro_act s hl.2 hk) hin
  obtain ⟨hls, hlk⟩ := codec_admitted hact hcod hlock
  match fs with
  | [] =>
    by_cases hp : t.me.present = 1
    · obtain ⟨next, hnext, hneed⟩ := samplePlan_next _ _ _ hj (by simp)
      refine ⟨_, by rw [samplePresence, hcall]; exact if_pos hp, .inr ?_⟩
      exact setPos_advances hl.2 hb hact hst hls (sampleNeed_at hnext hneed) (by simp [leavesNeed, needMet, hlk])
    · refine ⟨_, by rw [samplePresence, hcall]; exact if_neg hp, .inr ?_⟩
      exact setPos_advances hl.2 hb hact hst hls (n := .hold)
        (sampleNeed_at (samplePlan_exits _).1 (by simp [itemNeed])) (by simp [needMet, hlk])
  | f :: fs =>
    refine ⟨_, by rw [samplePresence, hcall]; exact Eq.refl _, .inr ?_⟩
    exact setPos_advances hl.2 hb hact hst hls (n := .hold) (sampleNeed_at hj (by simp [itemNeed, hfs]))
      (by simp [needMet, hlk])

/-- An acquisition of SAMPLE. -/
theorem sampleAcquire_proceeds (hl : s.Live) (hb : s.me.status = .busy) {j : Nat}
    (hj : (samplePlan s.cfg.holdLock)[j]? = some .acquire) :
    Proceeds (sampleNeed s.cfg.holdLock) s (sampleAcquire j s) := by
  unfold sampleAcquire
  rcases s.grab_cases s.cfg.acquireBound.isSome with ⟨hfree, hgot⟩ | ⟨d, hheld, hd, _, hlate⟩ | ⟨_, hwait⟩
  · obtain ⟨next, hnext, hneed⟩ := samplePlan_next _ _ _ hj (by simp)
    rw [hgot]
    exact ⟨_, Eq.refl _, .inr (setPos_advances hl.2 hb s.acquire_act (Stays.of_ctx (Eq.refl _) (Eq.refl _))
      (by simp [lockStep, hfree]) (sampleNeed_at hnext hneed) (by simp [leavesNeed, needMet]))⟩
  · rw [hlate]
    exact ⟨_, Eq.refl _, .inr (setPos_advances hl.2 hb s.timeOut_act (Stays.of_ctx (Eq.refl _) (Eq.refl _))
      (by simp [lockStep, hheld, hd]) (n := .notHold) (sampleNeed_at (samplePlan_exits _).2 (by simp [itemNeed]))
      (by simp [needMet, hheld, hd]))⟩
  · rw [hwait]
    exact ⟨_, Eq.refl _, .inl (Eq.refl _)⟩

/-- SAMPLE. -/
theorem sample_proceeds (hl : s.Live) (hb : s.me.status = .busy) {need : LockNeed}
    (hg : sampleNeed s.cfg.holdLock s.me.pos = some need) (hn : needMet need s.lock s.cur = true) (w : Word)
    (chk : State → Option FaultCause) :
    Proceeds (sampleNeed s.cfg.holdLock) s (request w .sample chk sampleBody s) := by
  match hp : s.me.pos with
  | [] => simp [hp, sampleNeed] at hg
  | f :: inner =>
    rw [hp, sampleNeed] at hg
    split at hg
    case isFalse => simp at hg
    case isTrue hf =>
      rw [request_running hl hb hp hf, sampleBody]
      match hj : (samplePlan s.cfg.holdLock)[f.index]? with
      | none => simp [hj] at hg
      | some item =>
        simp only [hj] at hg ⊢
        have held : need = .hold → s.lock = .held s.cur := by
          rintro rfl; simpa [needMet] using hn
        cases item with
        | acquire =>
          simp only [itemNeed] at hg
          split at hg <;> simp at hg
          next h => subst h; exact sampleAcquire_proceeds hl hb hj
        | presence =>
          simp only [itemNeed] at hg
          split at hg <;> simp at hg
          next h => exact samplePresence_proceeds hl hb hj h (held hg.symm)
        | command c =>
          simp only [itemNeed] at hg
          split at hg <;> simp at hg
          next h =>
            exact sampleCall_proceeds hl hb hj (p := .wbyte) (q := .wbit) (m := 8) (fun _ h => by simp [itemNeed, h])
              (by simp) (by simp [leavesNeed]) (held hg.symm) (callWbyte_spec hl.2 _ h)
              fun t _ => ⟨Quiet.rfl t, Stays.rfl t⟩
        | readLow =>
          simp only [itemNeed] at hg
          split at hg <;> simp at hg
          next h =>
            exact sampleCall_proceeds hl hb hj (p := .rbyte) (q := .rbit) (m := 6) (fun _ h => by simp [itemNeed, h])
              (by simp) (by simp [leavesNeed]) (held hg.symm) (callRbyte_spec hl.2 h) fun t ht => storeLow_quiet ht
        | readHigh =>
          simp only [itemNeed] at hg
          split at hg <;> simp at hg
          next h =>
            exact sampleCall_proceeds hl hb hj (p := .rbyte) (q := .rbit) (m := 6) (fun _ h => by simp [itemNeed, h])
              (by simp) (by simp [leavesNeed]) (held hg.symm) (callRbyte_spec hl.2 h) fun t ht => storeHigh_quiet ht
        | release =>
          simp only [itemNeed] at hg
          split at hg <;> simp at hg
          next h =>
            subst h
            obtain ⟨next, hnext, hneed⟩ := samplePlan_next _ _ _ hj (by simp)
            exact ⟨_, Eq.refl _, .inr (setPos_advances hl.2 hb s.release_act (Stays.of_ctx (Eq.refl _) (Eq.refl _))
              (by simp [lockStep, held hg.symm]) (sampleNeed_at hnext hneed) (by simp [leavesNeed, needMet]))⟩
        | sleep =>
          simp only [itemNeed] at hg
          split at hg <;> simp at hg
          next h =>
            subst h
            obtain ⟨next, hnext, hneed⟩ := samplePlan_next _ _ _ hj (by simp)
            exact ⟨_, Eq.refl _, .inr (setPos_advances hl.2 hb (s.sleepMs_act _) (Stays.of_ctx (Eq.refl _) (Eq.refl _))
              (by simp [lockStep]) (sampleNeed_at hnext hneed) (by simpa [leavesNeed, hg] using hn))⟩
        | respondRaw | respondNoResponse | respondBusBusy =>
          simp only [itemNeed] at hg
          split at hg <;> simp at hg
          next h => subst h; exact ⟨_, Eq.refl _, .inr (respond_advances _ hl.2 _ _)⟩

/-! ## Every request -/

/-- A one-step request that is a line micro-step of the holder. -/
theorem line_micro (hl : s.Live) (m : Micro) (hn : needMet .hold s.lock s.cur = true) :
    ∃ e, Act s (s.micro m) e ∧ Stays s (s.micro m) ∧ lockStep (some s.lock) e = some (s.micro m).lock ∧
      needMet .hold (s.micro m).lock s.cur = true := by
  obtain ⟨e, ha, he, hst⟩ := s.micro_act hl.2 m
  obtain ⟨h1, h2⟩ := codec_admitted ha he (by simpa [needMet] using hn)
  exact ⟨e, ha, hst, h1, by simp [needMet, h2]⟩

/-- A micro-step of the codec by the holder. -/
theorem codec_micro {t : State} (h : ∃ e, Act s t e ∧ e.isCodec = true ∧ Stays s t)
    (hn : needMet .hold s.lock s.cur = true) :
    ∃ e, Act s t e ∧ Stays s t ∧ lockStep (some s.lock) e = some t.lock ∧ needMet .hold t.lock s.cur = true := by
  obtain ⟨e, ha, he, hst⟩ := h
  obtain ⟨h1, h2⟩ := codec_admitted ha he (by simpa [needMet] using hn)
  exact ⟨e, ha, hst, h1, by simp [needMet, h2]⟩

/-- EVERY STEP OF A RUNNING REQUEST proceeds, if the caller stands at a position of it and the lock is as that asks. -/
theorem exec_proceeds (hl : s.Live) (hb : s.me.status = .busy) (i : Instr) {need : LockNeed}
    (hg : positionNeed s.cfg i s.me.pos = some need) (hn : needMet need s.lock s.cur = true) :
    Proceeds (positionNeed s.cfg i) s (exec i s) := by
  cases i with
  | lsetout l =>
    exact sequence_proceeds hl hb hg hn (fun k hk h => by simp only [ite_self]; exact line_micro hl (.setOut l) h) ⟨_, _, Eq.refl _⟩ _ _
  | lwrite l =>
    exact sequence_proceeds hl hb hg hn (fun k hk h => by simp only [ite_self]; exact line_micro hl (.writeLvl l) h) ⟨_, _, Eq.refl _⟩ _ _
  | lsetin =>
    exact sequence_proceeds hl hb hg hn (fun k hk h => by simp only [ite_self]; exact line_micro hl .setIn h) ⟨_, _, Eq.refl _⟩ _ _
  | lread =>
    exact sequence_proceeds hl hb hg hn (fun k hk h => by simp only [ite_self]; exact line_micro hl .sample h) ⟨_, _, Eq.refl _⟩ _ _
  | delayus n =>
    refine sequence_proceeds hl hb hg hn (fun k hk h => ?_) ⟨_, _, Eq.refl _⟩ _ _
    exact ⟨.delayUs s.cur n, ⟨Own.of_ctx (Eq.refl _) (Eq.refl _) (Eq.refl _), Eq.refl _, Eq.refl _, Eq.refl _, Eq.refl _,
      Eq.refl _, Eq.refl _, Eq.refl _⟩, Stays.of_ctx (Eq.refl _) (Eq.refl _), by simp [lockStep], by simp [needMet]⟩
  | sleepms n =>
    refine sequence_proceeds hl hb hg hn (fun k hk h => ?_) ⟨_, _, Eq.refl _⟩ _ _
    exact ⟨_, s.sleepMs_act n, Stays.of_ctx (Eq.refl _) (Eq.refl _), by simp [lockStep], by simp [needMet]⟩
  | rstpd =>
    exact sequence_proceeds hl hb hg hn (fun k hk h => by simp only [ite_self]; exact codec_micro (rstpdMicro_act s hl.2 hk) h)
      ⟨_, _, Eq.refl _⟩ _ _
  | wbit v =>
    exact sequence_proceeds hl hb hg hn (fun k hk h => by simp only [ite_self]; exact codec_micro (wbitMicro_act s hl.2 hk) h)
      ⟨_, _, Eq.refl _⟩ _ _
  | rbit =>
    exact sequence_proceeds hl hb hg hn
      (fun k hk h => by
        simp only [ite_self]
        exact codec_micro (rbitMicro_act s hl.2 hk fun t _ => ⟨Quiet.rfl t, Stays.rfl t⟩) h)
      ⟨_, _, Eq.refl _⟩ _ _
  | wbyte b =>
    exact byteRequest_proceeds hl hb (by omega) hg hn (fun i k hi hk => wbyteMicro_act s hl.2 hi hk) ⟨_, _, Eq.refl _⟩ _ _
  | rbyte =>
    exact byteRequest_proceeds hl hb (by omega) hg hn (fun i k hi hk => rbyteMicro_act s hl.2 hi hk) ⟨_, _, Eq.refl _⟩ _ _
  | acq => exact acquireBody_proceeds hl hb hg _ _
  | tryacq b => exact acquireBody_proceeds hl hb hg _ _
  | rel =>
    refine sequence_proceeds hl hb hg hn (fun k hk h => ?_) ⟨_, _, Eq.refl _⟩ _ _
    have hh : s.lock = .held s.cur := by simpa [needMet] using h
    have : ¬ k + 1 < 1 := by omega
    exact ⟨_, s.release_act, Stays.of_ctx (Eq.refl _) (Eq.refl _), by simp [lockStep, hh], by simp [needMet, this]⟩
  | sample => exact sample_proceeds hl hb hg hn _ _
  | decode r => exact sequence_proceeds hl hb hg hn (fun k hk => absurd hk (by omega)) ⟨_, _, Eq.refl _⟩ _ _
  | cmdSkipRom | cmdConvertT | cmdReadScratchpad => simp [positionNeed] at hg

end Sys2Proof.Machine
end

