-- ==== Sys2Proof/Laws/Requests.lean ====
section
/-! SUPPORT. What each shared operation answers, in every state: one lemma for each shape of request, with no condition on
the lock or the position. And runs of one request end to end. -/

namespace Sys2Proof.Machine

variable {s t : State}

/-! ## Runs -/

theorem execTimes_zero (i : Instr) (s : State) : execTimes i 0 s = .next s := rfl

/-- One step, then the rest. -/
theorem execTimes_succ (i : Instr) (n : Nat) (h : exec i s = .next t) : execTimes i (n + 1) s = execTimes i n t := by
  simp [execTimes, h]

/-- Two runs end to end. -/
theorem execTimes_add (i : Instr) (m n : Nat) (h : execTimes i m s = .next t) :
    execTimes i (m + n) s = execTimes i n t := by
  induction m generalizing s with
  | zero => cases h; simp
  | succ m ih =>
    rw [show m + 1 + n = (m + n) + 1 by omega]
    cases he : exec i s with
    | next u => rw [execTimes_succ i m he] at h; rw [execTimes_succ i _ he, ih h]
    | fault f => simp [execTimes, he] at h
    | refused r => simp [execTimes, he] at h

/-! ## The start step and the answer -/

theorem live_iff : s.Live ↔ s.faulted = false ∧ ¬ s.ctx.length ≤ s.cur := by
  simp [State.Live, State.faulted]

/-- A request that answers a next state started, or took a step of its body at its own frame. -/
theorem request_next {w : Word} {p : Proc} {check : State → Option FaultCause} {body : Nat → List Frame → State → Out}
    (h : request w p check body s = .next t) :
    s.Live ∧ ((s.me.status = .idle ∧ t = s.start w p (check s)) ∨
      (s.me.status = .busy ∧ ∃ f inner, s.me.pos = f :: inner ∧ f.proc = p ∧ body f.index inner s = .next t)) := by
  unfold request at h
  split at h
  · cases h
  next hf =>
  split at h
  · cases h
  next hc =>
  refine ⟨live_iff.mpr ⟨by simpa using hf, hc⟩, ?_⟩
  split at h
  next hs => cases h; exact .inl ⟨hs, rfl⟩
  next hs =>
    split at h
    next f inner hp =>
      split at h
      next hfp => exact .inr ⟨hs, f, inner, hp, hfp, h⟩
      · cases h
    · cases h

/-- A request by an IDLE caller starts. -/
theorem request_idle (hl : s.AtRest) (w : Word) (p : Proc) (check : State → Option FaultCause)
    (body : Nat → List Frame → State → Out) : request w p check body s = .next (s.start w p (check s)) := by
  have h := live_iff.mp hl.1
  simp [request, h.1, h.2, hl.2]

/-- What the start step leaves, with its check met or not. -/
theorem start_eq (s : State) (w : Word) (p : Proc) (cause : Option FaultCause) :
    s.start w p cause = match cause with
      | some f => s.begunFault w p f
      | none => s.begun w p := by
  cases cause <;> rfl

/-- What the respond micro-step leaves (60_exceptions.md R250), at the caller's own request word. -/
theorem respond_eq (s : State) (r : ResultCode) (d : BitVec 17) :
    s.respond r d = { s with
      trace := s.trace ++ [.respond s.cur (responseWord r d)]
      ctx := s.ctx.modify s.cur fun x =>
        { x with status := .idle, pos := [], resp := some (responseWord r d), ready := true } } := rfl

/-! ## Sequences and calls -/

/-- A sequence takes its next micro-step, or answers. -/
theorem sequence_next {p : Proc} {n : Nat} {micro : Nat → State → State} {answer : State → State} {k : Nat}
    {inner : List Frame} (h : sequence p n micro answer k inner s = .next t) :
    inner = [] ∧ ((k < n ∧ t = (micro k s).setPos [⟨p, k + 1⟩]) ∨ (k = n ∧ t = answer s)) := by
  unfold sequence at h
  split at h
  next hi =>
    split at h
    next hk => cases h; exact ⟨rfl, .inl ⟨hk, rfl⟩⟩
    next hk =>
      split at h
      next hn => cases h; exact ⟨rfl, .inr ⟨hn, rfl⟩⟩
      · cases h
  · cases h

/-- A called procedure takes one of its micro-steps. -/
theorem callSeqAt_some {p : Proc} {n : Nat} {micro : Nat → State → State} {k : Nat} {r : State × List Frame}
    (h : callSeqAt p n micro k s = some r) : k < n ∧ r.1 = micro k s := by
  unfold callSeqAt at h
  split at h
  next hk => cases h; exact ⟨by omega, rfl⟩
  next hk =>
    split at h
    next hn => cases h; exact ⟨by omega, rfl⟩
    · cases h

theorem callSeq_some {p : Proc} {n : Nat} {micro : Nat → State → State} {inner : List Frame} {r : State × List Frame}
    (h : callSeq p n micro inner s = some r) : ∃ k, k < n ∧ r.1 = micro k s := by
  unfold callSeq at h
  split at h
  · exact ⟨0, callSeqAt_some h⟩
  · split at h
    · exact ⟨_, callSeqAt_some h⟩
    · cases h
  · cases h

/-- A byte procedure takes a micro-step of one of its bits. -/
theorem byteBit_some {q : Proc} {n : Nat} {micro : Nat → Nat → State → State} {i : Nat} {inner : List Frame}
    {r : State × Nat × List Frame} (h : byteBit q n micro i inner s = some r) :
    i < 8 ∧ ∃ k, k < n ∧ r.1 = micro i k s := by
  unfold byteBit at h
  split at h
  next hi =>
    refine ⟨hi, ?_⟩
    split at h
    next hc => cases h; exact callSeq_some hc
    next hc => cases h; exact callSeq_some hc
    · cases h
  · cases h

theorem byteRequest_next {p q : Proc} {n : Nat} {micro : Nat → Nat → State → State} {answer : State → State} {i : Nat}
    {inner : List Frame} (h : byteRequest p q n micro answer i inner s = .next t) :
    t = answer s ∨ ∃ k pos, i < 8 ∧ k < n ∧ t = (micro i k s).setPos pos := by
  unfold byteRequest at h
  split at h
  · cases h; exact .inl rfl
  · split at h
    next hb =>
      cases h
      obtain ⟨hi, k, hk, he⟩ := byteBit_some hb
      exact .inr ⟨k, _, hi, hk, by rw [← he]⟩
    · cases h

theorem callByteAt_some {p q : Proc} {n : Nat} {micro : Nat → Nat → State → State} {i : Nat} {rest : List Frame}
    {r : State × List Frame} (h : callByteAt p q n micro i rest s = some r) :
    ∃ i k, i < 8 ∧ k < n ∧ r.1 = micro i k s := by
  unfold callByteAt at h
  split at h
  next hb =>
    obtain ⟨hi, k, hk, he⟩ := byteBit_some hb
    refine ⟨_, k, hi, hk, ?_⟩
    split at h <;> cases h <;> exact he
  · cases h

theorem callByte_some {p q : Proc} {n : Nat} {micro : Nat → Nat → State → State} {inner : List Frame}
    {r : State × List Frame} (h : callByte p q n micro inner s = some r) :
    ∃ i k, i < 8 ∧ k < n ∧ r.1 = micro i k s := by
  unfold callByte at h
  split at h
  · exact callByteAt_some h
  · split at h
    · exact callByteAt_some h
    · cases h

/-- ACQ and TRYACQ acquire, time out, wait or answer. -/
theorem acquireBody_next {p : Proc} {bounded : Bool} {k : Nat} {inner : List Frame}
    (h : acquireBody p bounded k inner s = .next t) :
    (s.lock = .free ∧ t = s.acquire.setPos [⟨p, 1⟩])
      ∨ ((∃ d, s.lock = .held d ∧ d ≠ s.cur) ∧ bounded = true ∧ t = s.timeOut.setPos [⟨p, 2⟩])
      ∨ t = s ∨ t = s.respond .ok 0 ∨ t = s.respond .busBusy 0 := by
  unfold acquireBody at h
  split at h
  · cases h
  · split at h
    · rcases s.grab_cases bounded with ⟨hf, hg⟩ | ⟨d, hd, hne, hb, hg⟩ | ⟨_, hg⟩ <;> rw [hg] at h <;> cases h
      · exact .inl ⟨hf, rfl⟩
      · exact .inr (.inl ⟨⟨d, hd, hne⟩, hb, rfl⟩)
      · exact .inr (.inr (.inl rfl))
    · cases h; exact .inr (.inr (.inr (.inl rfl)))
    · split at h
      · cases h; exact .inr (.inr (.inr (.inr rfl)))
      · cases h
    · cases h

/-! ## SAMPLE -/

/-- One step of SAMPLE's body, in every state: a micro-step of RSTPD, WBYTE or RBYTE with what SAMPLE stores, one of its own,
a wait or an answer. -/
theorem sampleBody_next {j : Nat} {inner : List Frame} (h : sampleBody j inner s = .next t) :
    (∃ k pos, k < 8 ∧ t = (rstpdMicro k s).setPos pos)
      ∨ (∃ b i k pos, i < 8 ∧ k < 8 ∧ t = (wbyteMicro b i k s).setPos pos)
      ∨ (∃ i k pos, i < 8 ∧ k < 6 ∧ (t = (rbyteMicro i k s).setPos pos
          ∨ t = (rbyteMicro i k s).storeLow.setPos pos ∨ t = (rbyteMicro i k s).storeHigh.setPos pos))
      ∨ (∃ pos, s.lock = .free ∧ t = s.acquire.setPos pos)
      ∨ (∃ pos, (∃ d, s.lock = .held d ∧ d ≠ s.cur) ∧ t = s.timeOut.setPos pos)
      ∨ (∃ pos, t = s.release.setPos pos) ∨ (∃ n pos, t = (s.sleepMs n).setPos pos)
      ∨ t = s ∨ ∃ r d, t = s.respond r d := by
  have call : ∀ {c : Option (State × List Frame)} {store : State → State}, sampleCall c store j = .next t →
      ∃ u fs pos, c = some (u, fs) ∧ (t = u.setPos pos ∨ t = (store u).setPos pos) := by
    intro c store h
    unfold sampleCall at h
    split at h
    · cases h; exact ⟨_, _, _, rfl, .inr rfl⟩
    · cases h; exact ⟨_, _, _, rfl, .inl rfl⟩
    · cases h
  unfold sampleBody at h
  split at h
  case h_2 => cases h
  next item _ =>
  unfold sampleItem at h
  split at h
  · refine .inl ?_
    unfold samplePresence at h
    split at h
    · next hc =>
      obtain ⟨k, hk, he⟩ := callSeq_some hc
      split at h <;> cases h <;> exact ⟨k, _, hk, by rw [← he]⟩
    · next hc =>
      obtain ⟨k, hk, he⟩ := callSeq_some hc
      cases h
      exact ⟨k, _, hk, by rw [← he]⟩
    · cases h
  · obtain ⟨u, fs, pos, hc, ht⟩ := call h
    obtain ⟨i, k, hi, hk, he⟩ := callByte_some hc
    exact .inr (.inl ⟨_, i, k, pos, hi, hk, by rw [← he]; simpa using ht⟩)
  · obtain ⟨u, fs, pos, hc, ht⟩ := call h
    obtain ⟨i, k, hi, hk, he⟩ := callByte_some hc
    exact .inr (.inr (.inl ⟨i, k, pos, hi, hk, by rw [← he]; exact ht.imp_right .inl⟩))
  · obtain ⟨u, fs, pos, hc, ht⟩ := call h
    obtain ⟨i, k, hi, hk, he⟩ := callByte_some hc
    exact .inr (.inr (.inl ⟨i, k, pos, hi, hk, by rw [← he]; exact ht.imp_right .inr⟩))
  · unfold sampleAcquire at h
    rcases s.grab_cases s.cfg.acquireBound.isSome with ⟨hf, hg⟩ | ⟨d, hd, hne, _, hg⟩ | ⟨_, hg⟩ <;>
      rw [hg] at h <;> cases h
    · exact .inr (.inr (.inr (.inl ⟨_, hf, rfl⟩)))
    · exact .inr (.inr (.inr (.inr (.inl ⟨_, ⟨d, hd, hne⟩, rfl⟩))))
    · exact .inr (.inr (.inr (.inr (.inr (.inr (.inr (.inl rfl)))))))
  · cases h; exact .inr (.inr (.inr (.inr (.inr (.inl ⟨_, rfl⟩)))))
  · cases h; exact .inr (.inr (.inr (.inr (.inr (.inr (.inl ⟨_, _, rfl⟩))))))
  · cases h; exact .inr (.inr (.inr (.inr (.inr (.inr (.inr (.inr ⟨_, _, rfl⟩)))))))
  · cases h; exact .inr (.inr (.inr (.inr (.inr (.inr (.inr (.inr ⟨_, _, rfl⟩)))))))
  · cases h; exact .inr (.inr (.inr (.inr (.inr (.inr (.inr (.inr ⟨_, _, rfl⟩)))))))
  all_goals cases h

/-! ## Every instruction -/

/-- A micro-step and the position after it. -/
theorem Act.setPos {u : State} {e : Event} (h : Act s u e) (hs : s.cur < s.ctx.length) (pos : List Frame) :
    Act s (u.setPos pos) e := h.then_quiet (u.setPos_quiet (h.own.bound hs) pos)

/-- A step of a running sequence is one event. -/
theorem sequence_act {p : Proc} {n : Nat} {micro : Nat → State → State} {r : State → ResultCode}
    {d : State → BitVec 17} {k : Nat} {inner : List Frame} (hs : s.cur < s.ctx.length)
    (hm : k < n → ∃ e, Act s (micro k s) e)
    (h : sequence p n micro (fun u => u.respond (r u) (d u)) k inner s = .next t) : ∃ e, Act s t e := by
  obtain ⟨_, ⟨hk, rfl⟩ | ⟨_, rfl⟩⟩ := sequence_next h
  · obtain ⟨e, he⟩ := hm hk
    exact ⟨e, he.setPos hs _⟩
  · exact ⟨_, s.respond_act hs _ _⟩

/-- A step of a running byte request is one event. -/
theorem byteRequest_act {p q : Proc} {n : Nat} {micro : Nat → Nat → State → State} {r : State → ResultCode}
    {d : State → BitVec 17} {i : Nat} {inner : List Frame} (hs : s.cur < s.ctx.length)
    (hm : ∀ i k, i < 8 → k < n → ∃ e, Act s (micro i k s) e)
    (h : byteRequest p q n micro (fun u => u.respond (r u) (d u)) i inner s = .next t) : ∃ e, Act s t e := by
  obtain rfl | ⟨k, pos, hi, hk, rfl⟩ := byteRequest_next h
  · exact ⟨_, s.respond_act hs _ _⟩
  · obtain ⟨e, he⟩ := hm i k hi hk
    exact ⟨e, he.setPos hs _⟩

/-- A step of a running acquisition is one event or a wait. -/
theorem acquireBody_act {p : Proc} {bounded : Bool} {k : Nat} {inner : List Frame} (hs : s.cur < s.ctx.length)
    (h : acquireBody p bounded k inner s = .next t) : t = s ∨ ∃ e, Act s t e := by
  obtain ⟨_, rfl⟩ | ⟨_, _, rfl⟩ | rfl | rfl | rfl := acquireBody_next h
  · exact .inr ⟨_, s.acquire_act.setPos hs _⟩
  · exact .inr ⟨_, s.timeOut_act.setPos hs _⟩
  · exact .inl rfl
  · exact .inr ⟨_, s.respond_act hs _ _⟩
  · exact .inr ⟨_, s.respond_act hs _ _⟩

/-- A step of a running SAMPLE is one event or a wait. -/
theorem sampleBody_act {j : Nat} {inner : List Frame} (hs : s.cur < s.ctx.length)
    (h : sampleBody j inner s = .next t) : t = s ∨ ∃ e, Act s t e := by
  obtain ⟨k, pos, hk, rfl⟩ | ⟨b, i, k, pos, hi, hk, rfl⟩ | ⟨i, k, pos, hi, hk, ht⟩ | ⟨pos, _, rfl⟩ | ⟨pos, _, rfl⟩
    | ⟨pos, rfl⟩ | ⟨n, pos, rfl⟩ | rfl | ⟨r, d, rfl⟩ := sampleBody_next h
  · obtain ⟨e, he, -, -⟩ := rstpdMicro_act s hs hk
    exact .inr ⟨e, he.setPos hs _⟩
  · obtain ⟨e, he, -, -⟩ := wbyteMicro_act s hs (b := b) hi hk
    exact .inr ⟨e, he.setPos hs _⟩
  · obtain ⟨e, he, -, -⟩ := rbyteMicro_act s hs hi hk
    have hu := he.own.bound hs
    obtain rfl | rfl | rfl := ht
    · exact .inr ⟨e, he.setPos hs _⟩
    · exact .inr ⟨e, (he.then_quiet (State.mapMe_quiet _ hu _ rfl id)).setPos hs _⟩
    · exact .inr ⟨e, (he.then_quiet (State.mapMe_quiet _ hu _ rfl id)).setPos hs _⟩
  · exact .inr ⟨_, s.acquire_act.setPos hs _⟩
  · exact .inr ⟨_, s.timeOut_act.setPos hs _⟩
  · exact .inr ⟨_, s.release_act.setPos hs _⟩
  · exact .inr ⟨_, (s.sleepMs_act n).setPos hs _⟩
  · exact .inl rfl
  · exact .inr ⟨_, s.respond_act hs r d⟩

/-- The body a running request steps through. -/
theorem request_busy {w : Word} {p : Proc} {check : State → Option FaultCause} {body : Nat → List Frame → State → Out}
    (hb : s.me.status = .busy) (h : request w p check body s = .next t) :
    s.cur < s.ctx.length ∧ ∃ k inner, body k inner s = .next t := by
  obtain ⟨hl, ⟨hi, _⟩ | ⟨_, f, inner, _, _, h⟩⟩ := request_next h
  · rw [hb] at hi; cases hi
  · exact ⟨hl.2, _, _, h⟩

/-- EVERY STEP OF A RUNNING INSTRUCTION, in every state, is one event of the stepping caller and what that makes of the
shared state, or a wait that changes nothing. -/
theorem exec_act (i : Instr) (hb : s.me.status = .busy) (h : exec i s = .next t) : t = s ∨ ∃ e, Act s t e := by
  have micro : ∀ m : Micro, s.cur < s.ctx.length → ∃ e, Act s (s.micro m) e := fun m hs =>
    let ⟨e, he, _⟩ := s.micro_act hs m
    ⟨e, he⟩
  have write : ∀ b, writeByte b s = .next t → t = s ∨ ∃ e, Act s t e := by
    intro b h
    obtain ⟨hs, k, inner, h⟩ := request_busy hb h
    exact .inr (byteRequest_act hs (fun i k hi hk => let ⟨e, he, _⟩ := wbyteMicro_act s hs hi hk; ⟨e, he⟩) h)
  have sample : execSample s = .next t → t = s ∨ ∃ e, Act s t e := by
    intro h
    obtain ⟨hs, k, inner, h⟩ := request_busy hb h
    exact sampleBody_act hs h
  have send : ∀ c, sendCommand c s = .next t → t = s ∨ ∃ e, Act s t e := by
    intro c h
    unfold sendCommand at h
    split at h
    · exact sample h
    · exact write _ h
  cases i with
  | wbyte b => exact write b h
  | sample => exact sample h
  | cmdSkipRom => exact send _ h
  | cmdConvertT => exact send _ h
  | cmdReadScratchpad => exact send _ h
  | acq => obtain ⟨hs, k, inner, h⟩ := request_busy hb h; exact acquireBody_act hs h
  | tryacq b => obtain ⟨hs, k, inner, h⟩ := request_busy hb h; exact acquireBody_act hs h
  | lsetout l =>
    obtain ⟨hs, k, inner, h⟩ := request_busy hb h
    exact .inr (sequence_act hs (fun _ => micro (.setOut l) hs) h)
  | lwrite l =>
    obtain ⟨hs, k, inner, h⟩ := request_busy hb h
    exact .inr (sequence_act hs (fun _ => micro (.writeLvl l) hs) h)
  | lsetin => obtain ⟨hs, k, inner, h⟩ := request_busy hb h; exact .inr (sequence_act hs (fun _ => micro .setIn hs) h)
  | lread => obtain ⟨hs, k, inner, h⟩ := request_busy hb h; exact .inr (sequence_act hs (fun _ => micro .sample hs) h)
  | delayus n =>
    obtain ⟨hs, k, inner, h⟩ := request_busy hb h
    exact .inr (sequence_act hs (fun _ => micro (.delayUs n) hs) h)
  | sleepms n =>
    obtain ⟨hs, k, inner, h⟩ := request_busy hb h
    exact .inr (sequence_act hs (fun _ => ⟨_, s.sleepMs_act n⟩) h)
  | rstpd =>
    obtain ⟨hs, k, inner, h⟩ := request_busy hb h
    exact .inr (sequence_act hs (fun hk => let ⟨e, he, _⟩ := rstpdMicro_act s hs hk; ⟨e, he⟩) h)
  | wbit v =>
    obtain ⟨hs, k, inner, h⟩ := request_busy hb h
    exact .inr (sequence_act hs (fun hk => let ⟨e, he, _⟩ := wbitMicro_act s hs hk; ⟨e, he⟩) h)
  | rbit =>
    obtain ⟨hs, k, inner, h⟩ := request_busy hb h
    exact .inr (sequence_act hs
      (fun hk => let ⟨e, he, _⟩ := rbitMicro_act s hs hk fun u _ => ⟨Quiet.rfl u, Stays.rfl u⟩; ⟨e, he⟩) h)
  | rbyte =>
    obtain ⟨hs, k, inner, h⟩ := request_busy hb h
    exact .inr (byteRequest_act hs (fun i k hi hk => let ⟨e, he, _⟩ := rbyteMicro_act s hs hi hk; ⟨e, he⟩) h)
  | rel =>
    obtain ⟨hs, k, inner, h⟩ := request_busy hb h
    exact .inr (sequence_act hs (fun _ => ⟨_, s.release_act⟩) h)
  | decode r =>
    obtain ⟨hs, k, inner, h⟩ := request_busy hb h
    exact .inr (sequence_act hs (fun hk => absurd hk (by omega)) h)

end Sys2Proof.Machine
end

