-- ==== Sys2Proof/Tests/Slice0.lean ====
section
/-! SUPPORT. Tests: words and vectors worked out by hand from spec/ (the rule or vector stands in each comment), and a
witness for the hypotheses of every statement. -/

namespace Sys2Proof.Tests

open Sys2Proof Sys2Proof.Machine

/-! ## Ill-formed terms are refused -/

/-- R74, first clause: `RSV`. -/
theorem test_illegal_rsv : legal 0x05800000 = false := by decide

/-- R74, second clause: `OP` below and above the table. -/
theorem test_illegal_op : legal 0x00000000 = false ∧ legal 0x11000000 = false := by decide

/-- R74, third clause: a level above 1. -/
theorem test_illegal_level : legal 0x01000002 = false ∧ legal 0x02000003 = false := by decide

/-- R74, fourth clause: an operand where there is none. -/
theorem test_illegal_operand : legal 0x03000001 = false ∧ legal 0x0F000001 = false := by decide

/-- R74, fifth clause: a byte of more than 8 bits. -/
theorem test_illegal_byte : legal 0x0A00FF00 = false ∧ legal 0x0A000100 = false := by decide

/-- R73: the must-be-zero bits of WBYTE are those above its byte. -/
theorem test_mbz_wbyte : (Instr.wbyte 0xFF).mustBeZero &&& 0x0100 ≠ 0 := by decide

/-- R82: two equal command bytes are refused, whichever they are. -/
theorem test_commands_skip_convert : Commands.wellFormed ⟨0x44, 0x44, 0xBE⟩ = false := by decide

theorem test_commands_skip_read : Commands.wellFormed ⟨0xBE, 0x44, 0xBE⟩ = false := by decide

theorem test_commands_convert_read : Commands.wellFormed ⟨0xCC, 0xBE, 0xBE⟩ = false := by decide

/-- R9: an engine has a caller. -/
theorem test_no_callers : Config.wellFormed { Config.default with nCallers := 0 } = false := by decide

theorem test_default_config : Config.wellFormed Config.default = true := by decide

/-! ## Words decode as the spec works them out (R81, R83, L2.1) -/

theorem test_decode_lsetout : decodeRequest 0b00000001000000000000000000000001 = .ok (.lsetout 1) := by decide

theorem test_decode_lwrite : decodeRequest 0b00000010000000000000000000000001 = .ok (.lwrite 1) := by decide

theorem test_decode_lsetin : decodeRequest 0b00000011000000000000000000000000 = .ok .lsetin := by decide

theorem test_decode_lread : decodeRequest 0b00000100000000000000000000000000 = .ok .lread := by decide

theorem test_decode_delayus : decodeRequest 0b00000101000000000000000111100000 = .ok (.delayus 480) := by decide

theorem test_decode_sleepms : decodeRequest 0b00000110000000000000001011101110 = .ok (.sleepms 750) := by decide

theorem test_decode_rstpd : decodeRequest 0b00000111000000000000000000000000 = .ok .rstpd := by decide

theorem test_decode_wbit : decodeRequest 0b00001000000000000000000010000000 = .ok (.wbit 0x80) := by decide

theorem test_decode_rbit : decodeRequest 0b00001001000000000000000000000000 = .ok .rbit := by decide

theorem test_decode_wbyte : decodeRequest 0b00001010000000000000000010110000 = .ok (.wbyte 0xB0) := by decide

theorem test_decode_rbyte : decodeRequest 0b00001011000000000000000000000000 = .ok .rbyte := by decide

theorem test_decode_acq : decodeRequest 0b00001100000000000000000000000000 = .ok .acq := by decide

theorem test_decode_tryacq : decodeRequest 0b00001101000000000000000001100100 = .ok (.tryacq 100) := by decide

theorem test_decode_rel : decodeRequest 0b00001110000000000000000000000000 = .ok .rel := by decide

theorem test_decode_sample : decodeRequest 0b00001111000000000000000000000000 = .ok .sample := by decide

theorem test_decode_decode : decodeRequest 0b00010000000000001111111001101111 = .ok (.decode 0xFE6F) := by decide

theorem test_decode_skip_rom : decodeTableWord 8 0b11001100 = some .cmdSkipRom := by decide

theorem test_decode_convert_t : decodeTableWord 8 0b01000100 = some .cmdConvertT := by decide

theorem test_decode_read_scratchpad : decodeTableWord 8 0b10111110 = some .cmdReadScratchpad := by decide

/-- Each way a code is refused has its name (R71 to R73, R82). -/
theorem test_decode_refusals :
    decodeRequest 0x07010000 = .error .reservedField ∧ decodeRequest 0xFF000000 = .error .reservedOp
      ∧ decodeRequest 0x0F000001 = .error .mustBeZero ∧ decodeWire Commands.default 0xF0 = .error .noSuchCommand := by decide

/-- R81: the word of `DECODE 0xFE6F`; R82: the byte of CONVERT_T. -/
theorem test_encode : encode Commands.default (.decode 0xFE6F) = .request 0x1000FE6F
    ∧ encode Commands.default .cmdConvertT = .wire 0x44 := by decide

/-- L2.1: what the assembler refuses. -/
theorem test_assembler_refuses : assemble Commands.default .wbyte (some (.dec [2, 5, 6])) = none
    ∧ assemble Commands.default .lsetout (some (.dec [2])) = none ∧ assemble Commands.default .wbyte none = none := by decide

/-- L2.1: `DELAYUS 65535` and `WBIT 0xFFFF`. -/
theorem test_assembler : assemble Commands.default .delayus (some (.dec [6, 5, 5, 3, 5])) = some 0x0500FFFF
    ∧ assemble Commands.default .wbit (some (.hex [15, 15, 15, 15])) = some 0x0800FFFF := by decide

/-! ## States -/

/-- After reset, under a lock, with draws to come, and caller 0's context; caller 0 is given the next turn. -/
def start (lock : Lock) (draws : List Level) (x : Ctx) : State :=
  { State.reset with lock := lock, ctx := [x, Ctx.reset, Ctx.reset], env := ⟨[.turn 0], 0, draws, 0⟩ }

/-- Caller 0 IDLE. -/
def rest (lock : Lock) (draws : List Level) : State := start lock draws Ctx.reset

/-- Caller 0 running a request at a position. -/
def running (req : Word) (pos : List Frame) (lock : Lock) (draws : List Level) : State :=
  start lock draws { Ctx.reset with status := .busy, req := req, pos := pos }

/-- Caller 0 with a word on its port. -/
def waiting (w : Word) (lock : Lock) : State := start lock [] { Ctx.reset with port := some w }

/-- What a next state holds. -/
def after {α : Type} (o : Out) (f : State → α) : Option α :=
  match o with
  | .next t => some (f t)
  | .fault _ => none
  | .refused _ => none

/-- `SAMPLE` at an index, with the default configuration. -/
def sampling (j : Nat) (inner : List Frame) (lock : Lock) (draws : List Level) : State :=
  running 0x0F000000 (⟨.sample, j⟩ :: inner) lock draws

/-! ## One step of each instruction (L2.2 to L2.9) -/

/-- L2.4. -/
theorem test_lsetout : after (exec (.lsetout 1) (running 0x01000001 [⟨.lsetout, 0⟩] (.held 0) []))
    (fun t => (t.lineDir, t.lineOut, t.trace)) = some (.output, 1, [.setOut 0 1]) := by decide

/-- L2.4: with the line released only the latch changes. -/
theorem test_lwrite : after (exec (.lwrite 1) (running 0x02000001 [⟨.lwrite, 0⟩] (.held 0) []))
    (fun t => (t.lineDir, t.lineOut, t.trace)) = some (.input, 1, [.writeLvl 0 1]) := by decide

/-- L2.4: the latch is kept. -/
theorem test_lsetin :
    after (exec .lsetin { running 0x03000000 [⟨.lsetin, 0⟩] (.held 0) [] with lineDir := .output, lineOut := 1 })
      (fun t => (t.lineDir, t.lineOut, t.drive)) = some (.input, 1, .z) := by decide

/-- L2.4: `LREAD` with draw 1: the sample, and the answer. -/
theorem test_lread : after (exec .lread (running 0x04000000 [⟨.lread, 0⟩] (.held 0) [1]))
    (fun t => (t.me.smp, t.trace)) = some (1, [.sample 0 1]) := by decide

theorem test_lread_answer :
    after (exec .lread (start (.held 0) [] { Ctx.reset with status := .busy, pos := [⟨.lread, 1⟩], smp := 1 }))
      (fun t => (t.me.resp, t.me.status)) = some (some 0x00000001, .idle) := by decide

/-- L2.4: no lock is needed. -/
theorem test_delayus : after (exec (.delayus 0) (running 0x05000000 [⟨.delayus, 0⟩] .free []))
    (fun t => t.trace) = some [.delayUs 0 0] := by decide

theorem test_sleepms : after (exec (.sleepms 65535) (running 0x0600FFFF [⟨.sleepms, 0⟩] .free []))
    (fun t => t.trace) = some [.sleepMs 0 65535] := by decide

/-- L2.5: micro-step S6 with presence. -/
theorem test_rstpd_sample : after (exec .rstpd (running 0x07000000 [⟨.rstpd, 5⟩] (.held 0) [0]))
    (fun t => (t.me.present, t.me.smp, t.trace)) = some (1, 0, [.sample 0 0]) := by decide

/-- L2.5: no presence answers `0x10000000`. -/
theorem test_rstpd_answer : after (exec .rstpd (running 0x07000000 [⟨.rstpd, 8⟩] (.held 0) []))
    (fun t => t.me.resp) = some (some 0x10000000) := by decide

/-- L2.3: `0x80` clamps to 1; L2.5: W1 drives high. -/
theorem test_wbit : after (exec (.wbit 0x80) (running 0x08000080 [⟨.wbit, 0⟩] (.held 0) []))
    (fun t => (t.me.bitv, t.trace)) = some (1, [.setOut 0 1]) := by decide

/-- L2.5: W5 of `WBIT 0` rewrites 0. -/
theorem test_wbit_zero : after (exec (.wbit 0) (running 0x08000000 [⟨.wbit, 4⟩] (.held 0) []))
    (fun t => t.trace) = some [.writeLvl 0 0] := by decide

/-- L2.5: B3 releases the line. -/
theorem test_rbit : after (exec .rbit (running 0x09000000 [⟨.rbit, 2⟩] (.held 0) []))
    (fun t => (t.lineDir, t.trace)) = some (.input, [.setIn 0]) := by decide

/-- L2.6: the last slot of `WBYTE 0x80` sends 1. -/
theorem test_wbyte_last_slot :
    after (exec (.wbyte 0x80)
        (start (.held 0) [] { Ctx.reset with status := .busy, pos := [⟨.wbyte, 7⟩], acc := 0x80 }))
      (fun t => t.me.bitv) = some 1 := by decide

/-- R150: the last micro-step of bit 7 leaves `IDX` 8. -/
theorem test_wbyte_end : after (exec (.wbyte 0) (running 0x0A000000 [⟨.wbyte, 7⟩, ⟨.wbit, 7⟩] (.held 0) []))
    (fun t => (t.me.idx, t.me.pos)) = some (8, [⟨.wbyte, 8⟩]) := by decide

/-- R152: the sample of bit 7 goes to bit 7. -/
theorem test_rbyte_accumulates :
    after (exec .rbyte
        (start (.held 0) [1] { Ctx.reset with status := .busy, pos := [⟨.rbyte, 7⟩, ⟨.rbit, 4⟩], acc := 0x11 }))
      (fun t => t.me.acc) = some 0x91 := by decide

/-- R152: no bit of an earlier byte leaks in. -/
theorem test_rbyte_clears :
    after (exec .rbyte (start (.held 0) [] { Ctx.reset with status := .busy, pos := [⟨.rbyte, 0⟩], acc := 0xFF }))
      (fun t => t.me.acc) = some 0 := by decide

/-- L2.7. -/
theorem test_acq : after (exec .acq (running 0x0C000000 [⟨.acq, 0⟩] .free []))
    (fun t => (t.lock, t.trace)) = some (.held 0, [.acquire 0]) := by decide

/-- L2.7: blocked behind another holder, it takes no micro-step. -/
theorem test_acq_blocked : exec .acq (running 0x0C000000 [⟨.acq, 0⟩] (.held 1) [])
    = .next (running 0x0C000000 [⟨.acq, 0⟩] (.held 1) []) := by rfl

/-- L2.7: TimeOut only. -/
theorem test_tryacq_late : after (exec (.tryacq 100) (running 0x0D000064 [⟨.tryacq, 0⟩] (.held 1) []))
    (fun t => (t.lock, t.trace, t.me.pos)) = some (.held 1, [.busy 0], [⟨.tryacq, 2⟩]) := by decide

theorem test_tryacq_busy_answer : after (exec (.tryacq 100) (running 0x0D000064 [⟨.tryacq, 2⟩] (.held 1) []))
    (fun t => t.me.resp) = some (some 0x20000000) := by decide

/-- L2.7. -/
theorem test_rel : after (exec .rel (running 0x0E000000 [⟨.rel, 0⟩] (.held 0) []))
    (fun t => (t.lock, t.trace)) = some (.free, [.release 0]) := by decide

/-- L1.5: a failed presence check leads to the Release of the failure exit. -/
theorem test_sample_no_presence : after (exec .sample (sampling 1 [⟨.rstpd, 7⟩] (.held 0) []))
    (fun t => (t.lineOut, t.me.pos)) = some (1, [⟨.sample, 14⟩]) := by decide

/-- P1: `RAW` is `HI ++ LO`. -/
theorem test_sample_raw :
    after (exec .sample (start (.held 0) [] { Ctx.reset with
        status := .busy, pos := [⟨.sample, 11⟩, ⟨.rbyte, 7⟩, ⟨.rbit, 5⟩], acc := 0x01, lo := 0x91 }))
      (fun t => (t.me.hi, t.me.raw, t.me.pos)) = some (0x01, 0x0191, [⟨.sample, 12⟩]) := by decide

/-- L2.2: the largest negative register, and L1.2. -/
theorem test_decode_most_negative : after (exec (.decode 0x8000) (running 0x10008000 [⟨.decode, 0⟩] .free []))
    (fun t => t.me.resp) = some (some 0x00018000) := by decide

theorem test_decode_fe6f : after (exec (.decode 0xFE6F) (running 0x1000FE6F [⟨.decode, 0⟩] .free []))
    (fun t => t.me.resp) = some (some 0x00010191) := by decide

/-- R83: the first and third bits of `SKIP_ROM` on the line are 0 and 1. -/
theorem test_skip_rom : after (exec .cmdSkipRom (sampling 2 [] (.held 0) []))
      (fun t => (t.me.bitv, t.me.acc)) = some (0, 0xCC)
    ∧ after (exec .cmdSkipRom (start (.held 0) [] { Ctx.reset with
        status := .busy, pos := [⟨.sample, 2⟩, ⟨.wbyte, 2⟩], acc := 0xCC })) (fun t => t.me.bitv) = some 1 := by decide

/-- R83: the third bit of `CONVERT_T`, after two zeros. -/
theorem test_convert_t : after (exec .cmdConvertT (start (.held 0) [] { Ctx.reset with
    status := .busy, pos := [⟨.sample, 3⟩, ⟨.wbyte, 2⟩], acc := 0x44 })) (fun t => t.me.bitv) = some 1 := by decide

/-- R83: the first bit of `READ_SCRATCHPAD` is 0; outside SAMPLE it starts a WBYTE (log 15). -/
theorem test_read_scratchpad : after (exec .cmdReadScratchpad (sampling 9 [] (.held 0) []))
      (fun t => (t.me.bitv, t.me.acc)) = some (0, 0xBE)
    ∧ after (exec .cmdReadScratchpad (rest (.held 0) [])) (fun t => (t.me.req, t.me.pos))
      = some (0x0A0000BE, [⟨.wbyte, 0⟩]) := by decide

/-! ## Faults (L2.8) and the step -/

/-- The fault register after caller 0's turn. -/
def faultAfter (w : Word) (lock : Lock) : Option (FaultCause × Nat × Word) :=
  after (step (waiting w lock)) fun t => (t.fault.cause, t.fault.caller, t.fault.req)

theorem test_fault_illegal : faultAfter 0x0F000001 .free = some (.illegalRequest, 0, 0x0F000001) := by decide

/-- Check 1 comes before check 2a. -/
theorem test_fault_order : faultAfter 0x07010000 .free = some (.illegalRequest, 0, 0x07010000) := by decide

theorem test_fault_lock_not_held : faultAfter 0x0A0000CC (.held 1) = some (.lockNotHeld, 0, 0x0A0000CC) := by decide

theorem test_fault_release : faultAfter 0x0E000000 (.held 1) = some (.releaseNotOwner, 0, 0x0E000000) := by decide

theorem test_fault_recursive : faultAfter 0x0D000005 (.held 0) = some (.recursiveAcquire, 0, 0x0D000005) := by decide

theorem test_no_fault_decode : faultAfter 0x10000191 (.held 1) = some (.none, 0, 0) := by decide

/-- R236: the faulted engine takes no step. -/
theorem test_halted :
    step { rest .free [] with fault := ⟨.lockNotHeld, 1, 0⟩ } = .fault .halted := by rfl

/-- An instruction placed after reset is the next one: `SAMPLE` starts, and a wire command's first micro-step is taken. -/
theorem test_fetch_sample : after (step (State.reset.withFetchWord 32 0x0F000000))
    (fun t => (t.me.status, t.me.req, t.me.pos)) = some (.busy, 0x0F000000, [⟨.sample, 0⟩]) := by decide

theorem test_fetch_command : after (step (State.reset.withFetchWord 8 0x44))
    (fun t => (t.me.acc, t.trace)) = some (0x44, [.setOut 0 1]) := by decide

/-- R251: the state after reset is final; a waiting request makes it not so. -/
theorem test_final : State.reset.final = true ∧ (waiting 0x0F000000 .free).final = false := by decide

/-- R199: ACQ and an unbounded SAMPLE wait in Acquire; a bounded SAMPLE, which can time out, and a TRYACQ do not. -/
theorem test_in_acquire : (running 0x0C000000 [⟨.acq, 0⟩] (.held 1) []).inAcquire 0 = true
    ∧ (sampling 6 [] (.held 1) []).inAcquire 0 = true
    ∧ ({ sampling 6 [] (.held 1) [] with cfg := { Config.default with acquireBound := some 10 } } : State).inAcquire 0
      = false
    ∧ (running 0x0D000064 [⟨.tryacq, 0⟩] (.held 1) []).inAcquire 0 = false := by decide

/-! ## Witnesses: a state and operands that meet the hypotheses of each statement -/

/-- The invariant of a concrete state. -/
theorem inv_of (s : State) (h1 : s.ctx.length = s.cfg.nCallers)
    (h2 : (match s.lock with | .free => true | .held c => decide (c < s.ctx.length)) = true)
    (h3 : lockAfter s.trace = some s.lock)
    (h4 : ((List.range s.ctx.length).all fun c => ctxWell s c (s.ctx.getD c Ctx.reset)) = true) : s.Inv := by
  refine ⟨h1, fun c hc => by simpa [hc] using h2, h3, fun c x hx => ?_⟩
  have hlt : c < s.ctx.length := by
    by_contra hn
    rw [List.getElem?_eq_none (by omega)] at hx
    cases hx
  have h := List.all_eq_true.mp h4 c (List.mem_range.mpr hlt)
  rw [List.getElem?_eq_getElem hlt] at hx
  cases hx
  simpa [hlt] using h

theorem witness_DecodeInvertsEncode : Commands.default.wellFormed = true := by decide

theorem witness_EncodeInvertsDecode : decodeRequest 0x1000FFFF = .ok (.decode 0xFFFF) := by decide

/-- The hypotheses of `IsIllegal`, for a word of each kind that uses it. -/
theorem witness_IllegalWordsFault : ∀ w ∈ ([0x0F010000, 0x01000002, 0x02008000, 0x03000001, 0x04008000, 0x07000001,
      0x09000001, 0x0A000100, 0x0B008000, 0x0C000001, 0x0E000001] : List Word),
    (waiting w .free).nextMove = .turn 0 ∧ (waiting w .free).fault.cause = .none
      ∧ (waiting w .free).ctx[0]? = some { Ctx.reset with port := some w } := fun _ _ => ⟨rfl, rfl, rfl⟩

theorem witness_StepRunsTheWaitingRequest : (waiting 0x0C000000 .free).nextMove = .turn 0
    ∧ (waiting 0x0C000000 .free).fault.cause = .none
    ∧ (waiting 0x0C000000 .free).ctx[0]? = some { Ctx.reset with port := some 0x0C000000 }
    ∧ decodeRequest 0x0C000000 = .ok .acq := by decide

theorem witness_StepRunsTheRunningInstruction :
    (∃ x, (running 0x0C000000 [⟨.acq, 0⟩] .free []).ctx[0]? = some x ∧ x.status = .busy
      ∧ commandAt Config.default x.pos = none ∧ decodeRequest x.req = .ok .acq)
    ∧ ∃ x, (sampling 3 [⟨.wbyte, 7⟩] (.held 0) []).ctx[0]? = some x ∧ x.status = .busy
      ∧ commandAt Config.default x.pos = some .convertT := by
  exact ⟨⟨_, rfl, by decide⟩, ⟨_, rfl, by decide⟩⟩

/-- Each of the host's moves, at an existing caller, and beyond the last. -/
theorem witness_StepTakesTheHostsMoves :
    ({ rest .free [] with env := ⟨[.place 2 0x0C000000], 0, [], 0⟩ } : State).nextMove = .place 2 0x0C000000
      ∧ ({ rest .free [] with env := ⟨[.take 2], 0, [], 0⟩ } : State).nextMove = .take 2
      ∧ (rest .free []).ctx[2]? = some Ctx.reset ∧ (rest .free []).fault.cause = .none
      ∧ ({ rest .free [] with env := ⟨[.take 3], 0, [], 0⟩ } : State).nextMove = .take 3
      ∧ (rest .free []).ctx.length ≤ 3 := by decide

/-- A caller blocked in ACQ, and one with nothing to do. -/
def blocked : State := { running 0x0C000000 [⟨.acq, 0⟩] (.held 1) [] with trace := [.acquire 1] }

theorem witness_TurnOfADisabledCallerPasses : blocked.Inv ∧ blocked.fault.cause = .none
    ∧ blocked.nextMove = .turn 0 ∧ blocked.enabled 0 = false ∧ (rest .free []).enabled 0 = false := by
  exact ⟨inv_of _ (by decide) (by decide) (by decide) (by decide), by decide⟩

/-- A word of each fault, and one of none. -/
theorem witness_StartStepChecks : decodeRequest 0x0F010000 = .error .reservedField
    ∧ startCause (lockCheckOf .rstpd) .free 0 = some .lockNotHeld
    ∧ startCause (lockCheckOf .rel) (.held 1) 0 = some .releaseNotOwner
    ∧ startCause (lockCheckOf .sample) (.held 0) 0 = some .recursiveAcquire
    ∧ startCause (lockCheckOf .sample) (.held 1) 0 = none
    ∧ (waiting 0x07000000 .free).ctx[0]? = some { Ctx.reset with port := some 0x07000000 } := by decide

theorem witness_EveryRequestStarts : (rest .free []).AtRest ∧ (rest (.held 0) []).AtRest ∧ (rest (.held 1) []).AtRest := by
  decide

theorem witness_FaultEntry : ∃ t, step (waiting 0x07000000 .free) = .next t
    ∧ (waiting 0x07000000 .free).fault.cause = .none ∧ t.fault.cause ≠ .none := by
  exact ⟨_, rfl, by decide⟩

theorem witness_HaltedEngineOnlyResets :
    ({ rest .free [] with fault := ⟨.illegalRequest, 0, 0⟩ } : State).fault.cause ≠ .none
      ∧ (rest .free []).nextMove ≠ .engineReset
      ∧ ({ rest .free [] with env := ⟨[.engineReset], 0, [], 0⟩ } : State).nextMove = .engineReset := by decide

/-- An IDLE caller with the lock, and one without: the hypotheses of the rules of requests that need it. -/
theorem witness_requests_under_the_lock : (rest (.held 0) [0]).AtRest ∧ (rest (.held 0) [0]).lock = .held 0
    ∧ (rest (.held 0) [0]).cur = 0 ∧ (rest .free []).AtRest ∧ (rest .free []).lock ≠ .held 0 := by decide

theorem witness_LsetoutRule : (0x01000001 : Word).extractLsb' 1 31 = 8388608#31
    ∧ (0x01000002 : Word).extractLsb' 24 8 = 0x01#8 ∧ (0x01000002 : Word).extractLsb' 1 15 ≠ 0 := by decide

theorem witness_LwriteRule : (0x02000001 : Word).extractLsb' 1 31 = 16777216#31
    ∧ (0x02000002 : Word).extractLsb' 24 8 = 0x02#8 ∧ (0x02000002 : Word).extractLsb' 1 15 ≠ 0 := by decide

theorem witness_LsetinRule : (0x03000001 : Word).extractLsb' 24 8 = 0x03#8
    ∧ (0x03000001 : Word).extractLsb' 0 16 ≠ 0 := by decide

theorem witness_LreadRule : (0x04000001 : Word).extractLsb' 24 8 = 0x04#8
    ∧ (0x04000001 : Word).extractLsb' 0 16 ≠ 0 := by decide

theorem witness_DelayusRule : (0x0500FFFF : Word).extractLsb' 16 16 = 1280#16 := by decide

theorem witness_SleepmsRule : (0x06000000 : Word).extractLsb' 16 16 = 1536#16 := by decide

theorem witness_LineMicroStepsComplete :
    (running 0x01000000 [⟨.lsetout, 0⟩] (.held 0) []).At [⟨.lsetout, 0⟩]
      ∧ (running 0x02000000 [⟨.lwrite, 0⟩] (.held 0) []).At [⟨.lwrite, 0⟩]
      ∧ (running 0x03000000 [⟨.lsetin, 0⟩] (.held 0) []).At [⟨.lsetin, 0⟩]
      ∧ (running 0x04000000 [⟨.lread, 0⟩] (.held 0) []).At [⟨.lread, 0⟩]
      ∧ (running 0x05000000 [⟨.delayus, 0⟩] .free []).At [⟨.delayus, 0⟩]
      ∧ (running 0x06000000 [⟨.sleepms, 0⟩] .free []).At [⟨.sleepms, 0⟩] := by decide

/-- Both outcomes, and the procedure at both of its places in SAMPLE. -/
theorem witness_RstpdRule : (0x07000001 : Word).extractLsb' 24 8 = 0x07#8 ∧ (0x07000001 : Word).extractLsb' 0 16 ≠ 0
    ∧ (rest (.held 0) [0]).env.level 0 = 0 ∧ (rest (.held 0) [1]).env.level 0 = 1
    ∧ (sampling 1 [] (.held 0) []).At [⟨.sample, 1⟩] ∧ (samplePlan false)[1]? = some .presence
    ∧ (samplePlan false)[7]? = some .presence ∧ (samplePlan true)[5]? = some .presence := by decide

/-- The procedure at its first and last bit. -/
theorem witness_WbitRule : (0x0800FFFF : Word).extractLsb' 16 16 = 2048#16
    ∧ (running 0x0A0000B0 [⟨.wbyte, 0⟩] (.held 0) []).At [⟨.wbyte, 0⟩]
    ∧ (running 0x0A0000B0 [⟨.wbyte, 7⟩] (.held 0) []).At [⟨.wbyte, 7⟩] := by decide

theorem witness_RbitRule : (0x09000001 : Word).extractLsb' 24 8 = 0x09#8 ∧ (0x09000001 : Word).extractLsb' 0 16 ≠ 0
    ∧ (running 0x0B000000 [⟨.rbyte, 0⟩] (.held 0) [1]).At [⟨.rbyte, 0⟩]
    ∧ (running 0x0B000000 [⟨.rbyte, 7⟩] (.held 0) [1]).At [⟨.rbyte, 7⟩] := by decide

/-- The first and the last micro-step of each bit procedure. -/
theorem witness_bit_micro_steps :
    (running 0x07000000 [⟨.rstpd, 0⟩] (.held 0) []).At [⟨.rstpd, 0⟩]
      ∧ (running 0x07000000 [⟨.rstpd, 7⟩] (.held 0) []).At [⟨.rstpd, 7⟩]
      ∧ (running 0x08000001 [⟨.wbit, 0⟩] (.held 0) []).At [⟨.wbit, 0⟩]
      ∧ (running 0x08000001 [⟨.wbit, 7⟩] (.held 0) []).At [⟨.wbit, 7⟩]
      ∧ (running 0x09000000 [⟨.rbit, 0⟩] (.held 0) []).At [⟨.rbit, 0⟩]
      ∧ (running 0x09000000 [⟨.rbit, 5⟩] (.held 0) []).At [⟨.rbit, 5⟩] := by decide

theorem witness_WbyteRule : (0x0A0000FF : Word).extractLsb' 8 24 = 655360#24
    ∧ (0x0A000100 : Word).extractLsb' 24 8 = 0x0A#8 ∧ (0x0A000100 : Word).extractLsb' 8 8 ≠ 0
    ∧ (sampling 2 [] (.held 0) []).At [⟨.sample, 2⟩] ∧ (samplePlan false)[2]? = some (.command .skipRom) := by decide

theorem witness_RbyteRule : (0x0B000001 : Word).extractLsb' 24 8 = 0x0B#8 ∧ (0x0B000001 : Word).extractLsb' 0 16 ≠ 0
    ∧ (sampling 10 [] (.held 0) []).At [⟨.sample, 10⟩] ∧ (samplePlan false)[10]? = some .readLow
    ∧ (sampling 11 [] (.held 0) []).At [⟨.sample, 11⟩] ∧ (samplePlan false)[11]? = some .readHigh := by decide

/-- The draws of `0xB0`, LSB first (L1.4). -/
theorem witness_ByteRoundTrip : (rest (.held 0) [0, 0, 0, 0, 1, 1, 0, 1]).AtRest
    ∧ ∀ k, k < 8 → (rest (.held 0) [0, 0, 0, 0, 1, 1, 0, 1]).env.level k = (0xB0 : Byte).extractLsb' k 1 := by decide

/-- The first micro-step of bit 0 and the last of bit 7. -/
theorem witness_byte_micro_steps :
    (running 0x0A000000 [⟨.wbyte, 0⟩] (.held 0) []).At [⟨.wbyte, 0⟩]
      ∧ (running 0x0A000000 [⟨.wbyte, 7⟩, ⟨.wbit, 7⟩] (.held 0) []).At [⟨.wbyte, 7⟩, ⟨.wbit, 7⟩]
      ∧ (running 0x0B000000 [⟨.rbyte, 0⟩] (.held 0) []).At [⟨.rbyte, 0⟩]
      ∧ (running 0x0B000000 [⟨.rbyte, 7⟩, ⟨.rbit, 5⟩] (.held 0) []).At [⟨.rbyte, 7⟩, ⟨.rbit, 5⟩] := by decide

theorem witness_AcqRule : (0x0C000001 : Word).extractLsb' 24 8 = 0x0C#8 ∧ (0x0C000001 : Word).extractLsb' 0 16 ≠ 0
    ∧ (running 0x0C000000 [⟨.acq, 0⟩] .free []).At [⟨.acq, 0⟩]
    ∧ (running 0x0C000000 [⟨.acq, 0⟩] (.held 1) []).At [⟨.acq, 0⟩] ∧ blocked.lock = .held 1 ∧ blocked.cur = 0 := by decide

theorem witness_TryacqRule : (0x0D000064 : Word).extractLsb' 16 16 = 3328#16
    ∧ (running 0x0D000000 [⟨.tryacq, 0⟩] .free []).At [⟨.tryacq, 0⟩]
    ∧ (running 0x0D000000 [⟨.tryacq, 0⟩] (.held 1) []).At [⟨.tryacq, 0⟩]
    ∧ (running 0x0D000000 [⟨.tryacq, 0⟩] (.held 0) []).lock = .held 0 := by decide

theorem witness_RelRule : (0x0E000001 : Word).extractLsb' 24 8 = 0x0E#8 ∧ (0x0E000001 : Word).extractLsb' 0 16 ≠ 0
    ∧ (running 0x0E000000 [⟨.rel, 0⟩] (.held 0) []).At [⟨.rel, 0⟩] := by decide

theorem witness_SampleSucceeds : (rest .free [0, 0]).AtRest ∧ (rest .free [0, 0]).lock = .free
    ∧ (rest .free [0, 0]).env.level 0 = 0 ∧ (rest .free [0, 0]).env.level 1 = 0 := by decide

theorem witness_SampleFailsAtTheFirstReset : (rest .free [1]).AtRest ∧ (rest .free [1]).env.level 0 = 1
    ∧ (sampling 1 [] (.held 0) [1]).At [⟨.sample, 1⟩] := by decide

theorem witness_SampleFailsAtTheSecondReset : (rest .free [0, 1]).AtRest ∧ (rest .free [0, 1]).env.level 0 = 0
    ∧ (rest .free [0, 1]).env.level 1 = 1 ∧ (sampling 7 [] (.held 0) [1]).At [⟨.sample, 7⟩]
    ∧ (sampling 7 [] (.held 0) [1]).cfg.holdLock = false := by decide

/-- A configuration with a bound, the lock held by caller 1, at phase 1 and at phase 5. -/
theorem witness_SampleTimesOut :
    let s : State := { rest (.held 1) [] with cfg := { Config.default with acquireBound := some 10 } }
    let u : State := { sampling 6 [] (.held 1) [] with cfg := { Config.default with acquireBound := some 10 } }
    s.AtRest ∧ s.lock = .held 1 ∧ s.cfg.acquireBound = some 10 ∧ u.At [⟨.sample, 6⟩]
      ∧ (samplePlan u.cfg.holdLock)[6]? = some .acquire := by decide

theorem witness_SampleOwnMicroStepsComplete :
    (sampling 0 [] .free []).At [⟨.sample, 0⟩] ∧ (samplePlan false)[0]? = some .acquire
      ∧ (sampling 0 [] (.held 1) []).cfg.acquireBound = none ∧ (samplePlan false)[4]? = some .release
      ∧ (samplePlan false)[5]? = some .sleep ∧ (samplePlan true)[4]? = some .sleep
      ∧ (samplePlan false)[13]? = some .respondRaw ∧ (sampling 13 [] .free []).At [⟨.sample, 13⟩]
      ∧ (sampling 4 [] (.held 0) []).At [⟨.sample, 4⟩] ∧ (sampling 5 [] .free []).At [⟨.sample, 5⟩]
      ∧ (sampling 0 [] (.held 1) []).At [⟨.sample, 0⟩] ∧ (sampling 0 [] (.held 1) []).lock = .held 1 := by decide

/-- The first micro-step, a later one, and the last, of the first and of the last command. -/
theorem witness_WireCommandsAreSentAsBytes :
    (samplePlan false)[2]? = some (.command .skipRom) ∧ (samplePlan false)[9]? = some (.command .readScratchpad)
      ∧ (sampling 2 [] (.held 0) []).At (⟨.sample, 2⟩ :: wbyteFrames 0 0)
      ∧ (sampling 9 [⟨.wbyte, 3⟩] (.held 0) []).At (⟨.sample, 9⟩ :: wbyteFrames 3 0)
      ∧ (sampling 9 [⟨.wbyte, 7⟩, ⟨.wbit, 7⟩] (.held 0) []).At (⟨.sample, 9⟩ :: wbyteFrames 7 7) := by decide

theorem witness_DecodeRule : (0x1000FFFF : Word).extractLsb' 16 16 = 4096#16
    ∧ (running 0x1000FFFF [⟨.decode, 0⟩] .free []).At [⟨.decode, 0⟩] := by decide

theorem witness_ResetRule : ({ rest .free [] with env := ⟨[.engineReset], 0, [], 0⟩ } : State).nextMove = .engineReset
    ∧ (∀ x ∈ (rest .free []).ctx, x.status = .idle) ∧ (∃ x ∈ blocked.ctx, x.status = .busy) := by decide

theorem witness_ResetMeetsTheInvariant : State.reset.IsReset := by
  refine ⟨by decide, by decide, by decide, by decide, fun c x h => ?_⟩
  have hx := List.mem_of_getElem? h
  rw [show State.reset.ctx = List.replicate 3 Ctx.reset from rfl, List.mem_replicate] at hx
  rw [hx.2]
  decide

/-- A step of a holder, from a state that meets the invariant. -/
def holding : State := { running 0x0F000000 [⟨.sample, 1⟩] (.held 0) [0] with trace := [.acquire 0] }

theorem witness_holding : holding.Inv := inv_of _ (by decide) (by decide) (by decide) (by decide)

theorem witness_StepKeepsTheInvariant : holding.Inv ∧ ∃ t, step holding = .next t := ⟨witness_holding, _, rfl⟩

theorem witness_NoStepLosesItsPosition : blocked.Inv ∧ holding.Inv :=
  ⟨inv_of _ (by decide) (by decide) (by decide) (by decide), witness_holding⟩

theorem witness_LineEventsAreTheHolders :
    lockAfter ([.acquire 1, .setOut 1 0] ++ Event.setIn 1 :: [.release 1]) = some .free
      ∧ (Event.setIn 1).isLine = true := by decide

/-- A drive and a sample by the holder. -/
theorem witness_OnlyTheHolderTouchesTheLine : holding.Inv ∧ holding.nextMove ≠ .engineReset
    ∧ ∃ t, step holding = .next t ∧ t.lineDir ≠ holding.lineDir := ⟨witness_holding, by decide, _, rfl, by decide⟩

theorem witness_ConfigurationIsReadOnly : ∃ t, step (waiting 0x0C000000 .free) = .next t := ⟨_, rfl⟩

theorem witness_TraceOnlyGrows : (∃ t, step holding = .next t) ∧ holding.nextMove ≠ .engineReset
    ∧ holding.me.status = .busy ∧ ∃ t, exec .sample holding = .next t :=
  ⟨⟨_, rfl⟩, by decide, by decide, _, rfl⟩

theorem witness_EveryInstructionWritesOnlyItsAccess :
    ∃ t, exec (.lwrite 1) (running 0x02000001 [⟨.lwrite, 0⟩] (.held 0) []) = .next t := ⟨_, rfl⟩

/-- An Acquire and a Release. -/
theorem witness_LockChangesOnlyByItsMicroSteps :
    (∃ t, exec .acq (running 0x0C000000 [⟨.acq, 0⟩] .free []) = .next t ∧ t.lock ≠ .free)
      ∧ ∃ t, exec .rel (running 0x0E000000 [⟨.rel, 0⟩] (.held 0) []) = .next t ∧ t.lock ≠ .held 0 :=
  ⟨⟨_, rfl, by decide⟩, _, rfl, by decide⟩

theorem witness_PresentFollowsTheSample :
    ∃ t, exec .rstpd (running 0x07000000 [⟨.rstpd, 5⟩] (.held 0) [0]) = .next t ∧ t.me.present ≠ 0 :=
  ⟨_, rfl, by decide⟩

theorem witness_RespondEndsEveryRequest :
    ∃ t, exec .rel (running 0x0E000000 [⟨.rel, 1⟩] .free []) = .next t ∧ t.me.status = .idle
      ∧ (running 0x0E000000 [⟨.rel, 1⟩] .free []).me.status = .busy := ⟨_, rfl, by decide⟩

theorem witness_RespIsTheLastResponse :
    (∀ (c : Nat) (x : Ctx), (rest .free []).ctx[c]? = some x → x.resp = lastResponse c (rest .free []).trace)
      ∧ ∃ t, step (rest .free []) = .next t := by
  refine ⟨fun c x h => ?_, _, rfl⟩
  have hx := List.mem_of_getElem? h
  simp only [rest, start, List.mem_cons, List.not_mem_nil, or_false, or_self] at hx
  rw [hx]
  rfl

theorem witness_HolderAlwaysSteps : holding.Inv ∧ holding.Live ∧ holding.me.status = .busy
    ∧ holding.lock = .held holding.cur ∧ decodeRequest holding.me.req = .ok .sample :=
  ⟨witness_holding, by decide⟩

theorem witness_SampleHolderReleases : holding.Inv ∧ holding.Live ∧ holding.me.status = .busy
    ∧ holding.me.req = 0x0F000000 ∧ holding.lock = .held holding.cur := ⟨witness_holding, by decide⟩

/-- Asleep with the lock held, at the first and the last index the statement speaks of. -/
theorem witness_HoldKeepsTheLockThroughTheConversion :
    let s : State := { holding with cfg := { Config.default with holdLock := true } }
    let u : State := { running 0x0F000000 [⟨.sample, 10⟩] (.held 0) [] with
      cfg := { Config.default with holdLock := true }, trace := [.acquire 0] }
    s.Inv ∧ u.Inv ∧ s.fault.cause = .none ∧ s.cfg.holdLock = true ∧ s.me.pos = [⟨.sample, 1⟩]
      ∧ u.me.pos = [⟨.sample, 10⟩] :=
  ⟨inv_of _ (by decide) (by decide) (by decide) (by decide), inv_of _ (by decide) (by decide) (by decide) (by decide),
    by decide⟩

theorem witness_CallersDoNotSeeEachOther : 1 ≠ holding.cur := by decide

end Sys2Proof.Tests
end

section
/-! SUPPORT. The micro-step of each one-step request of the line driver, from the caller's first position: one lemma for
every sequence, one equation for each of the six, and O21 assembled from them. -/

namespace Sys2Proof.Machine

variable {s : State}

/-! ## The micro-steps of a sequence -/

/-- A caller at index `k` of a sequence of more micro-steps takes micro-step `k` and stands at the next index. -/
theorem request_sequence_next {p : Proc} {k n : Nat} (h : s.At [⟨p, k⟩]) (hk : k < n) (w : Word)
    (chk : State → Option FaultCause) (micro : Nat → State → State) (answer : State → State) :
    request w p chk (sequence p n micro answer) s = .next ((micro k s).setPos [⟨p, k + 1⟩]) := by
  obtain ⟨hlive, hbusy, hpos⟩ := h
  rw [request_running hlive hbusy hpos rfl]
  exact if_pos hk

/-! ## Draws -/

theorem Env.afterDraw_eq_afterDraws (e : Env) : e.afterDraw = e.afterDraws 1 := by
  simp [Env.afterDraw, Env.afterDraws]

theorem State.drawLevel_eq_level (s : State) : s.drawLevel = s.env.level 0 := by
  unfold State.drawLevel Env.level
  cases s.env.draws <;> rfl

/-- A Sample and the move of the position after it, in one change of the caller's context. -/
theorem State.sample_setPos (s : State) (pos : List Frame) :
    s.sample.setPos pos = { s with
      env := s.env.afterDraws 1
      trace := s.trace ++ [.sample s.cur (s.env.level 0)]
      ctx := s.ctx.modify s.cur fun x => { x with smp := s.env.level 0, pos := pos } } := by
  rw [← s.drawLevel_eq_level, ← s.env.afterDraw_eq_afterDraws, State.setPos, State.mapMe, State.mapCtx, State.sample_ctx,
    State.sample_cur, List.modify_modify_eq]
  rfl

/-! ## The one-step requests (40_line_driver.md R100 to R107) -/

theorem exec_lsetout_micro (h : s.At [⟨.lsetout, 0⟩]) (l : Level) :
    exec (.lsetout l) s = .next ((s.setOut l).setPos [⟨.lsetout, 1⟩]) :=
  request_sequence_next h Nat.zero_lt_one ..

theorem exec_lwrite_micro (h : s.At [⟨.lwrite, 0⟩]) (l : Level) :
    exec (.lwrite l) s = .next ((s.writeLvl l).setPos [⟨.lwrite, 1⟩]) :=
  request_sequence_next h Nat.zero_lt_one ..

theorem exec_lsetin_micro (h : s.At [⟨.lsetin, 0⟩]) : exec .lsetin s = .next (s.setIn.setPos [⟨.lsetin, 1⟩]) :=
  request_sequence_next h Nat.zero_lt_one ..

theorem exec_lread_micro (h : s.At [⟨.lread, 0⟩]) : exec .lread s = .next (s.sample.setPos [⟨.lread, 1⟩]) :=
  request_sequence_next h Nat.zero_lt_one ..

theorem exec_delayus_micro (h : s.At [⟨.delayus, 0⟩]) (n : Half) :
    exec (.delayus n) s = .next ((s.delayUs n).setPos [⟨.delayus, 1⟩]) :=
  request_sequence_next h Nat.zero_lt_one ..

theorem exec_sleepms_micro (h : s.At [⟨.sleepms, 0⟩]) (n : Half) :
    exec (.sleepms n) s = .next ((s.sleepMs n).setPos [⟨.sleepms, 1⟩]) :=
  request_sequence_next h Nat.zero_lt_one ..

/-- Settles O21: each of the six requests is a sequence of one micro-step, whose operation is the stated change of the
state by definition; LREAD's Sample draws the level the environment shows next. -/
theorem lineMicroStepsComplete : Obligations.LineMicroStepsComplete := by
  intro s
  refine ⟨fun l h => ?lsetout, fun l h => ?lwrite, fun h => ?lsetin, fun h => ?lread, fun n h => ?delayus,
    fun n h => ?sleepms⟩
  case lsetout => exact exec_lsetout_micro h l
  case lwrite => exact exec_lwrite_micro h l
  case lsetin => exact exec_lsetin_micro h
  case lread => rw [exec_lread_micro h, State.sample_setPos]
  case delayus => exact exec_delayus_micro h n
  case sleepms => exact exec_sleepms_micro h n

end Sys2Proof.Machine
end

section
/-! SUPPORT. What one step of an instruction can do to each register, said once: the start step, a wait, an answer, or one
micro-step within the instruction's row of the access table (10_state.md R39). -/

namespace Sys2Proof.Machine

variable {s t u : State} {a b : Access}

/-! ## Accesses -/

/-- All that `a` allows, `b` allows. -/
def Access.le (a b : Access) : Bool :=
  (!a.lineDir || b.lineDir) && (!a.lineOut || b.lineOut) && (!a.lock || b.lock) && (!a.bitv || b.bitv)
    && (!a.smp || b.smp) && (!a.present || b.present) && (!a.byteRegs || b.byteRegs) && (!a.result || b.result)

/-- The line, the lock, the draws and the caller's registers are unchanged where the access does not allow a change: the
part of `WritesOnly` that depends on the access. -/
structure Within (a : Access) (s t : State) : Prop where
  lineDir : a.lineDir = false → t.lineDir = s.lineDir
  lineOut : a.lineOut = false → t.lineOut = s.lineOut
  lock : a.lock = false → t.lock = s.lock
  bitv : a.bitv = false → t.me.bitv = s.me.bitv
  smp : a.smp = false → t.me.smp = s.me.smp ∧ t.env = s.env
  present : a.present = false → t.me.present = s.me.present
  byteRegs : a.byteRegs = false → t.me.acc = s.me.acc ∧ t.me.idx = s.me.idx
  result : a.result = false → t.me.lo = s.me.lo ∧ t.me.hi = s.me.hi ∧ t.me.raw = s.me.raw

theorem Within.rfl (a : Access) (s : State) : Within a s s := by
  constructor <;> simp

theorem Within.trans (h : Within a s t) (k : Within a t u) : Within a s u where
  lineDir n := (k.lineDir n).trans (h.lineDir n)
  lineOut n := (k.lineOut n).trans (h.lineOut n)
  lock n := (k.lock n).trans (h.lock n)
  bitv n := (k.bitv n).trans (h.bitv n)
  smp n := ⟨(k.smp n).1.trans (h.smp n).1, (k.smp n).2.trans (h.smp n).2⟩
  present n := (k.present n).trans (h.present n)
  byteRegs n := ⟨(k.byteRegs n).1.trans (h.byteRegs n).1, (k.byteRegs n).2.trans (h.byteRegs n).2⟩
  result n :=
    have ⟨hlo, hhi, hraw⟩ := h.result n
    have ⟨klo, khi, kraw⟩ := k.result n
    ⟨klo.trans hlo, khi.trans hhi, kraw.trans hraw⟩

theorem Within.mono (h : Within a s t) (hab : a.le b = true) : Within b s t := by
  have flag : ∀ x y : Bool, (!x || y) = true → y = false → x = false := by decide
  simp only [Access.le, Bool.and_eq_true] at hab
  obtain ⟨⟨⟨⟨⟨⟨⟨hdir, hout⟩, hlock⟩, hbitv⟩, hsmp⟩, hpresent⟩, hbyte⟩, hresult⟩ := hab
  exact ⟨fun n => h.lineDir (flag _ _ hdir n), fun n => h.lineOut (flag _ _ hout n), fun n => h.lock (flag _ _ hlock n),
    fun n => h.bitv (flag _ _ hbitv n), fun n => h.smp (flag _ _ hsmp n), fun n => h.present (flag _ _ hpresent n),
    fun n => h.byteRegs (flag _ _ hbyte n), fun n => h.result (flag _ _ hresult n)⟩

/-- The frame of an operation: what does not depend on the access, and what does. -/
theorem writesOnly_of_within (ho : Own s t) (hw : Within a s t)
    (he : t.env.moves = s.env.moves ∧ t.env.moved = s.env.moved) : WritesOnly a s t :=
  ⟨ho.cfg, ho.cur, ho.len, ho.others, hw.lineDir, hw.lineOut, hw.lock, hw.bitv, hw.smp, hw.present, hw.byteRegs, hw.result,
    ho.port, he⟩

/-- A draw leaves the moves to come. -/
theorem Event.envOf_moves (e : Event) (v : Env) : (e.envOf v).moves = v.moves ∧ (e.envOf v).moved = v.moved := by
  cases e <;> exact ⟨Eq.refl _, Eq.refl _⟩

/-! ## The access of each shared operation -/

/-- The row of the request that is this one micro-step. -/
def Micro.access : Micro → Access
  | .setOut v => accessOf (.lsetout v)
  | .writeLvl v => accessOf (.lwrite v)
  | .setIn => accessOf .lsetin
  | .sample => accessOf .lread
  | .delayUs n => accessOf (.delayus n)

theorem State.micro_within (hs : s.cur < s.ctx.length) (m : Micro) : Within m.access s (s.micro m) := by
  cases m <;> constructor <;> simp [State.micro, Micro.access, accessOf, hs]

theorem State.setPos_within (hs : s.cur < s.ctx.length) (pos : List Frame) : Within a s (s.setPos pos) := by
  constructor <;> simp [hs]

theorem State.respond_within (hs : s.cur < s.ctx.length) (r : ResultCode) (d : BitVec 17) :
    Within a s (s.respond r d) := by
  constructor <;> simp [hs]

theorem recordPresence_within (hs : s.cur < s.ctx.length) : Within (accessOf .rstpd) s s.recordPresence := by
  constructor <;> simp [accessOf, hs]

theorem writeBitv_within (hs : s.cur < s.ctx.length) (l : Level) :
    Within { bitv := true } s (s.mapMe fun x => { x with bitv := l }) := by
  constructor <;> simp [hs]

theorem beginByte_within (hs : s.cur < s.ctx.length) (acc : Byte) : Within { byteRegs := true } s (s.beginByte acc) := by
  constructor <;> simp [hs]

theorem bitDone_within (hs : s.cur < s.ctx.length) (i : Nat) : Within { byteRegs := true } s (s.bitDone i) := by
  constructor <;> simp [hs]

theorem accumulate_within (hs : s.cur < s.ctx.length) (i : Nat) :
    Within { byteRegs := true } s (State.accumulate i s) := by
  constructor <;> simp [hs]

theorem storeLow_within (hs : s.cur < s.ctx.length) : Within (accessOf .sample) s s.storeLow := by
  constructor <;> simp [accessOf, hs]

theorem storeHigh_within (hs : s.cur < s.ctx.length) : Within (accessOf .sample) s s.storeHigh := by
  constructor <;> simp [accessOf, hs]

/-- A sequence's micro-steps stay within an access that covers each of them and what it adds to a Sample. -/
theorem runMicro_within (hs : s.cur < s.ctx.length) {seq : List Micro} {f : State → State} (k : Nat)
    (hseq : ∀ m ∈ seq, m.access.le a = true) (hf : ∀ t : State, t.cur < t.ctx.length → Within a t (f t)) :
    Within a s (runMicro seq f k s) := by
  unfold runMicro
  split
  next hm =>
    obtain ⟨_, hact, -, -⟩ := s.micro_act hs .sample
    exact ((s.micro_within hs _).mono (hseq _ (List.mem_of_getElem? hm))).trans (hf _ (hact.own.bound hs))
  next hm => exact (s.micro_within hs _).mono (hseq _ (List.mem_of_getElem? hm))
  · exact Within.rfl a s

theorem rstpdMicro_within (hs : s.cur < s.ctx.length) (k : Nat) : Within (accessOf .rstpd) s (rstpdMicro k s) :=
  runMicro_within hs k (by simp [rstpdSeq, Micro.access, accessOf, Access.le]) fun _ ht => recordPresence_within ht

theorem wbitMicro_within (hs : s.cur < s.ctx.length) (v w : Half) (k : Nat) :
    Within (accessOf (.wbit w)) s (wbitMicro v k s) := by
  have slot : ∀ (u : State) (l : Level), u.cur < u.ctx.length →
      Within (accessOf (.wbit w)) u (runMicro (wbitSeq u.cfg.timing l) id k u) := fun u l hu =>
    runMicro_within hu k (by simp [wbitSeq, Micro.access, accessOf, Access.le]) fun t _ => Within.rfl _ t
  unfold wbitMicro
  split
  · have hq := s.mapMe_own hs (fun x => { x with bitv := clamp v }) (Eq.refl _) id
    exact ((writeBitv_within hs _).mono (Eq.refl _)).trans (slot _ _ (hq.bound hs))
  · exact slot s _ hs

/-- A beginning and an end around a micro-step, as `act_between` has them. -/
theorem within_between {f g h : State → State} (hs : s.cur < s.ctx.length) (hf : Own s (f s) ∧ Within a s (f s))
    (hg : ∀ t : State, t.cur < t.ctx.length → Own t (g t) ∧ Within a t (g t))
    (hh : ∀ t : State, t.cur < t.ctx.length → Within a t (h t)) : Within a s (h (g (f s))) := by
  obtain ⟨hof, hwf⟩ := hf
  obtain ⟨hog, hwg⟩ := hg _ (hof.bound hs)
  exact (hwf.trans hwg).trans (hh _ (hog.bound (hof.bound hs)))

theorem rbitMicro_within (hs : s.cur < s.ctx.length) (k : Nat) : Within (accessOf .rbit) s (rbitMicro id k s) :=
  runMicro_within hs k (by simp [rbitSeq, Micro.access, accessOf, Access.le]) fun t _ => Within.rfl _ t

theorem wbyteMicro_within (hs : s.cur < s.ctx.length) (b c : Byte) {i k : Nat} (hk : k < 8) :
    Within (accessOf (.wbyte c)) s (wbyteMicro b i k s) :=
  within_between (f := fun s => if i = 0 ∧ k = 0 then s.beginByte b else s)
    (g := fun s => wbitMicro (maskedBit s.me.acc i) k s) (h := fun s => if k = 7 then s.bitDone i else s) hs
    (by
      split
      · exact ⟨(beginByte_quiet s b hs).1.own, (beginByte_within hs b).mono (Eq.refl _)⟩
      · exact ⟨Own.rfl s, Within.rfl _ s⟩)
    (fun t ht =>
      have ⟨_, hact, _⟩ := wbitMicro_act t ht hk
      ⟨hact.own, (wbitMicro_within ht _ 0 k).mono (Eq.refl _)⟩)
    (fun t ht => by
      split
      · exact (bitDone_within ht i).mono (Eq.refl _)
      · exact Within.rfl _ t)

theorem rbyteMicro_within (hs : s.cur < s.ctx.length) {i k : Nat} (hk : k < 6) :
    Within (accessOf .rbyte) s (rbyteMicro i k s) :=
  within_between (f := fun s => if i = 0 ∧ k = 0 then s.beginByte 0 else s)
    (g := fun s => rbitMicro (State.accumulate i) k s) (h := fun s => if k = 5 then s.bitDone i else s) hs
    (by
      split
      · exact ⟨(beginByte_quiet s 0 hs).1.own, (beginByte_within hs 0).mono (Eq.refl _)⟩
      · exact ⟨Own.rfl s, Within.rfl _ s⟩)
    (fun t ht =>
      have ⟨_, hact, _⟩ := rbitMicro_act t ht hk fun u hu => accumulate_quiet u i hu
      ⟨hact.own, runMicro_within ht k (by simp [rbitSeq, Micro.access, accessOf, Access.le]) fun u hu =>
        (accumulate_within hu i).mono (Eq.refl _)⟩)
    (fun t ht => by
      split
      · exact (bitDone_within ht i).mono (Eq.refl _)
      · exact Within.rfl _ t)

/-! ## Micro-steps -/

/-- Event `e` happened within an access, and the caller stands where it stood. `PRESENT` changed only with a Sample
(10_state.md R33), the lock was free if it was taken (44_lock.md R190), and nothing was answered. -/
structure MicroStep (a : Access) (s t : State) (e : Event) : Prop where
  act : Act s t e
  stays : Stays s t
  within : Within a s t
  present : t.me.present = s.me.present ∨
    ∃ v, t.trace = s.trace ++ [.sample s.cur v] ∧ t.me.present = presentOf v ∧ t.me.smp = v
  acquire : ∀ c, e = .acquire c → s.lock = .free
  respond : ∀ c w, e ≠ .respond c w

/-- A micro-step of the codec. -/
theorem codec_microStep (h : ∃ e, Act s t e ∧ e.isCodec = true ∧ Stays s t) (hw : Within a s t)
    (hp : t.me.present = s.me.present ∨
      ∃ v, t.trace = s.trace ++ [.sample s.cur v] ∧ t.me.present = presentOf v ∧ t.me.smp = v) :
    ∃ e, MicroStep a s t e := by
  obtain ⟨e, hact, hcodec, hst⟩ := h
  refine ⟨e, hact, hst, hw, hp, ?_, ?_⟩
  · rintro c rfl
    cases hcodec
  · rintro c w rfl
    cases hcodec

theorem line_microStep (hs : s.cur < s.ctx.length) (m : Micro) : ∃ e, MicroStep m.access s (s.micro m) e := by
  have hw := s.micro_within hs m
  exact codec_microStep (s.micro_act hs m) hw (.inl (hw.present (by cases m <;> exact Eq.refl _)))

/-- Only S6 of RSTPD changes `PRESENT`, as its Sample says. -/
theorem rstpdMicro_present (hs : s.cur < s.ctx.length) {k : Nat} (hk : k < 8) :
    (rstpdMicro k s).me.present = s.me.present ∨ ∃ v, (rstpdMicro k s).trace = s.trace ++ [.sample s.cur v] ∧
      (rstpdMicro k s).me.present = presentOf v ∧ (rstpdMicro k s).me.smp = v := by
  match k, hk with
  | 5, _ =>
    have he : rstpdMicro 5 s = s.sample.recordPresence := Eq.refl _
    have hsmp : s.sample.cur < s.sample.ctx.length := by simpa using hs
    exact .inr ⟨s.drawLevel, by simp [he, State.recordPresence_me _ hsmp, State.sample_me _ hs]⟩
  | 0, _ | 1, _ | 2, _ | 3, _ | 4, _ | 6, _ | 7, _ => exact .inl (Eq.refl _)
  | k + 8, hk => omega

theorem rstpdMicro_microStep (hs : s.cur < s.ctx.length) {k : Nat} (hk : k < 8) :
    ∃ e, MicroStep (accessOf .rstpd) s (rstpdMicro k s) e :=
  codec_microStep (rstpdMicro_act s hs hk) (rstpdMicro_within hs k) (rstpdMicro_present hs hk)

theorem wbitMicro_microStep (hs : s.cur < s.ctx.length) (v : Half) {k : Nat} (hk : k < 8) :
    ∃ e, MicroStep (accessOf (.wbit v)) s (wbitMicro v k s) e :=
  have hw := wbitMicro_within hs v v k
  codec_microStep (wbitMicro_act s hs hk) hw (.inl (hw.present (Eq.refl _)))

theorem rbitMicro_microStep (hs : s.cur < s.ctx.length) {k : Nat} (hk : k < 6) :
    ∃ e, MicroStep (accessOf .rbit) s (rbitMicro id k s) e :=
  have hw := rbitMicro_within hs k
  codec_microStep (rbitMicro_act s hs hk fun t _ => ⟨Quiet.rfl t, Stays.rfl t⟩) hw (.inl (hw.present (Eq.refl _)))

theorem wbyteMicro_microStep (hs : s.cur < s.ctx.length) (b c : Byte) {i k : Nat} (hi : i < 8) (hk : k < 8) :
    ∃ e, MicroStep (accessOf (.wbyte c)) s (wbyteMicro b i k s) e :=
  have hw := wbyteMicro_within hs b c hk
  codec_microStep (wbyteMicro_act s hs hi hk) hw (.inl (hw.present (Eq.refl _)))

theorem rbyteMicro_microStep (hs : s.cur < s.ctx.length) {i k : Nat} (hi : i < 8) (hk : k < 6) :
    ∃ e, MicroStep (accessOf .rbyte) s (rbyteMicro i k s) e :=
  have hw := rbyteMicro_within hs hk
  codec_microStep (rbyteMicro_act s hs hi hk) hw (.inl (hw.present (Eq.refl _)))

theorem acquire_microStep (ha : a.lock = true) (hl : s.lock = .free) : MicroStep a s s.acquire (.acquire s.cur) where
  act := s.acquire_act
  stays := Stays.of_ctx (Eq.refl _) (Eq.refl _)
  within := by constructor <;> simp [ha]
  present := .inl (Eq.refl _)
  acquire _ _ := hl
  respond _ _ := by simp

theorem release_microStep (ha : a.lock = true) : MicroStep a s s.release (.release s.cur) where
  act := s.release_act
  stays := Stays.of_ctx (Eq.refl _) (Eq.refl _)
  within := by constructor <;> simp [ha]
  present := .inl (Eq.refl _)
  acquire _ := by simp
  respond _ _ := by simp

theorem timeOut_microStep : MicroStep a s s.timeOut (.busy s.cur) where
  act := s.timeOut_act
  stays := Stays.of_ctx (Eq.refl _) (Eq.refl _)
  within := by constructor <;> simp
  present := .inl (Eq.refl _)
  acquire _ := by simp
  respond _ _ := by simp

theorem sleepMs_microStep (n : Half) : MicroStep a s (s.sleepMs n) (.sleepMs s.cur n) where
  act := s.sleepMs_act n
  stays := Stays.of_ctx (Eq.refl _) (Eq.refl _)
  within := by constructor <;> simp
  present := .inl (Eq.refl _)
  acquire _ := by simp
  respond _ _ := by simp

theorem MicroStep.mono {e : Event} (h : MicroStep a s t e) (hab : a.le b = true) : MicroStep b s t e :=
  { h with within := h.within.mono hab }

/-- What SAMPLE stores when a byte has been read leaves the rest of the micro-step. -/
theorem MicroStep.then_quiet {e : Event} (h : MicroStep a s t e) (hq : Quiet t u ∧ Stays t u) (hw : Within a t u)
    (hp : u.me.present = t.me.present) (hm : u.me.smp = t.me.smp) : MicroStep a s u e where
  act := h.act.then_quiet hq.1
  stays := h.stays.trans hq.2
  within := h.within.trans hw
  present := by rw [hp, hm, hq.1.trace]; exact h.present
  acquire := h.acquire
  respond := h.respond

/-! ## The steps of a running request -/

/-- One step of a running request: a wait, a micro-step and the position after it, or the answer. -/
inductive Runs (a : Access) (s : State) : State → Prop
  | wait : Runs a s s
  | micro {t : State} {e : Event} (h : MicroStep a s t e) (pos : List Frame) : Runs a s (t.setPos pos)
  | answer (r : ResultCode) (d : BitVec 17) : Runs a s (s.respond r d)

theorem sequence_runs {p : Proc} {n k : Nat} {inner : List Frame} {micro : Nat → State → State}
    {r : State → ResultCode} {d : State → BitVec 17} (hm : ∀ j, j < n → ∃ e, MicroStep a s (micro j s) e)
    (h : sequence p n micro (fun v => v.respond (r v) (d v)) k inner s = .next t) : Runs a s t := by
  obtain ⟨_, ⟨hk, rfl⟩ | ⟨_, rfl⟩⟩ := sequence_next h
  · exact .micro (hm k hk).choose_spec _
  · exact .answer _ _

theorem byteRequest_runs {p q : Proc} {n i : Nat} {inner : List Frame} {micro : Nat → Nat → State → State}
    {r : State → ResultCode} {d : State → BitVec 17}
    (hm : ∀ i k, i < 8 → k < n → ∃ e, MicroStep a s (micro i k s) e)
    (h : byteRequest p q n micro (fun v => v.respond (r v) (d v)) i inner s = .next t) : Runs a s t := by
  obtain rfl | ⟨k, pos, hi, hk, rfl⟩ := byteRequest_next h
  · exact .answer _ _
  · exact .micro (hm i k hi hk).choose_spec _

theorem acquireBody_runs {p : Proc} {bounded : Bool} {k : Nat} {inner : List Frame} (ha : a.lock = true)
    (h : acquireBody p bounded k inner s = .next t) : Runs a s t := by
  obtain ⟨hl, rfl⟩ | ⟨_, _, rfl⟩ | rfl | rfl | rfl := acquireBody_next h
  · exact .micro (acquire_microStep ha hl) _
  · exact .micro timeOut_microStep _
  · exact .wait
  · exact .answer _ _
  · exact .answer _ _

theorem sampleBody_runs {j : Nat} {inner : List Frame} (hs : s.cur < s.ctx.length)
    (h : sampleBody j inner s = .next t) : Runs (accessOf .sample) s t := by
  obtain ⟨k, pos, hk, rfl⟩ | ⟨b, i, k, pos, hi, hk, rfl⟩ | ⟨i, k, pos, hi, hk, ht⟩ | ⟨pos, hl, rfl⟩ | ⟨pos, _, rfl⟩
    | ⟨pos, rfl⟩ | ⟨n, pos, rfl⟩ | rfl | ⟨r, d, rfl⟩ := sampleBody_next h
  · obtain ⟨e, he⟩ := rstpdMicro_microStep hs hk
    exact .micro (he.mono (Eq.refl _)) pos
  · obtain ⟨e, he⟩ := wbyteMicro_microStep hs b b hi hk
    exact .micro (he.mono (Eq.refl _)) pos
  · obtain ⟨e, he⟩ := rbyteMicro_microStep hs hi hk
    have hu := he.act.own.bound hs
    replace he : MicroStep (accessOf .sample) s (rbyteMicro i k s) e := he.mono (Eq.refl _)
    obtain rfl | rfl | rfl := ht
    · exact .micro he pos
    · exact .micro (he.then_quiet (storeLow_quiet hu) (storeLow_within hu) (by simp [hu]) (by simp [hu])) pos
    · exact .micro (he.then_quiet (storeHigh_quiet hu) (storeHigh_within hu) (by simp [hu]) (by simp [hu])) pos
  · exact .micro (acquire_microStep (Eq.refl _) hl) pos
  · exact .micro timeOut_microStep pos
  · exact .micro (release_microStep (Eq.refl _)) pos
  · exact .micro (sleepMs_microStep n) pos
  · exact .wait
  · exact .answer r d

/-- Where SAMPLE stands at the call that sends a wire command, its step writes what the write of a byte writes. -/
theorem sampleBody_runs_command {j : Nat} {inner : List Frame} {k : WireCmd} (hs : s.cur < s.ctx.length)
    (hj : (samplePlan s.cfg.holdLock)[j]? = some (.command k)) (h : sampleBody j inner s = .next t) (c : Byte) :
    Runs (accessOf (.wbyte c)) s t := by
  simp only [sampleBody, hj, sampleItem, sampleCall] at h
  split at h
  next hc =>
    obtain ⟨i, m, hi, hm, rfl⟩ := callByte_some hc
    cases h
    exact .micro (wbyteMicro_microStep hs _ c hi hm).choose_spec _
  next hc =>
    obtain ⟨i, m, hi, hm, rfl⟩ := callByte_some hc
    cases h
    exact .micro (wbyteMicro_microStep hs _ c hi hm).choose_spec _
  · cases h

/-- A position at which SAMPLE sends a wire command. -/
theorem commandAt_eq_some {g : Config} {pos : List Frame} {k : WireCmd} (h : commandAt g pos = some k) :
    ∃ f inner, pos = f :: inner ∧ f.proc = .sample ∧ (samplePlan g.holdLock)[f.index]? = some (.command k) := by
  unfold commandAt at h
  split at h
  · cases h
  next f inner =>
    split at h
    next hf =>
      split at h
      next c hc =>
        cases h
        exact ⟨f, inner, Eq.refl _, hf, hc⟩
      · cases h
    · cases h

/-! ## Every instruction -/

/-- One step of an instruction: the start step of an IDLE caller, or a step of its running request. -/
def Steps (a : Access) (s t : State) : Prop :=
  s.Live ∧ ((s.me.status = .idle ∧ ∃ w p cause, t = s.start w p cause) ∨ (s.me.status = .busy ∧ Runs a s t))

theorem request_steps {w : Word} {p : Proc} {check : State → Option FaultCause} {body : Nat → List Frame → State → Out}
    (h : request w p check body s = .next t)
    (hbody : ∀ k inner, s.cur < s.ctx.length → body k inner s = .next t → Runs a s t) : Steps a s t := by
  obtain ⟨hl, ⟨hi, rfl⟩ | ⟨hb, f, inner, _, _, hr⟩⟩ := request_next h
  · exact ⟨hl, .inl ⟨hi, _, _, _, Eq.refl _⟩⟩
  · exact ⟨hl, .inr ⟨hb, hbody _ _ hl.2 hr⟩⟩

theorem writeByte_steps {b : Byte} (c : Byte) (h : writeByte b s = .next t) : Steps (accessOf (.wbyte c)) s t :=
  request_steps h fun _ _ hs hr => byteRequest_runs (fun _ _ hi hk => wbyteMicro_microStep hs b c hi hk) hr

theorem sendCommand_steps {k : WireCmd} (c : Byte) (h : sendCommand k s = .next t) :
    Steps (accessOf (.wbyte c)) s t := by
  unfold sendCommand at h
  split at h
  next hk =>
    obtain ⟨f, inner, hpos, _, hf⟩ := commandAt_eq_some hk.2
    obtain ⟨hl, ⟨hi, _⟩ | ⟨hb, g, gs, hpos', _, hr⟩⟩ := request_next h
    · exact absurd (hi.symm.trans hk.1) (by decide)
    · obtain ⟨rfl, -⟩ : g = f ∧ gs = inner := by simpa using hpos'.symm.trans hpos
      exact ⟨hl, .inr ⟨hb, sampleBody_runs_command hl.2 hf hr c⟩⟩
  · exact writeByte_steps c h

/-- EVERY STEP OF EVERY INSTRUCTION, in every state: the start step, or a step of the running request within the
instruction's row of the access table. -/
theorem exec_steps (i : Instr) (h : exec i s = .next t) : Steps (accessOf i) s t := by
  cases i with
  | lsetout l => exact request_steps h fun _ _ hs => sequence_runs fun _ _ => line_microStep hs (.setOut l)
  | lwrite l => exact request_steps h fun _ _ hs => sequence_runs fun _ _ => line_microStep hs (.writeLvl l)
  | lsetin => exact request_steps h fun _ _ hs => sequence_runs fun _ _ => line_microStep hs .setIn
  | lread => exact request_steps h fun _ _ hs => sequence_runs fun _ _ => line_microStep hs .sample
  | delayus n => exact request_steps h fun _ _ hs => sequence_runs fun _ _ => line_microStep hs (.delayUs n)
  | sleepms n => exact request_steps h fun _ _ _ => sequence_runs fun _ _ => ⟨_, sleepMs_microStep n⟩
  | rstpd => exact request_steps h fun _ _ hs => sequence_runs fun _ hk => rstpdMicro_microStep hs hk
  | wbit v => exact request_steps h fun _ _ hs => sequence_runs fun _ hk => wbitMicro_microStep hs v hk
  | rbit => exact request_steps h fun _ _ hs => sequence_runs fun _ hk => rbitMicro_microStep hs hk
  | wbyte b => exact writeByte_steps b h
  | rbyte => exact request_steps h fun _ _ hs => byteRequest_runs fun _ _ hi hk => rbyteMicro_microStep hs hi hk
  | acq | tryacq b => exact request_steps h fun _ _ _ => acquireBody_runs (Eq.refl _)
  | rel => exact request_steps h fun _ _ _ => sequence_runs fun _ _ => ⟨_, release_microStep (Eq.refl _)⟩
  | sample => exact request_steps h fun _ _ hs => sampleBody_runs hs
  | decode r => exact request_steps h fun _ _ _ => sequence_runs fun _ hk => absurd hk (Nat.not_lt_zero _)
  | cmdSkipRom | cmdConvertT | cmdReadScratchpad => exact sendCommand_steps 0 h

end Sys2Proof.Machine
end

section
/-! SUPPORT. What an instruction leaves unchanged (10_state.md R39), and how it changes `LOCK` (R24) and `PRESENT` (R33):
O51, O52 and O53, each read off the steps of an instruction. -/

namespace Sys2Proof.Machine

variable {s t : State} {a : Access}

/-! ## The start step -/

/-- The start step changes the caller's own `STATE`, `REQ` and `POS`, and `FAULT` where its check fails. -/
theorem State.start_own (hs : s.cur < s.ctx.length) (w : Word) (p : Proc) (cause : Option FaultCause) :
    Own s (s.start w p cause) := by
  have hbegun := s.mapMe_own hs (fun x => { x with status := .busy, req := w, pos := [⟨p, 0⟩] }) (Eq.refl _) id
  cases cause with
  | none => exact hbegun
  | some f => exact hbegun.trans (Own.of_ctx (Eq.refl _) (Eq.refl _) (Eq.refl _))

theorem State.start_within (hs : s.cur < s.ctx.length) (w : Word) (p : Proc) (cause : Option FaultCause) :
    Within a s (s.start w p cause) := by
  cases cause <;> constructor <;> simp [State.start, hs]

theorem State.start_shared (w : Word) (p : Proc) (cause : Option FaultCause) :
    (s.start w p cause).lock = s.lock ∧ (s.start w p cause).trace = s.trace ∧ (s.start w p cause).env = s.env := by
  cases cause <;> exact ⟨Eq.refl _, Eq.refl _, Eq.refl _⟩

theorem State.start_regs (hs : s.cur < s.ctx.length) (w : Word) (p : Proc) (cause : Option FaultCause) :
    (s.start w p cause).me.present = s.me.present ∧ (s.start w p cause).me.resp = s.me.resp := by
  cases cause <;> simp [State.start, hs]

/-! ## The frame -/

/-- A step of a running request writes only what its access allows. -/
theorem Runs.writesOnly (h : Runs a s t) (hs : s.cur < s.ctx.length) : WritesOnly a s t := by
  cases h with
  | wait => exact writesOnly_of_within (Own.rfl s) (Within.rfl a s) ⟨Eq.refl _, Eq.refl _⟩
  | @micro u e h pos =>
    have hact := h.act.setPos hs pos
    have hu := h.act.own.bound hs
    exact writesOnly_of_within hact.own (h.within.trans (State.setPos_within hu pos))
      (hact.env ▸ e.envOf_moves s.env)
  | answer r d =>
    exact writesOnly_of_within (s.respond_act hs r d).own (State.respond_within hs r d) ⟨Eq.refl _, Eq.refl _⟩

theorem Steps.writesOnly (h : Steps a s t) : WritesOnly a s t := by
  obtain ⟨hl, ⟨_, w, p, cause, rfl⟩ | ⟨_, hr⟩⟩ := h
  · have henv := (State.start_shared (s := s) w p cause).2.2
    exact writesOnly_of_within (State.start_own hl.2 w p cause) (State.start_within hl.2 w p cause)
      ⟨congrArg Env.moves henv, congrArg Env.moved henv⟩
  · exact hr.writesOnly hl.2

/-- Settles O51: every step of an instruction is the start step or a step within its row of the access table. -/
theorem everyInstructionWritesOnlyItsAccess : Obligations.EveryInstructionWritesOnlyItsAccess :=
  fun i _ _ h => (exec_steps i h).writesOnly

/-! ## The lock -/

/-- The events that change the lock. -/
theorem Event.eq_acquire_or_release {e : Event} {l : Lock} (h : e.lockOf l ≠ l) :
    e = .acquire e.caller ∨ e = .release e.caller := by
  cases e with
  | acquire c => exact .inl (Eq.refl _)
  | release c => exact .inr (Eq.refl _)
  | setOut | writeLvl | setIn | sample | delayUs | sleepMs | busy | respond => exact absurd (Eq.refl _) h

/-- A micro-step that changes the lock took it when it was free, or freed it. -/
theorem MicroStep.lock_changes {e : Event} (h : MicroStep a s t e) (hne : t.lock ≠ s.lock) :
    (s.lock = .free ∧ t.lock = .held s.cur ∧ t.trace = s.trace ++ [.acquire s.cur])
      ∨ (t.lock = .free ∧ t.trace = s.trace ++ [.release s.cur]) := by
  have hlock := h.act.lock
  have htrace := h.act.trace
  rcases Event.eq_acquire_or_release (hlock ▸ hne) with he | he <;> rw [h.act.caller] at he <;> rw [he] at hlock htrace
  · exact .inl ⟨h.acquire _ he, hlock, htrace⟩
  · exact .inr ⟨hlock, htrace⟩

/-- Settles O52: of the steps of an instruction only an Acquire and a Release change the lock. -/
theorem lockChangesOnlyByItsMicroSteps : Obligations.LockChangesOnlyByItsMicroSteps := by
  intro i s t h hne
  obtain ⟨_, ⟨_, w, p, cause, rfl⟩ | ⟨_, hr⟩⟩ := exec_steps i h
  · exact absurd (State.start_shared w p cause).1 hne
  · cases hr with
    | wait => exact absurd (Eq.refl _) hne
    | micro hm pos => exact hm.lock_changes hne
    | answer r d => exact absurd (Eq.refl _) hne

/-! ## PRESENT -/

/-- Settles O53: of the steps of an instruction only a Sample changes `PRESENT`. -/
theorem presentFollowsTheSample : Obligations.PresentFollowsTheSample := by
  intro i s t h hne
  obtain ⟨hl, ⟨_, w, p, cause, rfl⟩ | ⟨_, hr⟩⟩ := exec_steps i h
  · exact absurd (State.start_regs hl.2 w p cause).1 hne
  · cases hr with
    | wait => exact absurd (Eq.refl _) hne
    | micro hm pos =>
      have hu := hm.act.own.bound hl.2
      rw [State.setPos_me _ _ hu] at hne ⊢
      exact hm.present.resolve_left hne
    | answer r d => exact absurd (by simp [hl.2]) hne

end Sys2Proof.Machine
end

section
/-! SUPPORT. What one step of the machine can do, said once (`Moves`), and what every step keeps: the configuration (O49),
the order of `TRACE` (O50), and `RESP` as the last response (O55). -/

namespace Sys2Proof.Machine

variable {s t : State} {a : Access}

/-! ## One step of the machine -/

/-- One step from `s`, the move taken from the environment: engine reset, a host's move on one port, a turn that passes, the
start step of a waiting word, or a step of a running request. -/
inductive Moves (s : State) : State → Prop
  | reset (h : s.nextMove = .engineReset) : Moves s s.afterMove.engineReset
  | host (c : Nat) (f : Ctx → Ctx) (h : ∀ x, (f x).resp = x.resp) : Moves s (s.afterMove.mapCtx c f)
  | pass (c : Nat) : Moves s (s.afterMove.as c)
  | start (c : Nat) (w : Word) (p : Proc) (cause : Option FaultCause) :
      Moves s ((s.afterMove.as c).fetched.start w p cause)
  | run (c : Nat) (a : Access) (t : State) (hc : c < s.ctx.length) (h : Runs a (s.afterMove.as c) t) : Moves s t

theorem hostPlace_next {c : Nat} {w : Word} (h : s.hostPlace c w = .next t) :
    t = s.mapCtx c fun x => { x with port := some w } := by
  unfold State.hostPlace at h
  split at h
  · cases h
  · split at h
    · cases h
    · split at h <;> cases h
      exact Eq.refl _

theorem hostTake_next {c : Nat} (h : s.hostTake c = .next t) : t = s.mapCtx c fun x => { x with ready := false } := by
  unfold State.hostTake at h
  split at h
  · cases h
  · split at h
    · cases h
    · split at h <;> cases h
      exact Eq.refl _

theorem hostReset_next (h : s.hostReset = .next t) : t = s.engineReset := by
  unfold State.hostReset at h
  split at h <;> cases h
  exact Eq.refl _

/-- A waiting word starts the request of its instruction, or a fault: nothing else. -/
theorem startWord_next {w : Word} (hi : s.fetched.me.status = .idle) (h : startWord w s = .next t) :
    ∃ v p cause, t = s.fetched.start v p cause := by
  unfold startWord at h
  split at h
  next i _ =>
    obtain ⟨_, ⟨_, hstart⟩ | ⟨hb, _⟩⟩ := exec_steps i h
    · exact hstart
    · exact absurd (hi.symm.trans hb) (by decide)
  · cases h
    exact ⟨_, _, _, Eq.refl _⟩

theorem runTurn_next {c : Nat} (h : runTurn c s = .next t) :
    t = s.as c ∨ (∃ w p cause, t = (s.as c).fetched.start w p cause)
      ∨ (c < s.ctx.length ∧ ∃ a, Runs a (s.as c) t) := by
  simp only [runTurn] at h
  split at h
  · cases h
  · split at h
    · cases h
      exact .inl (Eq.refl _)
    next hc =>
      have hc : (s.as c).cur < (s.as c).ctx.length := by simpa using hc
      split at h
      next hi =>
        split at h
        · exact .inr (.inl (startWord_next (by rwa [State.fetched_me _ hc]) h))
        · cases h
          exact .inl (Eq.refl _)
      next hb =>
        split at h
        next i _ =>
          obtain ⟨_, ⟨hi, _⟩ | ⟨_, hr⟩⟩ := exec_steps i h
          · exact absurd (hi.symm.trans hb) (by decide)
          · exact .inr (.inr ⟨hc, _, hr⟩)
        · cases h

/-- EVERY STEP OF THE MACHINE is one of these moves. -/
theorem step_moves (h : step s = .next t) : Moves s t := by
  unfold step runMove at h
  split at h
  next c _ =>
    obtain rfl | ⟨w, p, cause, rfl⟩ | ⟨hc, a, hr⟩ := runTurn_next h
    · exact .pass c
    · exact .start c w p cause
    · exact .run c a t hc hr
  · cases hostPlace_next h
    exact .host _ _ fun _ => Eq.refl _
  · cases hostTake_next h
    exact .host _ _ fun _ => Eq.refl _
  next hm =>
    cases hostReset_next h
    exact .reset hm

/-! ## The configuration -/

theorem State.start_cfg (w : Word) (p : Proc) (cause : Option FaultCause) : (s.start w p cause).cfg = s.cfg := by
  cases cause <;> exact Eq.refl _

/-- Settles O49: each move leaves the configuration. -/
theorem configurationIsReadOnly : Obligations.ConfigurationIsReadOnly := by
  intro s t h
  cases step_moves h with
  | reset _ => exact Eq.refl _
  | host c f _ => exact Eq.refl _
  | pass c => exact Eq.refl _
  | start c w p cause => exact State.start_cfg w p cause
  | run c a t hc hr => exact (hr.writesOnly hc).1

/-! ## TRACE -/

/-- A step of a running request waits, or appends one event of its caller. -/
theorem Runs.trace (h : Runs a s t) :
    t = s ∨ (t.cur = s.cur ∧ ∃ e, t.trace = s.trace ++ [e] ∧ e.caller = s.cur) := by
  cases h with
  | wait => exact .inl (Eq.refl _)
  | micro hm pos => exact .inr ⟨hm.act.own.cur, _, hm.act.trace, hm.act.caller⟩
  | answer r d => exact .inr ⟨Eq.refl _, _, Eq.refl _, Eq.refl _⟩

/-- Settles O50: each move but engine reset leaves `TRACE` or is a step of a running request, which waits or appends one
event. -/
theorem traceOnlyGrows : Obligations.TraceOnlyGrows := by
  refine ⟨Eq.refl _, fun s t h hne => ?_, fun i s t hb h => ?_⟩
  · cases step_moves h with
    | reset hr => exact absurd hr hne
    | host c f _ => exact .inl (Eq.refl _)
    | pass c => exact .inl (Eq.refl _)
    | start c w p cause => exact .inl (State.start_shared w p cause).2.1
    | run c a t hc hr =>
      obtain rfl | ⟨hcur, e, he, hcaller⟩ := hr.trace
      · exact .inl (Eq.refl _)
      · exact .inr ⟨e, he, hcaller.trans hcur.symm⟩
  · obtain rfl | ⟨e, he⟩ := exec_act i hb h
    · exact .inl (Eq.refl _)
    · exact .inr ⟨e, he.trace, he.caller⟩

/-! ## RESP -/

/-- An event that is no Respond of `c` leaves its last response. -/
theorem lastResponse_append_other {c : Nat} {e : Event} (h : ∀ w, e ≠ .respond c w) (es : List Event) :
    lastResponse c (es ++ [e]) = lastResponse c es := by
  induction es with
  | nil =>
    cases e with
    | respond d w =>
      have hd : d ≠ c := fun hd => h w (by rw [hd])
      simp [lastResponse, hd]
    | setOut | writeLvl | setIn | sample | delayUs | sleepMs | acquire | release | busy => exact Eq.refl _
  | cons x xs ih => simp only [List.cons_append, lastResponse, ih]

theorem lastResponse_append_respond (c : Nat) (w : Word) (es : List Event) :
    lastResponse c (es ++ [.respond c w]) = some w := by
  induction es with
  | nil => simp [lastResponse]
  | cons x xs ih => simp only [List.cons_append, lastResponse, ih]

/-- `RESP` of every caller is the word of its last Respond event. -/
def State.RespsTold (s : State) : Prop := ∀ (c : Nat) (x : Ctx), s.ctx[c]? = some x → x.resp = lastResponse c s.trace

/-- No caller of a reset engine has a response. -/
theorem resetWith_respsTold (cfg : Config) (env : Env) : (State.resetWith cfg env).RespsTold := by
  intro c x hx
  obtain ⟨-, rfl⟩ := List.mem_replicate.mp (List.mem_of_getElem? hx)
  exact Eq.refl _

/-- A change of a context that leaves `RESP`. -/
theorem State.RespsTold.mapCtx (h : s.RespsTold) (c : Nat) {f : Ctx → Ctx} (hf : ∀ x, (f x).resp = x.resp) :
    (s.mapCtx c f).RespsTold := by
  intro d x hx
  rw [State.mapCtx_ctx, List.getElem?_modify] at hx
  obtain ⟨y, hy, rfl⟩ := Option.map_eq_some_iff.mp hx
  refine Eq.trans ?_ (h d y hy)
  split
  · exact hf y
  · exact Eq.refl _

theorem State.RespsTold.start (h : s.RespsTold) (w : Word) (p : Proc) (cause : Option FaultCause) :
    (s.start w p cause).RespsTold := by
  have hbegun := h.mapCtx s.cur (f := fun x => { x with status := .busy, req := w, pos := [⟨p, 0⟩] }) fun _ => Eq.refl _
  cases cause <;> exact hbegun

/-- Where only the stepping caller's context changed, it is enough that `RESP` of that caller is told, and that `TRACE` tells
the others nothing new. -/
theorem State.RespsTold.of_own (h : s.RespsTold) (hs : s.cur < s.ctx.length) (ho : Own s t)
    (hothers : ∀ d, d ≠ s.cur → lastResponse d t.trace = lastResponse d s.trace)
    (hme : t.me.resp = lastResponse s.cur t.trace) : t.RespsTold := by
  intro d x hx
  by_cases hd : d = s.cur
  · subst hd
    have hget := t.getElem?_me (ho.bound hs)
    rw [ho.cur] at hget
    obtain rfl : t.me = x := Option.some.inj (hget.symm.trans hx)
    exact hme
  · rw [hothers d hd]
    exact h d x ((ho.others d hd).symm.trans hx)

/-- A step of a running request answers, and then `RESP` is the word of its Respond event, or leaves `RESP` and appends no
Respond event. -/
theorem State.RespsTold.runs (h : s.RespsTold) (hs : s.cur < s.ctx.length) (hr : Runs a s t) : t.RespsTold := by
  cases hr with
  | wait => exact h
  | @micro u e hm pos =>
    have hact := hm.act.setPos hs pos
    have htold : ∀ d, lastResponse d (u.setPos pos).trace = lastResponse d s.trace := fun d => by
      rw [hact.trace, lastResponse_append_other (hm.respond d)]
    refine h.of_own hs hact.own (fun d _ => htold d) ?_
    rw [htold, State.setPos_me _ _ (hm.act.own.bound hs)]
    exact hm.stays.resp.trans (h _ _ (s.getElem?_me hs))
  | answer r d =>
    refine h.of_own hs (s.respond_act hs r d).own (fun c hc => ?_) ?_
    · rw [State.respond_trace]
      exact lastResponse_append_other (fun w he => hc (Event.respond.inj he).1.symm) _
    · rw [State.respond_trace, lastResponse_append_respond, State.respond_me _ _ _ hs]

/-- Settles O55: each move keeps `RESP` told. -/
theorem respIsTheLastResponse : Obligations.RespIsTheLastResponse := by
  refine ⟨resetWith_respsTold _ _, fun s t h ht => ?_⟩
  have hmove : ∀ c, (s.afterMove.as c).RespsTold := fun _ => h
  cases step_moves ht with
  | reset _ => exact resetWith_respsTold _ _
  | host c f hf => exact State.RespsTold.mapCtx (s := s.afterMove) h c hf
  | pass c => exact hmove c
  | start c w p cause =>
    exact ((hmove c).mapCtx c (f := fun x => { x with port := none }) fun _ => Eq.refl _).start w p cause
  | run c a t hc hr => exact (hmove c).runs hc hr

end Sys2Proof.Machine
end

section
/-! SUPPORT. A caller's turn: it runs the waiting request (O7) or the running instruction (O8), and under the invariant it
never finds its caller at a position no sequence has (O46). -/

namespace Sys2Proof.Machine

variable {s : State} {c : Nat}

/-! ## Turns -/

theorem step_turn (h : s.nextMove = .turn c) : step s = runTurn c s.afterMove := by
  simp only [step, h, runMove]

/-- The turn of a caller that exists, in a running engine: the facts `runTurn` asks of the state. -/
theorem as_live (hf : s.fault.cause = .none) {x : Ctx} (hx : s.ctx[c]? = some x) :
    (s.as c).Live ∧ (s.as c).me = x := by
  obtain ⟨hc, hget⟩ := List.getElem?_eq_some_iff.mp hx
  exact ⟨⟨hf, hc⟩, ((s.as c).me_eq hc).trans hget⟩

/-- A live caller passes both checks of `runTurn`. -/
theorem runTurn_checks (hl : (s.as c).Live) : (s.as c).faulted = false ∧ ¬ (s.as c).ctx.length ≤ c := live_iff.mp hl

theorem runTurn_pass (hr : (s.as c).AtRest) (hp : (s.as c).me.port = none) : runTurn c s = .next (s.as c) := by
  obtain ⟨hl, hi⟩ := hr
  obtain ⟨hf, hc⟩ := runTurn_checks hl
  simp only [runTurn, hf, hc, hi, hp, Bool.false_eq_true, if_false]

theorem runTurn_waiting {w : Word} (hr : (s.as c).AtRest) (hp : (s.as c).me.port = some w) :
    runTurn c s = startWord w (s.as c) := by
  obtain ⟨hl, hi⟩ := hr
  obtain ⟨hf, hc⟩ := runTurn_checks hl
  simp only [runTurn, hf, hc, hi, hp, Bool.false_eq_true, if_false]

theorem runTurn_running {i : Instr} (hl : (s.as c).Live) (hb : (s.as c).me.status = .busy)
    (hi : (s.as c).running = some i) : runTurn c s = exec i (s.as c) := by
  obtain ⟨hf, hc⟩ := runTurn_checks hl
  simp only [runTurn, hf, hc, hb, hi, Bool.false_eq_true, if_false]

theorem startWord_of_ok {w : Word} {i : Instr} (h : decodeRequest w = .ok i) : startWord w s = exec i s.fetched := by
  simp only [startWord, h]

/-- Settles O7: the turn passes both checks, finds the waiting word and starts the instruction it decodes to. -/
theorem stepRunsTheWaitingRequest : Obligations.StepRunsTheWaitingRequest := by
  intro s c x w i hturn hf hx hidle hport hdecode
  obtain ⟨hl, hme⟩ := as_live (s := s.afterMove) hf hx
  rw [← hme] at hidle hport
  rw [step_turn hturn, runTurn_waiting ⟨hl, hidle⟩ hport, startWord_of_ok hdecode]

/-! ## The running instruction -/

theorem running_of_commandAt_none {i : Instr} (h : commandAt s.cfg s.me.pos = none)
    (hi : decodeRequest s.me.req = .ok i) : s.running = some i := by
  simp only [State.running, h, hi, Except.toOption]

theorem running_of_commandAt_some {k : WireCmd} (h : commandAt s.cfg s.me.pos = some k) : s.running = some k.instr := by
  simp only [State.running, h]

/-- Where SAMPLE stands at the call that sends a wire command, the command's step is SAMPLE's (log 15). -/
theorem exec_command_eq_sample {k : WireCmd} (hb : s.me.status = .busy) (h : commandAt s.cfg s.me.pos = some k) :
    exec k.instr s = exec .sample s := by
  have hsend : exec k.instr s = sendCommand k s := by cases k <;> exact Eq.refl _
  rw [hsend, sendCommand, if_pos ⟨hb, h⟩]
  exact Eq.refl _

/-- Settles O8: the turn runs the instruction `State.running` names, and a wire command's step at SAMPLE's call is SAMPLE's. -/
theorem stepRunsTheRunningInstruction : Obligations.StepRunsTheRunningInstruction := by
  intro s c x hturn hf hx hbusy
  obtain ⟨hl, rfl⟩ := as_live (s := s.afterMove) hf hx
  refine ⟨fun i hnone hdecode => ?_, fun k hsome => ?_⟩
  · rw [step_turn hturn, runTurn_running hl hbusy (running_of_commandAt_none hnone hdecode)]
  · have hstep : step s = exec k.instr (s.afterMove.as c) := by
      rw [step_turn hturn, runTurn_running hl hbusy (running_of_commandAt_some hsome)]
    exact ⟨hstep, hstep.trans (exec_command_eq_sample hbusy hsome)⟩

/-! ## Positions -/

theorem seqNeed_proc {p : Proc} {n : Nat} {before after need : LockNeed} {f : Frame} {inner : List Frame}
    (h : seqNeed p n before after (f :: inner) = some need) : f.proc = p := by
  cases inner with
  | nil => by_contra hf; simp [seqNeed, hf] at h
  | cons => simp [seqNeed] at h

theorem byteNeed_proc {p q : Proc} {n : Nat} {need : LockNeed} {f : Frame} {inner : List Frame}
    (h : byteNeed p q n (f :: inner) = some need) : f.proc = p := by
  by_contra hf
  cases inner <;> simp [byteNeed, hf] at h

theorem acquireNeed_proc {p : Proc} {bounded : Bool} {need : LockNeed} {f : Frame} {inner : List Frame}
    (h : acquireNeed p bounded (f :: inner) = some need) : f.proc = p := by
  cases inner with
  | nil => by_contra hf; simp [acquireNeed, hf] at h
  | cons => simp [acquireNeed] at h

/-- Of all requests only SAMPLE has a position in SAMPLE's own frame. -/
theorem eq_sample_of_positionNeed {g : Config} {i : Instr} {f : Frame} {inner : List Frame} {need : LockNeed}
    (h : positionNeed g i (f :: inner) = some need) (hf : f.proc = .sample) : i = .sample := by
  cases i with
  | sample => exact Eq.refl _
  | lsetout | lwrite | lsetin | lread | delayus | sleepms | rstpd | wbit | rbit | rel | decode =>
    exact absurd (hf.symm.trans (seqNeed_proc h)) (by decide)
  | wbyte | rbyte => exact absurd (hf.symm.trans (byteNeed_proc h)) (by decide)
  | acq | tryacq => exact absurd (hf.symm.trans (acquireNeed_proc h)) (by decide)
  | cmdSkipRom | cmdConvertT | cmdReadScratchpad => cases h

/-- What a caller that stands well stands at. -/
theorem standsWell_cases {g : Config} {l : Lock} {x : Ctx} (h : standsWell g l c x = true) :
    ∃ i need, decodeRequest x.req = .ok i ∧ positionNeed g i x.pos = some need ∧ needMet need l c = true := by
  unfold standsWell at h
  split at h
  next i hi =>
    split at h
    next need hneed => exact ⟨i, need, hi, hneed, h⟩
    · cases h
  · cases h

/-- A running caller that stands well runs an instruction, and its step answers a next state. -/
theorem exec_running_next (hl : s.Live) (hb : s.me.status = .busy) (h : standsWell s.cfg s.lock s.cur s.me = true) :
    ∃ i t, s.running = some i ∧ exec i s = .next t := by
  obtain ⟨i, need, hi, hneed, hmet⟩ := standsWell_cases h
  obtain ⟨t, ht, -⟩ := exec_proceeds hl hb i hneed hmet
  cases hk : commandAt s.cfg s.me.pos with
  | none => exact ⟨i, t, running_of_commandAt_none hk hi, ht⟩
  | some k =>
    obtain ⟨f, inner, hpos, hf, -⟩ := commandAt_eq_some hk
    obtain rfl := eq_sample_of_positionNeed (hpos ▸ hneed) hf
    exact ⟨k.instr, t, running_of_commandAt_some hk, (exec_command_eq_sample hb hk).trans ht⟩

/-- The start of every instruction is a next state. -/
theorem exec_idle_next (hr : s.AtRest) (i : Instr) : ∃ t, exec i s = .next t := by
  have send : ∀ k, ∃ t, sendCommand k s = .next t := fun k => by
    rw [sendCommand, if_neg (by simp [hr.2])]
    exact ⟨_, request_idle hr ..⟩
  cases i with
  | cmdSkipRom => exact send .skipRom
  | cmdConvertT => exact send .convertT
  | cmdReadScratchpad => exact send .readScratchpad
  | lsetout | lwrite | lsetin | lread | delayus | sleepms | rstpd | wbit | rbit | wbyte | rbyte | acq | tryacq | rel
  | sample | decode => exact ⟨_, request_idle hr ..⟩

/-! ## No step loses its position -/

theorem startWord_idle_next (hr : s.AtRest) (w : Word) : ∃ t, startWord w s = .next t := by
  cases hd : decodeRequest w with
  | error e => exact ⟨_, by simp only [startWord, hd]; exact Eq.refl _⟩
  | ok i =>
    obtain ⟨⟨hf, hc⟩, hi⟩ := hr
    have hr : s.fetched.AtRest := ⟨⟨hf, by simpa using hc⟩, by rwa [State.fetched_me _ hc]⟩
    rw [startWord_of_ok hd]
    exact exec_idle_next hr i

/-- What the invariant says of a running caller of a running engine. -/
theorem State.Inv.standsWell (h : s.Inv) (hl : s.Live) (hb : s.me.status = .busy) :
    standsWell s.cfg s.lock s.cur s.me = true := by
  obtain ⟨-, -, -, hctx⟩ := h
  have hwell := hctx _ _ (s.getElem?_me hl.2)
  have hf : s.faulted = false := (live_iff.mp hl).1
  simp only [ctxWell, hb, hf, Bool.and_eq_true, Bool.false_or] at hwell
  exact hwell.2.2

theorem runTurn_ne_badPosition (h : s.Inv) (c : Nat) : runTurn c s ≠ .fault .badPosition := by
  have has : (s.as c).Inv := h
  by_cases hf : s.fault.cause = .none
  · cases hx : s.ctx[c]? with
    | none =>
      have hf' : (s.as c).faulted = false := by simp [State.faulted, hf]
      simp [runTurn, hf', List.getElem?_eq_none_iff.mp hx]
    | some x =>
      obtain ⟨hl, -⟩ := as_live hf hx
      cases hst : (s.as c).me.status with
      | idle =>
        cases hp : (s.as c).me.port with
        | none => simp [runTurn_pass ⟨hl, hst⟩ hp]
        | some w =>
          obtain ⟨t, ht⟩ := startWord_idle_next ⟨hl, hst⟩ w
          simp [runTurn_waiting ⟨hl, hst⟩ hp, ht]
      | busy =>
        obtain ⟨i, t, hi, ht⟩ := exec_running_next hl hst (has.standsWell hl hst)
        simp [runTurn_running hl hst hi, ht]
  · have hf' : (s.as c).faulted = true := by simp [State.faulted, hf]
    simp [runTurn, hf']

theorem hostPlace_ne_badPosition (w : Word) : s.hostPlace c w ≠ .fault .badPosition := by
  unfold State.hostPlace
  split
  · simp
  · split
    · simp
    · split <;> simp

theorem hostTake_ne_badPosition : s.hostTake c ≠ .fault .badPosition := by
  unfold State.hostTake
  split
  · simp
  · split
    · simp
    · split <;> simp

theorem hostReset_ne_badPosition : s.hostReset ≠ .fault .badPosition := by
  unfold State.hostReset
  split <;> simp

/-- Settles O46: under the invariant a running caller stands at a position of its request, and no other move looks for one. -/
theorem noStepLosesItsPosition : Obligations.NoStepLosesItsPosition := by
  intro s h
  have ha : s.afterMove.Inv := h
  unfold step
  cases s.nextMove with
  | turn c => exact runTurn_ne_badPosition ha c
  | place c w => exact hostPlace_ne_badPosition w
  | take c => exact hostTake_ne_badPosition
  | engineReset => exact hostReset_ne_badPosition

end Sys2Proof.Machine
end

section
/-! SUPPORT. An instruction neither reads nor changes another caller's context (10_state.md R30): two states that differ in
that context alone are kept so by every shared operation and every request (O59). -/

namespace Sys2Proof.Machine

variable {d : Nat} {y : Ctx} {s s' : State}

/-! ## States that differ in another caller's context -/

/-- `s'` is `s` with `y` in place of the context of caller `d`, who is not the one that steps. -/
def Alike (d : Nat) (y : Ctx) (s s' : State) : Prop := d ≠ s.cur ∧ s' = { s with ctx := s.ctx.set d y }

/-- An operation takes such states to such states. -/
def Blind (d : Nat) (y : Ctx) (f : State → State) : Prop := ∀ s s', Alike d y s s' → Alike d y (f s) (f s')

/-- Two calls answer alike: the same frames, in such states. -/
inductive AlikeCall {α : Type} (d : Nat) (y : Ctx) : Option (State × α) → Option (State × α) → Prop
  | some {t t' : State} (h : Alike d y t t') (r : α) : AlikeCall d y (some (t, r)) (some (t', r))
  | none : AlikeCall d y none none

inductive AlikeGrab (d : Nat) (y : Ctx) : Grab → Grab → Prop
  | got {t t' : State} (h : Alike d y t t') : AlikeGrab d y (.got t) (.got t')
  | late {t t' : State} (h : Alike d y t t') : AlikeGrab d y (.late t) (.late t')
  | wait : AlikeGrab d y .wait .wait

/-- Two steps have the same outcome: the same fault or refusal, or next states of this kind. -/
inductive AlikeOut (d : Nat) (y : Ctx) : Out → Out → Prop
  | next {t t' : State} (h : Alike d y t t') : AlikeOut d y (.next t) (.next t')
  | fault (f : Fault) : AlikeOut d y (.fault f) (.fault f)
  | refused (r : Refusal) : AlikeOut d y (.refused r) (.refused r)

theorem Alike.cfg (h : Alike d y s s') : s'.cfg = s.cfg := by rw [h.2]

theorem Alike.cur (h : Alike d y s s') : s'.cur = s.cur := by rw [h.2]

theorem Alike.lock (h : Alike d y s s') : s'.lock = s.lock := by rw [h.2]

theorem Alike.faulted (h : Alike d y s s') : s'.faulted = s.faulted := by rw [h.2]; exact Eq.refl _

theorem Alike.holds (h : Alike d y s s') : s'.holds = s.holds := by rw [h.2]; exact Eq.refl _

theorem Alike.drawLevel (h : Alike d y s s') : s'.drawLevel = s.drawLevel := by rw [h.2]; exact Eq.refl _

theorem Alike.length (h : Alike d y s s') : s'.ctx.length = s.ctx.length := by rw [h.2]; exact List.length_set

theorem Alike.me (h : Alike d y s s') : s'.me = s.me := by
  obtain ⟨hd, rfl⟩ := h
  simp [State.me, List.getD, List.getElem?_set_ne hd]

/-! ## The shared operations -/

/-- A change of one context and the replacement of another commute. -/
theorem Alike.mapMe (h : Alike d y s s') (f : Ctx → Ctx) : Alike d y (s.mapMe f) (s'.mapMe f) := by
  obtain ⟨hd, rfl⟩ := h
  refine ⟨hd, ?_⟩
  simp only [State.mapMe, State.mapCtx, List.set_eq_modify, List.modify_modify_ne _ _ _ hd]

theorem Alike.setPos (h : Alike d y s s') (pos : List Frame) : Alike d y (s.setPos pos) (s'.setPos pos) := h.mapMe _

theorem Alike.emit (h : Alike d y s s') (e : Event) : Alike d y (s.emit e) (s'.emit e) := by
  obtain ⟨hd, rfl⟩ := h
  exact ⟨hd, Eq.refl _⟩

theorem Alike.sample (h : Alike d y s s') : Alike d y s.sample s'.sample := by
  have hdraw : Alike d y { s with env := s.env.afterDraw } { s' with env := s'.env.afterDraw } := by
    obtain ⟨hd, rfl⟩ := h
    exact ⟨hd, Eq.refl _⟩
  have hstep := (hdraw.mapMe fun x => { x with smp := s.drawLevel }).emit (.sample s.cur s.drawLevel)
  simpa only [State.sample, h.cur, h.drawLevel] using hstep

theorem Alike.micro (h : Alike d y s s') (m : Micro) : Alike d y (s.micro m) (s'.micro m) := by
  cases m with
  | sample => exact h.sample
  | setOut v | writeLvl v | setIn | delayUs n =>
    obtain ⟨hd, rfl⟩ := h
    exact ⟨hd, Eq.refl _⟩

theorem Alike.acquire (h : Alike d y s s') : Alike d y s.acquire s'.acquire := by
  obtain ⟨hd, rfl⟩ := h
  exact ⟨hd, Eq.refl _⟩

theorem Alike.release (h : Alike d y s s') : Alike d y s.release s'.release := by
  obtain ⟨hd, rfl⟩ := h
  exact ⟨hd, Eq.refl _⟩

theorem Alike.grab (h : Alike d y s s') (bounded : Bool) : AlikeGrab d y (s.grab bounded) (s'.grab bounded) := by
  unfold State.grab
  rw [h.lock, h.cur]
  split
  · exact .got h.acquire
  · split
    · unfold State.timeOut
      rw [h.cur]
      exact .late (h.emit _)
    · exact .wait

theorem Alike.respond (h : Alike d y s s') (r : ResultCode) (v : BitVec 17) :
    Alike d y (s.respond r v) (s'.respond r v) := by
  unfold State.respond
  rw [h.cur]
  exact (h.mapMe _).emit _

theorem Alike.start (h : Alike d y s s') (w : Word) (p : Proc) (cause : Option FaultCause) :
    Alike d y (s.start w p cause) (s'.start w p cause) := by
  have hbegun := h.mapMe fun x => { x with status := .busy, req := w, pos := [⟨p, 0⟩] }
  cases cause with
  | none => exact hbegun
  | some f => exact ⟨hbegun.1, by simp only [State.start, State.raise, hbegun.2]⟩

/-! ## Sequences and calls -/

theorem runMicro_blind {f : State → State} (hf : Blind d y f) (seq : List Micro) (k : Nat) :
    Blind d y (runMicro seq f k) := by
  intro s s' h
  unfold runMicro
  split
  · exact hf _ _ (h.micro _)
  · exact h.micro _
  · exact h

theorem rstpdMicro_blind (k : Nat) : Blind d y (rstpdMicro k) := by
  intro s s' h
  unfold rstpdMicro
  rw [h.cfg]
  exact runMicro_blind (fun _ _ ht => ht.mapMe _) _ k _ _ h

theorem wbitMicro_blind (v : Half) (k : Nat) : Blind d y (wbitMicro v k) := by
  have slot : ∀ t t', Alike d y t t' →
      Alike d y (runMicro (wbitSeq t.cfg.timing t.me.bitv) id k t) (runMicro (wbitSeq t'.cfg.timing t'.me.bitv) id k t') := by
    intro t t' ht
    rw [ht.cfg, ht.me]
    exact runMicro_blind (fun _ _ hu => hu) _ k _ _ ht
  intro s s' h
  unfold wbitMicro
  split
  · exact slot _ _ (h.mapMe _)
  · exact slot _ _ h

theorem rbitMicro_blind {f : State → State} (hf : Blind d y f) (k : Nat) : Blind d y (rbitMicro f k) := by
  intro s s' h
  unfold rbitMicro
  rw [h.cfg]
  exact runMicro_blind hf _ k _ _ h

/-- An operation done under a condition that does not depend on the state. -/
theorem blind_ite {f : State → State} (hf : Blind d y f) (p : Prop) [Decidable p] :
    Blind d y fun s => if p then f s else s := by
  intro s s' h
  by_cases hp : p
  · simpa only [if_pos hp] using hf s s' h
  · simpa only [if_neg hp] using h

theorem maskedWbit_blind (i k : Nat) : Blind d y fun s => wbitMicro (maskedBit s.me.acc i) k s := by
  intro s s' h
  simp only [h.me]
  exact wbitMicro_blind _ k s s' h

theorem beginByte_blind (acc : Byte) : Blind d y fun s => s.beginByte acc := fun _ _ h => h.mapMe _

theorem bitDone_blind (i : Nat) : Blind d y fun s => s.bitDone i := fun _ _ h => h.mapMe _

theorem wbyteMicro_blind (b : Byte) (i k : Nat) : Blind d y (wbyteMicro b i k) := fun s s' h =>
  blind_ite (bitDone_blind i) (k = 7) _ _ (maskedWbit_blind i k _ _ (blind_ite (beginByte_blind b) (i = 0 ∧ k = 0) s s' h))

theorem rbyteMicro_blind (i k : Nat) : Blind d y (rbyteMicro i k) := fun s s' h =>
  blind_ite (bitDone_blind i) (k = 5) _ _
    (rbitMicro_blind (fun _ _ ht => ht.mapMe _) k _ _ (blind_ite (beginByte_blind 0) (i = 0 ∧ k = 0) s s' h))

theorem callSeqAt_alike {micro : Nat → State → State} (hm : ∀ k, Blind d y (micro k)) (p : Proc) (n k : Nat)
    (h : Alike d y s s') : AlikeCall d y (callSeqAt p n micro k s) (callSeqAt p n micro k s') := by
  unfold callSeqAt
  split
  · exact .some (hm k _ _ h) _
  · split
    · exact .some (hm k _ _ h) _
    · exact .none

theorem callSeq_alike {micro : Nat → State → State} (hm : ∀ k, Blind d y (micro k)) (p : Proc) (n : Nat)
    (inner : List Frame) (h : Alike d y s s') :
    AlikeCall d y (callSeq p n micro inner s) (callSeq p n micro inner s') := by
  unfold callSeq
  split
  · exact callSeqAt_alike hm p n 0 h
  · split
    · exact callSeqAt_alike hm p n _ h
    · exact .none
  · exact .none

theorem byteBit_alike {micro : Nat → Nat → State → State} (hm : ∀ i k, Blind d y (micro i k)) (q : Proc) (n i : Nat)
    (inner : List Frame) (h : Alike d y s s') :
    AlikeCall d y (byteBit q n micro i inner s) (byteBit q n micro i inner s') := by
  unfold byteBit
  split
  · match callSeq q n (micro i) inner s, callSeq q n (micro i) inner s', callSeq_alike (hm i) q n inner h with
    | _, _, .some ht [] => exact .some ht _
    | _, _, .some ht (_ :: _) => exact .some ht _
    | _, _, .none => exact .none
  · exact .none

theorem callByteAt_alike {micro : Nat → Nat → State → State} (hm : ∀ i k, Blind d y (micro i k)) (p q : Proc) (n i : Nat)
    (rest : List Frame) (h : Alike d y s s') :
    AlikeCall d y (callByteAt p q n micro i rest s) (callByteAt p q n micro i rest s') := by
  unfold callByteAt
  match byteBit q n micro i rest s, byteBit q n micro i rest s', byteBit_alike hm q n i rest h with
  | _, _, .some ht (j, fs) =>
    by_cases hj : j = 8
    · simp only [if_pos hj]
      exact .some ht _
    · simp only [if_neg hj]
      exact .some ht _
  | _, _, .none => exact .none

theorem callByte_alike {micro : Nat → Nat → State → State} (hm : ∀ i k, Blind d y (micro i k)) (p q : Proc) (n : Nat)
    (inner : List Frame) (h : Alike d y s s') :
    AlikeCall d y (callByte p q n micro inner s) (callByte p q n micro inner s') := by
  unfold callByte
  split
  · exact callByteAt_alike hm p q n 0 [] h
  · split
    · exact callByteAt_alike hm p q n _ _ h
    · exact .none

/-! ## The bodies of requests -/

/-- A step has the same outcome whatever the other caller's context. -/
def BlindOut (d : Nat) (y : Ctx) (g : State → Out) : Prop := ∀ s s', Alike d y s s' → AlikeOut d y (g s) (g s')

theorem request_blind {check : State → Option FaultCause} {body : Nat → List Frame → State → Out} (w : Word) (p : Proc)
    (hcheck : ∀ s s', Alike d y s s' → check s' = check s) (hbody : ∀ k inner, BlindOut d y (body k inner)) :
    BlindOut d y (request w p check body) := by
  intro s s' h
  unfold request
  rw [h.faulted, h.length, h.cur, h.me, hcheck s s' h]
  split
  · exact .fault _
  split
  · exact .refused _
  split
  · exact .next (h.start w p _)
  · split
    · split
      · exact hbody _ _ s s' h
      · exact .fault _
    · exact .fault _

theorem sequence_blind {micro : Nat → State → State} {answer : State → State} (p : Proc) (n : Nat)
    (hm : ∀ k, Blind d y (micro k)) (ha : Blind d y answer) (k : Nat) (inner : List Frame) :
    BlindOut d y (sequence p n micro answer k inner) := by
  intro s s' h
  unfold sequence
  split
  · split
    · exact .next ((hm k _ _ h).setPos _)
    · split
      · exact .next (ha _ _ h)
      · exact .fault _
  · exact .fault _

theorem byteRequest_blind {micro : Nat → Nat → State → State} {answer : State → State} (p q : Proc) (n : Nat)
    (hm : ∀ i k, Blind d y (micro i k)) (ha : Blind d y answer) (i : Nat) (inner : List Frame) :
    BlindOut d y (byteRequest p q n micro answer i inner) := by
  intro s s' h
  unfold byteRequest
  split
  · exact .next (ha _ _ h)
  · match byteBit q n micro i inner s, byteBit q n micro i inner s', byteBit_alike hm q n i inner h with
    | _, _, .some ht (_, _) => exact .next (ht.setPos _)
    | _, _, .none => exact .fault _

theorem acquireBody_blind (p : Proc) (bounded : Bool) (k : Nat) (inner : List Frame) :
    BlindOut d y (acquireBody p bounded k inner) := by
  intro s s' h
  unfold acquireBody
  split
  · exact .fault _
  · split
    · match s.grab bounded, s'.grab bounded, h.grab bounded with
      | _, _, .got ht => exact .next (ht.setPos _)
      | _, _, .late ht => exact .next (ht.setPos _)
      | _, _, .wait => exact .next h
    · exact .next (h.respond _ _)
    · split
      · exact .next (h.respond _ _)
      · exact .fault _
    · exact .fault _

/-! ## SAMPLE -/

theorem sampleAcquire_blind (j : Nat) : BlindOut d y (sampleAcquire j) := by
  intro s s' h
  unfold sampleAcquire
  rw [h.cfg]
  match s.grab s.cfg.acquireBound.isSome, s'.grab s.cfg.acquireBound.isSome, h.grab s.cfg.acquireBound.isSome with
  | _, _, .got ht => exact .next (ht.setPos _)
  | _, _, .late ht => exact .next (ht.setPos _)
  | _, _, .wait => exact .next h

theorem samplePresence_blind (j : Nat) (inner : List Frame) : BlindOut d y (samplePresence j inner) := by
  intro s s' h
  unfold samplePresence
  rw [h.cfg]
  match callSeq .rstpd 8 rstpdMicro inner s, callSeq .rstpd 8 rstpdMicro inner s',
    callSeq_alike rstpdMicro_blind .rstpd 8 inner h with
  | _, _, .some (t := t) (t' := t') ht [] =>
    by_cases hp : t.me.present = 1
    · simp only [ht.me, if_pos hp]
      exact .next (ht.setPos _)
    · simp only [ht.me, if_neg hp]
      exact .next (ht.setPos _)
  | _, _, .some ht (_ :: _) => exact .next (ht.setPos _)
  | _, _, .none => exact .fault _

theorem sampleCall_alike {store : State → State} (hstore : Blind d y store) (j : Nat)
    {call call' : Option (State × List Frame)} (h : AlikeCall d y call call') :
    AlikeOut d y (sampleCall call store j) (sampleCall call' store j) := by
  match call, call', h with
  | _, _, .some ht [] => exact .next ((hstore _ _ ht).setPos _)
  | _, _, .some ht (_ :: _) => exact .next (ht.setPos _)
  | _, _, .none => exact .fault _

theorem sampleItem_blind (item : SampleItem) (j : Nat) (inner : List Frame) : BlindOut d y (sampleItem item j inner) := by
  intro s s' h
  unfold sampleItem
  split
  · exact samplePresence_blind j inner s s' h
  · rw [h.cfg]
    exact sampleCall_alike (fun _ _ ht => ht) j (callByte_alike (wbyteMicro_blind _) _ _ _ inner h)
  · exact sampleCall_alike (fun _ _ ht => ht.mapMe _) j (callByte_alike rbyteMicro_blind _ _ _ inner h)
  · exact sampleCall_alike (fun _ _ ht => ht.mapMe _) j (callByte_alike rbyteMicro_blind _ _ _ inner h)
  · exact sampleAcquire_blind j s s' h
  · exact .next (h.release.setPos _)
  · unfold State.sleepMs
    rw [h.cfg, h.cur]
    exact .next ((h.emit _).setPos _)
  · rw [h.me]
    exact .next (h.respond _ _)
  · exact .next (h.respond _ _)
  · exact .next (h.respond _ _)
  all_goals exact .fault _

theorem sampleBody_blind (j : Nat) (inner : List Frame) : BlindOut d y (sampleBody j inner) := by
  intro s s' h
  unfold sampleBody
  rw [h.cfg]
  split
  · exact sampleItem_blind _ j inner s s' h
  · exact .fault _

/-! ## Every instruction -/

theorem mustHold_blind (f : FaultCause) (s s' : State) (h : Alike d y s s') : mustHold f s' = mustHold f s := by
  rw [mustHold, mustHold, h.holds]

theorem mustNotHold_blind (s s' : State) (h : Alike d y s s') : mustNotHold s' = mustNotHold s := by
  rw [mustNotHold, mustNotHold, h.holds]

/-- An answer whose result and data come from the caller's own registers. -/
theorem respond_blind (r : Ctx → ResultCode) (v : Ctx → BitVec 17) : Blind d y fun t => t.respond (r t.me) (v t.me) := by
  intro t t' h
  simp only [h.me]
  exact h.respond _ _

theorem writeByte_blind (b : Byte) : BlindOut d y (writeByte b) :=
  request_blind _ _ (mustHold_blind _)
    (byteRequest_blind _ _ _ (wbyteMicro_blind b) (respond_blind (fun _ => .ok) fun _ => 0))

theorem execSample_blind : BlindOut d y execSample := request_blind _ _ mustNotHold_blind sampleBody_blind

theorem sendCommand_blind (k : WireCmd) : BlindOut d y (sendCommand k) := by
  intro s s' h
  unfold sendCommand
  rw [h.cfg, h.me]
  split
  · exact execSample_blind s s' h
  · exact writeByte_blind _ s s' h

/-- A request of one micro-step whose answer carries no data. -/
theorem oneStep_blind {check : State → Option FaultCause} {f : State → State} (w : Word) (p : Proc)
    (hcheck : ∀ s s', Alike d y s s' → check s' = check s) (hf : Blind d y f) :
    BlindOut d y (request w p check (sequence p 1 (fun _ => f) fun t => t.respond .ok 0)) :=
  request_blind w p hcheck (sequence_blind p 1 (fun _ => hf) (respond_blind (fun _ => .ok) fun _ => 0))

theorem exec_blind (i : Instr) : BlindOut d y (exec i) := by
  cases i with
  | lsetout l => exact oneStep_blind _ _ (mustHold_blind _) fun _ _ h => h.micro (.setOut l)
  | lwrite l => exact oneStep_blind _ _ (mustHold_blind _) fun _ _ h => h.micro (.writeLvl l)
  | lsetin => exact oneStep_blind _ _ (mustHold_blind _) fun _ _ h => h.micro .setIn
  | lread =>
    exact request_blind _ _ (mustHold_blind _) (sequence_blind _ _ (fun _ _ _ h => h.sample)
      (respond_blind (fun _ => .ok) fun x => x.smp.setWidth 17))
  | delayus n => exact oneStep_blind _ _ (fun _ _ _ => Eq.refl _) fun _ _ h => h.micro (.delayUs n)
  | sleepms n =>
    refine oneStep_blind _ _ (fun _ _ _ => Eq.refl _) fun s s' h => ?_
    unfold State.sleepMs
    rw [h.cur]
    exact h.emit _
  | rstpd =>
    exact request_blind _ _ (mustHold_blind _) (sequence_blind _ _ rstpdMicro_blind
      (respond_blind (fun x => presenceResult x.present) fun x => x.present.setWidth 17))
  | wbit v =>
    exact request_blind _ _ (mustHold_blind _) (sequence_blind _ _ (wbitMicro_blind v)
      (respond_blind (fun _ => .ok) fun _ => 0))
  | rbit =>
    exact request_blind _ _ (mustHold_blind _) (sequence_blind _ _ (rbitMicro_blind fun _ _ h => h)
      (respond_blind (fun _ => .ok) fun x => x.smp.setWidth 17))
  | wbyte b => exact writeByte_blind b
  | rbyte =>
    exact request_blind _ _ (mustHold_blind _) (byteRequest_blind _ _ _ rbyteMicro_blind
      (respond_blind (fun _ => .ok) fun x => x.acc.setWidth 17))
  | acq | tryacq b => exact request_blind _ _ mustNotHold_blind (acquireBody_blind _ _)
  | rel => exact oneStep_blind _ _ (mustHold_blind _) fun _ _ h => h.release
  | sample => exact execSample_blind
  | decode r =>
    exact request_blind _ _ (fun _ _ _ => Eq.refl _) (sequence_blind _ _ (fun _ _ _ h => h)
      (respond_blind (fun _ => .ok) fun _ => decodeData r))
  | cmdSkipRom => exact sendCommand_blind .skipRom
  | cmdConvertT => exact sendCommand_blind .convertT
  | cmdReadScratchpad => exact sendCommand_blind .readScratchpad

/-- Settles O59: no shared operation reads or changes a context but the stepping caller's. -/
theorem callersDoNotSeeEachOther : Obligations.CallersDoNotSeeEachOther := by
  intro i s d y hd
  match exec i s, exec i { s with ctx := s.ctx.set d y }, exec_blind i s _ ⟨hd, Eq.refl _⟩ with
  | _, _, .next ht => exact congrArg Host.Outcome.next ht.2
  | _, _, .fault f => exact Eq.refl _
  | _, _, .refused r => exact Eq.refl _

end Sys2Proof.Machine
end

section
/-! SUPPORT. Request words: decoding and encoding invert each other (30_encoding.md R70 to R74), what decodes is what is
legal, and an illegal word raises `ILLEGAL_REQUEST`. O1, O2 and O3. -/

namespace Sys2Proof

/-! ## Operands (R73) -/

/-- The high bits of an operand field are zero just if it is a narrower value, widened. -/
theorem extractLsb'_high_eq_zero_iff {n m : Nat} (hnm : n + m = 16) (x : Half) :
    x.extractLsb' n m = 0 ↔ ∃ y : BitVec n, y.setWidth 16 = x := by
  have hx : x.toNat < 2 ^ n * 2 ^ m := by rw [← Nat.pow_add, hnm]; exact x.isLt
  have hhigh : x.extractLsb' n m = 0 ↔ x.toNat < 2 ^ n := by
    rw [← BitVec.toNat_inj, BitVec.extractLsb'_toNat, Nat.shiftRight_eq_div_pow,
      Nat.mod_eq_of_lt (Nat.div_lt_of_lt_mul hx)]
    simp [Nat.div_eq_zero_iff]
  rw [hhigh]
  constructor
  · intro hlt
    refine ⟨x.setWidth n, BitVec.eq_of_toNat_eq ?_⟩
    rw [BitVec.toNat_setWidth, BitVec.toNat_setWidth, Nat.mod_eq_of_lt hlt, Nat.mod_eq_of_lt x.isLt]
  · rintro ⟨y, rfl⟩
    rw [BitVec.toNat_setWidth]
    exact (Nat.mod_le _ _).trans_lt y.isLt

/-- A value is the low bits of the operand field that holds it. -/
theorem extractLsb'_low_setWidth {n : Nat} (hn : n ≤ 16) (y : BitVec n) : (y.setWidth 16).extractLsb' 0 n = y := by
  rw [← BitVec.setWidth_eq_extractLsb' hn, BitVec.setWidth_setWidth_of_le _ hn, BitVec.setWidth_eq]

theorem noOperand_eq_ok_iff {imm : Half} {i j : Instr} : noOperand imm j = .ok i ↔ j = i ∧ imm = 0 := by
  unfold noOperand
  split
  next h => simp [h]
  next h => exact iff_of_false (by simp) fun hj => h hj.2

/-- An operand of `n` bits is read from its field just if it is what the field holds. -/
theorem narrowOperand_eq_ok_iff {n m : Nat} (hnm : n + m = 16) {imm : Half} {f : BitVec n → Instr} {i : Instr} :
    (if imm.extractLsb' n m = 0 then Except.ok (f (imm.extractLsb' 0 n)) else .error DecodeError.mustBeZero) = .ok i ↔
      ∃ y, f y = i ∧ y.setWidth 16 = imm := by
  split
  next h =>
    obtain ⟨y, rfl⟩ := (extractLsb'_high_eq_zero_iff hnm imm).mp h
    rw [extractLsb'_low_setWidth (by omega)]
    constructor
    · intro h
      exact ⟨y, Except.ok.inj h, rfl⟩
    · rintro ⟨z, rfl, hz⟩
      rw [← extractLsb'_low_setWidth (by omega) y, ← hz, extractLsb'_low_setWidth (by omega)]
  next h => exact iff_of_false (by simp) fun ⟨y, _, hy⟩ => h ((extractLsb'_high_eq_zero_iff hnm imm).mpr ⟨y, hy⟩)

theorem levelOperand_eq_ok_iff {imm : Half} {f : Level → Instr} {i : Instr} :
    levelOperand imm f = .ok i ↔ ∃ l, f l = i ∧ l.setWidth 16 = imm :=
  narrowOperand_eq_ok_iff (by omega)

theorem byteOperand_eq_ok_iff {imm : Half} {f : Byte → Instr} {i : Instr} :
    byteOperand imm f = .ok i ↔ ∃ b, f b = i ∧ b.setWidth 16 = imm :=
  narrowOperand_eq_ok_iff (by omega)

/-! ## Operations (R72) -/

/-- An operation code and an operand field are an instruction's just if it is the request that has them. -/
theorem decodeOp_eq_ok_iff {op : Nat} {imm : Half} {i : Instr} :
    decodeOp op imm = .ok i ↔ i.isRequest = true ∧ i.opcode.toNat = op ∧ i.imm = imm := by
  constructor
  · intro h
    unfold decodeOp at h
    split at h
    case h_1 | h_2 =>
      obtain ⟨l, rfl, rfl⟩ := levelOperand_eq_ok_iff.mp h
      exact ⟨rfl, rfl, rfl⟩
    case h_10 =>
      obtain ⟨b, rfl, rfl⟩ := byteOperand_eq_ok_iff.mp h
      exact ⟨rfl, rfl, rfl⟩
    case h_5 | h_6 | h_8 | h_13 | h_16 =>
      cases h
      exact ⟨rfl, rfl, rfl⟩
    case h_17 => cases h
    all_goals
      obtain ⟨rfl, rfl⟩ := noOperand_eq_ok_iff.mp h
      exact ⟨rfl, rfl, rfl⟩
  · rintro ⟨hr, rfl, rfl⟩
    cases i with
    | lsetout l | lwrite l => exact levelOperand_eq_ok_iff.mpr ⟨l, rfl, rfl⟩
    | wbyte b => exact byteOperand_eq_ok_iff.mpr ⟨b, rfl, rfl⟩
    | delayus | sleepms | wbit | tryacq | decode | lsetin | lread | rstpd | rbit | rbyte | acq | rel | sample => rfl
    | cmdSkipRom | cmdConvertT | cmdReadScratchpad => cases hr

/-! ## Words (R70, R71) -/

/-- A word is its three fields. -/
theorem word_eq_of_fields {w v : Word} (hop : opField w = opField v) (hrsv : rsvField w = rsvField v)
    (himm : immField w = immField v) : w = v := by
  refine BitVec.eq_of_getLsbD_eq fun j hj => ?_
  have field : ∀ {start len : Nat}, w.extractLsb' start len = v.extractLsb' start len → start ≤ j → j < start + len →
      w.getLsbD j = v.getLsbD j := by
    intro start len h hs hl
    have hbit := congrArg (fun x => x.getLsbD (j - start)) h
    simpa [BitVec.getLsbD_extractLsb', show j - start < len by omega, Nat.add_sub_cancel' hs] using hbit
  rcases (by omega : j < 16 ∨ 16 ≤ j ∧ j < 24 ∨ 24 ≤ j) with h | h | h
  · exact field himm (by omega) (by omega)
  · exact field hrsv (by omega) (by omega)
  · exact field hop (by omega) (by omega)

theorem requestWord_eq_iff {w : Word} {i : Instr} :
    requestWord i = w ↔ rsvField w = 0 ∧ i.opcode = opField w ∧ i.imm = immField w := by
  constructor
  · rintro rfl
    simp
  · rintro ⟨hrsv, hop, himm⟩
    exact word_eq_of_fields (by simp [hop]) (by simp [hrsv]) (by simp [himm])

/-- A word is one request's, and that request's word is it. -/
theorem decodeRequest_eq_ok_iff {w : Word} {i : Instr} :
    decodeRequest w = .ok i ↔ requestWord i = w ∧ i.isRequest = true := by
  rw [requestWord_eq_iff, decodeRequest]
  split
  next h => rw [decodeOp_eq_ok_iff, BitVec.toNat_inj, and_iff_right h, and_comm]
  next h => exact iff_of_false (by simp) fun hw => h hw.1.1

/-- Settles O2: a request word is the word of the request it decodes to. -/
theorem encodeInvertsDecode : Obligations.EncodeInvertsDecode := fun _ _ => decodeRequest_eq_ok_iff.mp

/-! ## Wire commands (R82) -/

theorem instr_of_wire {i : Instr} {c : WireCmd} (h : i.wire = some c) : c.instr = i := by
  cases i <;> cases h <;> rfl

theorem decodeWire_byte {k : Commands} (hk : k.wellFormed = true) (c : WireCmd) :
    decodeWire k (c.byte k) = .ok c.instr := by
  simp only [Commands.wellFormed, Bool.and_eq_true, decide_eq_true_eq] at hk
  obtain ⟨⟨hsc, hsr⟩, hcr⟩ := hk
  cases c with
  | skipRom => simp [decodeWire, WireCmd.byte, WireCmd.instr]
  | convertT => simp [decodeWire, WireCmd.byte, WireCmd.instr, hsc.symm]
  | readScratchpad => simp [decodeWire, WireCmd.byte, WireCmd.instr, hsr.symm, hcr.symm]

/-- Settles O1: a wire command is read back because the bytes are distinct, a request because its word is. -/
theorem decodeInvertsEncode : Obligations.DecodeInvertsEncode := by
  intro k i hk
  unfold encode
  split
  next c hc => rw [← instr_of_wire hc]; exact decodeWire_byte hk c
  next hnone => exact decodeRequest_eq_ok_iff.mpr ⟨rfl, by simp [Instr.isRequest, hnone]⟩

/-! ## Legality (R74) -/

/-- The five clauses of R74. -/
def LegalClauses (w : Word) : Prop :=
  let op := (w.extractLsb' 24 8).toNat
  w.extractLsb' 16 8 = 0 ∧ (0x01 ≤ op ∧ op ≤ 0x10)
    ∧ (op = 0x01 ∨ op = 0x02 → w.extractLsb' 1 15 = 0)
    ∧ (op = 0x03 ∨ op = 0x04 ∨ op = 0x07 ∨ op = 0x09 ∨ op = 0x0B ∨ op = 0x0C ∨ op = 0x0E ∨ op = 0x0F →
        w.extractLsb' 0 16 = 0)
    ∧ (op = 0x0A → w.extractLsb' 8 8 = 0)

theorem legal_iff (w : Word) : legal w = true ↔ LegalClauses w := by
  simp only [legal, LegalClauses, Bool.and_eq_true, Bool.or_eq_true, decide_eq_true_eq, Bool.not_eq_true',
    List.contains_eq_mem, List.mem_cons, List.not_mem_nil, or_false, decide_eq_false_iff_not, and_assoc,
    ← imp_iff_not_or]

/-- The operand field's bits are the word's. -/
theorem extractLsb'_immField (w : Word) {start len : Nat} (h : start + len ≤ 16) :
    (immField w).extractLsb' start len = w.extractLsb' start len := by
  ext j hj
  simp [immField, show start + j < 16 by omega]

theorem exists_ite_eq_ok {p : Prop} [Decidable p] {j : Instr} {e : DecodeError} :
    (∃ i, (if p then Except.ok j else .error e) = Except.ok i) ↔ p := by
  split <;> simp [*]

/-- The clauses of R74 that speak of the operation code and the operand field, as the decoder tests them. -/
theorem exists_decodeOp_eq_ok_iff (op : Nat) (imm : Half) : (∃ i, decodeOp op imm = .ok i) ↔
    (0x01 ≤ op ∧ op ≤ 0x10) ∧ (op = 0x01 ∨ op = 0x02 → imm.extractLsb' 1 15 = 0)
      ∧ (op = 0x03 ∨ op = 0x04 ∨ op = 0x07 ∨ op = 0x09 ∨ op = 0x0B ∨ op = 0x0C ∨ op = 0x0E ∨ op = 0x0F → imm = 0)
      ∧ (op = 0x0A → imm.extractLsb' 8 8 = 0) := by
  unfold decodeOp
  split
  case h_17 =>
    refine iff_of_false (by simp) ?_
    rintro ⟨⟨hlo, hhi⟩, -⟩
    interval_cases op <;> contradiction
  all_goals simp [noOperand, levelOperand, byteOperand, exists_ite_eq_ok]

/-- What decodes is what is legal. -/
theorem exists_decodeRequest_eq_ok_iff (w : Word) : (∃ i, decodeRequest w = .ok i) ↔ LegalClauses w := by
  have hop := exists_decodeOp_eq_ok_iff (opField w).toNat (immField w)
  rw [extractLsb'_immField w (by omega), extractLsb'_immField w (by omega)] at hop
  unfold decodeRequest
  split
  next h => exact hop.trans (and_iff_right h).symm
  next h => exact iff_of_false (by simp) fun hw => h hw.1

end Sys2Proof

namespace Sys2Proof.Machine

/-- A word that is no instruction faults where it starts (60_exceptions.md R236). -/
theorem isIllegal_of_decodeRequest_error {w : Word} (h : ∀ i, decodeRequest w ≠ .ok i) : IsIllegal w := by
  intro s c x hturn hf hx hidle hport
  obtain ⟨hl, rfl⟩ := as_live (s := s.afterMove) hf hx
  rw [step_turn hturn, runTurn_waiting ⟨hl, hidle⟩ hport, startWord]
  split
  next i hi => exact absurd hi (h i)
  next => rw [start_eq]

/-- Settles O3: a word decodes just if it meets the clauses, and one that does not decode faults at its start. -/
theorem illegalWordsFault : Obligations.IllegalWordsFault := by
  intro w
  have key := exists_decodeRequest_eq_ok_iff w
  exact ⟨key.mpr, fun hw => isIllegal_of_decodeRequest_error fun i hi => hw (key.mp ⟨i, hi⟩)⟩

end Sys2Proof.Machine
end

section
/-! SUPPORT. The assembler (30_encoding.md R79, R80): it emits requests, and every request can be written; so what it
emits is what is legal. O6, and the worked words and expansions of O4 and O5. -/

namespace Sys2Proof.Machine

/-! ## Numerals -/

/-- Every number is written by decimal digits, its last digit after those of its tenth. -/
theorem exists_decimal (n : Nat) : ∃ ds, numeralValue (.dec ds) = n := by
  induction n using Nat.strongRecOn with
  | ind n ih =>
    by_cases hn : n = 0
    · exact ⟨[], hn.symm⟩
    · obtain ⟨ds, hds⟩ := ih (n / 10) (by omega)
      refine ⟨ds ++ [⟨n % 10, Nat.mod_lt _ (by omega)⟩], ?_⟩
      simp only [numeralValue, List.foldl_concat] at hds ⊢
      omega

/-! ## Operands -/

theorem fitting_eq_some {bits : Nat} {operand : Option Numeral} {f : BitVec bits → Instr} {i : Instr}
    (h : fitting bits operand f = some i) : ∃ x, f x = i := by
  unfold fitting at h
  split at h
  · split at h
    · exact ⟨_, Option.some.inj h⟩
    · cases h
  · cases h

theorem bare_eq_some {operand : Option Numeral} {i j : Instr} (h : bare operand j = some i) : j = i := by
  cases operand with
  | none => exact Option.some.inj h
  | some v => cases h

/-- Every value of an operand can be written. -/
theorem exists_fitting {bits : Nat} (f : BitVec bits → Instr) (x : BitVec bits) :
    ∃ operand, fitting bits operand f = some (f x) := by
  obtain ⟨ds, hds⟩ := exists_decimal x.toNat
  exact ⟨some (.dec ds), by simp [fitting, hds, x.isLt]⟩

/-! ## Lines -/

/-- The assembler emits requests only. -/
theorem isRequest_of_assembleInstr {k : Commands} {name : AsmName} {operand : Option Numeral} {i : Instr}
    (h : assembleInstr k name operand = some i) : i.isRequest = true := by
  cases name with
  | lsetout | lwrite | delayus | sleepms | wbit | wbyte | tryacq | decode =>
    obtain ⟨x, rfl⟩ := fitting_eq_some h
    rfl
  | lsetin | lread | rstpd | rbit | rbyte | acq | rel | sample | llow | lhigh | lrelease | nop | skiprom | convert
  | rdscratch =>
    obtain rfl := bare_eq_some h
    rfl

/-- Every request can be written, under its own mnemonic. -/
theorem exists_assembleInstr (k : Commands) {i : Instr} (h : i.isRequest = true) :
    ∃ name operand, assembleInstr k name operand = some i := by
  cases i with
  | lsetout l => exact ⟨.lsetout, exists_fitting _ l⟩
  | lwrite l => exact ⟨.lwrite, exists_fitting _ l⟩
  | lsetin => exact ⟨.lsetin, none, rfl⟩
  | lread => exact ⟨.lread, none, rfl⟩
  | delayus n => exact ⟨.delayus, exists_fitting _ n⟩
  | sleepms n => exact ⟨.sleepms, exists_fitting _ n⟩
  | rstpd => exact ⟨.rstpd, none, rfl⟩
  | wbit v => exact ⟨.wbit, exists_fitting _ v⟩
  | rbit => exact ⟨.rbit, none, rfl⟩
  | wbyte b => exact ⟨.wbyte, exists_fitting _ b⟩
  | rbyte => exact ⟨.rbyte, none, rfl⟩
  | acq => exact ⟨.acq, none, rfl⟩
  | tryacq b => exact ⟨.tryacq, exists_fitting _ b⟩
  | rel => exact ⟨.rel, none, rfl⟩
  | sample => exact ⟨.sample, none, rfl⟩
  | decode r => exact ⟨.decode, exists_fitting _ r⟩
  | cmdSkipRom | cmdConvertT | cmdReadScratchpad => cases h

/-- Settles O6: the words the assembler emits are the words of requests, which are the words that decode, which are the
legal ones. -/
theorem assemblerEmitsExactlyTheLegalWords : Obligations.AssemblerEmitsExactlyTheLegalWords := by
  intro k w
  rw [legal_iff, ← exists_decodeRequest_eq_ok_iff]
  constructor
  · rintro ⟨name, operand, h⟩
    obtain ⟨i, hi, rfl⟩ := Option.map_eq_some_iff.mp h
    exact ⟨i, decodeRequest_eq_ok_iff.mpr ⟨rfl, isRequest_of_assembleInstr hi⟩⟩
  · rintro ⟨i, hi⟩
    obtain ⟨rfl, hr⟩ := decodeRequest_eq_ok_iff.mp hi
    obtain ⟨name, operand, h⟩ := exists_assembleInstr k hr
    exact ⟨name, operand, Option.map_eq_some_iff.mpr ⟨i, h, rfl⟩⟩

/-- Settles O5: each name's arm of the assembler is its expansion, and the words under the defaults are computed. -/
theorem pseudoInstructionsExpand : Obligations.PseudoInstructionsExpand :=
  ⟨fun _ => ⟨rfl, rfl, rfl, rfl, rfl, rfl, rfl⟩, by decide⟩

/-- Settles O4: every word is a literal, so the decoder computes its meaning. -/
theorem decodesTheWorkedWords : Obligations.DecodesTheWorkedWords := by
  unfold Obligations.DecodesTheWorkedWords
  decide

end Sys2Proof.Machine
end

section
/-! SUPPORT. The fields of a response word (30_encoding.md R76, R77), and what the surface is given of it
(45_temperature.md R215, R218). O41. -/

namespace Sys2Proof.Machine

/-- `STATUS` of a response word. -/
theorem responseWord_status (r : ResultCode) (d : BitVec 17) : (responseWord r d).extractLsb' 28 4 = statusCode r := by
  unfold responseWord
  ext j hj
  interval_cases j <;> simp

/-- The bits between `STATUS` and `DATA`. -/
theorem responseWord_reserved (r : ResultCode) (d : BitVec 17) : (responseWord r d).extractLsb' 17 11 = 0 := by
  unfold responseWord
  ext j hj
  interval_cases j <;> simp

/-- The low bits of `DATA`, up to all of them. -/
theorem responseWord_data (r : ResultCode) (d : BitVec 17) {n : Nat} (hn : n ≤ 17) :
    (responseWord r d).extractLsb' 0 n = d.setWidth n := by
  unfold responseWord
  ext j hj
  simp [show j < 28 by omega, show j < 32 by omega]

/-- Only an answer `OK` exposes anything, and it exposes the low half of `DATA`. -/
theorem exposedRaw_responseWord (r : ResultCode) (d : BitVec 17) :
    exposedRaw (responseWord r d) = if statusCode r = statusCode .ok then some (d.setWidth 16) else none := by
  rw [exposedRaw, responseWord_status, responseWord_data r d (by omega)]

/-- Settles O41: the fields of a response word, and its exposure by its `STATUS`. -/
theorem responseFields : Obligations.ResponseFields := by
  refine ⟨fun r d => ⟨responseWord_status r d, responseWord_reserved r d, ?data⟩, fun raw => ?exposed, fun d => ?none⟩
  case data => rw [responseWord_data r d (Nat.le_refl _), BitVec.setWidth_eq]
  case exposed =>
    rw [exposedRaw_responseWord, if_pos rfl, BitVec.setWidth_setWidth_of_le _ (by omega), BitVec.setWidth_eq]
  case none => exact ⟨(exposedRaw_responseWord ..).trans rfl, (exposedRaw_responseWord ..).trans rfl⟩

end Sys2Proof.Machine
end

section
/-! SUPPORT. Runs of several events: the events a run appended determine what became of the shared state (`Acts`), so a
run is known by its events and the caller's registers. -/

namespace Sys2Proof.Machine

variable {s t u : State}

/-- The events `es` of the stepping caller happened, and the shared state and the environment are what they make of
them. -/
structure Acts (s t : State) (es : List Event) : Prop where
  own : Own s t
  dir : t.lineDir = es.foldl (fun d e => e.dirOf d) s.lineDir
  out : t.lineOut = es.foldl (fun v e => e.outOf v) s.lineOut
  lock : t.lock = es.foldl (fun l e => e.lockOf l) s.lock
  fault : t.fault = s.fault
  trace : t.trace = s.trace ++ es
  env : t.env = es.foldl (fun v e => e.envOf v) s.env

theorem Acts.rfl (s : State) : Acts s s [] where
  own := Own.rfl s
  dir := Eq.refl _
  out := Eq.refl _
  lock := Eq.refl _
  fault := Eq.refl _
  trace := by simp
  env := Eq.refl _

theorem Acts.trans {es fs : List Event} (h : Acts s t es) (k : Acts t u fs) : Acts s u (es ++ fs) where
  own := h.own.trans k.own
  dir := by rw [k.dir, h.dir, List.foldl_append]
  out := by rw [k.out, h.out, List.foldl_append]
  lock := by rw [k.lock, h.lock, List.foldl_append]
  fault := k.fault.trans h.fault
  trace := by rw [k.trace, h.trace, List.append_assoc]
  env := by rw [k.env, h.env, List.foldl_append]

theorem Act.acts {e : Event} (h : Act s t e) : Acts s t [e] :=
  ⟨h.own, h.dir, h.out, h.lock, h.fault, h.trace, h.env⟩

theorem Acts.then_quiet {es : List Event} (h : Acts s t es) (k : Quiet t u) : Acts s u es where
  own := h.own.trans k.own
  dir := k.dir.trans h.dir
  out := k.out.trans h.out
  lock := k.lock.trans h.lock
  fault := k.fault.trans h.fault
  trace := k.trace.trans h.trace
  env := k.env.trans h.env

theorem Acts.live {es : List Event} (h : Acts s t es) (hl : s.Live) : t.Live :=
  ⟨(congrArg FaultReg.cause h.fault).trans hl.1, h.own.bound hl.2⟩

/-- The contexts after a run: the stepping caller's, and the others as before. -/
theorem Own.ctx_eq_modify (h : Own s t) (hs : s.cur < s.ctx.length) {f : Ctx → Ctx} (hf : t.me = f s.me) :
    t.ctx = s.ctx.modify s.cur f := by
  refine List.ext_getElem? fun d => ?_
  by_cases hd : s.cur = d
  · subst hd
    have hme := t.getElem?_me (h.bound hs)
    rw [h.cur] at hme
    simp [hme, s.getElem?_me hs, hf]
  · rw [h.others d (Ne.symm hd)]
    simp [hd]

/-- The state after a run, from its events and what it made of the caller's context. -/
theorem Acts.eq {es : List Event} (h : Acts s t es) (hs : s.cur < s.ctx.length) {f : Ctx → Ctx} (hf : t.me = f s.me) :
    t = { s with
      lineDir := es.foldl (fun d e => e.dirOf d) s.lineDir
      lineOut := es.foldl (fun v e => e.outOf v) s.lineOut
      lock := es.foldl (fun l e => e.lockOf l) s.lock
      trace := s.trace ++ es
      env := es.foldl (fun v e => e.envOf v) s.env
      ctx := s.ctx.modify s.cur f } := by
  rw [← h.dir, ← h.out, ← h.lock, ← h.fault, ← h.trace, ← h.env, ← h.own.cfg, ← h.own.ctx_eq_modify hs hf]
  conv_rhs => rw [← h.own.cur]

/-- A run by strides of `m` steps, each of which keeps an invariant. -/
theorem execTimes_of_invariant {i : Instr} {m N : Nat} {I : Nat → State → Prop}
    (hstride : ∀ n u, n < N → I n u → ∃ v, execTimes i m u = .next v ∧ I (n + 1) v) (h0 : I 0 s) :
    ∃ v, execTimes i (m * N) s = .next v ∧ I N v := by
  induction N with
  | zero => exact ⟨s, execTimes_zero i s, h0⟩
  | succ N ih =>
    obtain ⟨v, hrun, hI⟩ := ih fun n u hn => hstride n u (by omega)
    obtain ⟨w, hnext, hI'⟩ := hstride N v (by omega) hI
    exact ⟨w, (execTimes_add i (m * N) m hrun).trans hnext, hI'⟩

theorem execTimes_one {i : Instr} (h : exec i s = .next t) : execTimes i 1 s = .next t := by
  rw [execTimes_succ i 0 h, execTimes_zero]

end Sys2Proof.Machine
end

section
/-! SUPPORT. Writing a byte (41_bit_codec.md R124, 42_byte_codec.md R150): what each micro-step does, what a write slot
leaves and what the eight of them leave, for every instruction whose steps they are. -/

namespace Sys2Proof.Machine

variable {s t u : State}

/-! ## The micro-steps of a bit -/

/-- The level WBIT writes of WBYTE's masked value is the bit. -/
theorem clamp_maskedBit (acc : Byte) {i : Nat} (hi : i < 8) : clamp (maskedBit acc i) = acc.extractLsb' i 1 := by
  have hone : ∀ i < 8, clamp ((1#8 <<< i).setWidth 16) = 1 := by decide
  rw [maskedBit, ← BitVec.twoPow_eq, BitVec.and_twoPow, BitVec.getLsbD_eq_extractLsb', BitVec.twoPow_eq]
  rcases BitVec.eq_zero_or_eq_one (acc.extractLsb' i 1) with h | h
  · simp [h, clamp]
  · simpa [h] using hone i hi

/-- The first micro-step of bit `i`: the accumulator is loaded before bit 0, `BITV` takes the bit, and the line is
driven. -/
theorem wbyteMicro_first (b : Byte) (i : Nat) :
    wbyteMicro b i 0 s =
      let v := if i = 0 then s.beginByte b else s
      (v.mapMe fun x => { x with bitv := clamp (maskedBit v.me.acc i) }).setOut 1 := by
  simp only [wbyteMicro, and_true]
  rfl

/-- Between its first and its last micro-step a slot is micro-steps of the line alone. -/
theorem wbyteMicro_inner (b : Byte) (i : Nat) {k : Nat} (hk : 0 < k) (hk7 : k < 7) :
    wbyteMicro b i k s = runMicro (wbitSeq s.cfg.timing s.me.bitv) id k s := by
  simp only [wbyteMicro, wbitMicro, show k ≠ 0 by omega, show k ≠ 7 by omega, and_false, if_false]

theorem wbyteMicro_last (b : Byte) (i : Nat) : wbyteMicro b i 7 s = (s.delayUs s.cfg.timing.wRecUs).bitDone i := by
  simp only [wbyteMicro, wbitMicro, show (7 : Nat) ≠ 0 by omega, and_false, if_false]
  rfl

/-- What micro-step `k` of bit `i` makes of the caller's registers. -/
def slotRegs (b : Byte) (i k : Nat) (x : Ctx) : Ctx :=
  if k = 0 then
    if i = 0 then { x with acc := b, idx := 0, bitv := b.extractLsb' i 1 } else { x with bitv := x.acc.extractLsb' i 1 }
  else if k = 7 then { x with idx := i + 1 }
  else x

theorem wbyteMicro_me (hs : s.cur < s.ctx.length) (b : Byte) {i k : Nat} (hi : i < 8) (hk : k < 8) :
    (wbyteMicro b i k s).me = slotRegs b i k s.me := by
  match k, hk with
  | 0, _ =>
    rw [wbyteMicro_first]
    by_cases h : i = 0
    · subst h
      have hbegin : (s.beginByte b).cur < (s.beginByte b).ctx.length := by simpa using hs
      simp [slotRegs, hs, State.mapMe_me _ _ hbegin, clamp_maskedBit b hi]
    · simp [slotRegs, h, hs, clamp_maskedBit _ hi]
  | 7, _ =>
    rw [wbyteMicro_last]
    exact State.bitDone_me (s.delayUs s.cfg.timing.wRecUs) i hs
  | 1, _ | 2, _ | 3, _ | 4, _ | 5, _ | 6, _ => rw [wbyteMicro_inner b i (by omega) (by omega)]; rfl
  | k + 8, hk => omega

theorem wbyteMicro_trace (b : Byte) (i : Nat) {k : Nat} (hk : k < 8) :
    (wbyteMicro b i k s).trace = s.trace ++ ((wbitEvents s.cfg.timing s.cur s.me.bitv).drop k).take 1 := by
  match k, hk with
  | 0, _ => rw [wbyteMicro_first]; split <;> rfl
  | 7, _ => rw [wbyteMicro_last]; rfl
  | 1, _ | 2, _ | 3, _ | 4, _ | 5, _ | 6, _ => rw [wbyteMicro_inner b i (by omega) (by omega)]; rfl
  | k + 8, hk => omega

/-- The event of micro-step `k` is the one of its place in the slot of level `v`, if `BITV` is `v` once it is
written. -/
theorem wbyteMicro_acts (hs : s.cur < s.ctx.length) (b : Byte) {i k : Nat} (hi : i < 8) (hk : k < 8) {v : Level}
    (hv : k = 0 ∨ s.me.bitv = v) :
    Acts s (wbyteMicro b i k s) (((wbitEvents s.cfg.timing s.cur v).drop k).take 1) := by
  obtain ⟨e, hact, -, -⟩ := wbyteMicro_act s hs (b := b) hi hk
  have htrace := hact.trace.symm.trans (wbyteMicro_trace b i hk)
  have hevent : [e] = ((wbitEvents s.cfg.timing s.cur v).drop k).take 1 := by
    rcases hv with rfl | rfl <;> exact List.append_cancel_left htrace
  exact hevent ▸ hact.acts

/-! ## A slot -/

/-- The caller's context when `k` micro-steps of bit `i` of byte `b` are done, the accumulator holding `b` from bit 0
on. -/
def slotCtx (b : Byte) (i k : Nat) (x : Ctx) : Ctx :=
  if k = 0 then x
  else { x with acc := b, bitv := b.extractLsb' i 1, idx := if k = 8 then i + 1 else if i = 0 then 0 else x.idx }

/-- From `s` to `u`, `k` micro-steps of bit `i` of byte `b` were done, and the caller stands where `P` says. -/
structure InSlot (s : State) (b : Byte) (i : Nat) (P : Nat → List Frame) (k : Nat) (u : State) : Prop where
  acts : Acts s u ((wbitEvents s.cfg.timing s.cur (b.extractLsb' i 1)).take k)
  me : u.me = { slotCtx b i k s.me with pos := P k }

theorem slotCtx_status (b : Byte) (i k : Nat) (x : Ctx) : (slotCtx b i k x).status = x.status := by
  unfold slotCtx
  split <;> rfl

theorem slotCtx_bitv (b : Byte) (i : Nat) {k : Nat} (hk : k ≠ 0) (x : Ctx) :
    (slotCtx b i k x).bitv = b.extractLsb' i 1 := by
  simp [slotCtx, hk]

/-- A micro-step takes the context to that of the next index. -/
theorem slotRegs_slotCtx {b : Byte} {i k : Nat} (hk : k < 8) {x : Ctx} (hacc : i = 0 ∨ x.acc = b)
    (pos pos' : List Frame) :
    { slotRegs b i k { slotCtx b i k x with pos := pos } with pos := pos' } =
      { slotCtx b i (k + 1) x with pos := pos' } := by
  rcases (by omega : k = 0 ∨ k = 7 ∨ 0 < k ∧ k < 7) with rfl | rfl | h
  · rcases hacc with rfl | rfl
    · simp [slotRegs, slotCtx]
    · by_cases hi : i = 0 <;> simp [slotRegs, slotCtx, hi]
  · simp [slotRegs, slotCtx]
  · simp [slotRegs, slotCtx, show k ≠ 0 by omega, show k ≠ 7 by omega, show k ≠ 8 by omega]

theorem InSlot.standsAt {b : Byte} {i k : Nat} {P : Nat → List Frame} (h : InSlot s b i P k u) (hat : s.At (P 0)) :
    u.At (P k) := by
  obtain ⟨hl, hb, -⟩ := hat
  exact ⟨h.acts.live hl, by rw [h.me]; exact (slotCtx_status b i k s.me).trans hb, by rw [h.me]⟩

theorem InSlot.next {b : Byte} {i k : Nat} {P : Nat → List Frame} (h : InSlot s b i P k u) (hs : s.cur < s.ctx.length)
    (hi : i < 8) (hk : k < 8) (hacc : i = 0 ∨ s.me.acc = b) :
    InSlot s b i P (k + 1) ((wbyteMicro b i k u).setPos (P (k + 1))) := by
  have hu := h.acts.own.bound hs
  have hmicro := wbyteMicro_acts hu b hi hk (v := b.extractLsb' i 1)
    (by rw [h.me]; exact (Nat.eq_zero_or_pos k).imp_right fun hk0 => slotCtx_bitv b i (by omega) s.me)
  have hv := hmicro.own.bound hu
  rw [h.acts.own.cfg, h.acts.own.cur] at hmicro
  refine ⟨?_, ?_⟩
  · rw [List.take_add]
    exact (h.acts.trans hmicro).then_quiet (State.setPos_quiet _ hv _)
  · rw [State.setPos_me _ _ hv, wbyteMicro_me hu b hi hk, h.me]
    exact slotRegs_slotCtx hk hacc _ _

/-- An instruction whose steps are the micro-steps of bit `i` writes the bit in eight steps. -/
theorem execTimes_slot {instr : Instr} {b : Byte} {i : Nat} {P : Nat → List Frame} (hi : i < 8) (hat : s.At (P 0))
    (hacc : i = 0 ∨ s.me.acc = b)
    (hexec : ∀ k u, k < 8 → u.cfg = s.cfg → u.At (P k) →
      exec instr u = .next ((wbyteMicro b i k u).setPos (P (k + 1)))) :
    ∃ v, execTimes instr 8 s = .next v ∧ InSlot s b i P 8 v := by
  change ∃ v, execTimes instr (1 * 8) s = .next v ∧ InSlot s b i P 8 v
  refine execTimes_of_invariant (I := InSlot s b i P) (fun k u hk h => ?_) ⟨Acts.rfl s, ?_⟩
  · exact ⟨_, execTimes_one (hexec k u hk h.acts.own.cfg (h.standsAt hat)), h.next hat.1.2 hi hk hacc⟩
  · rw [← hat.2.2]
    rfl

/-! ## The byte -/

/-- The caller's context when `i` bits of byte `b` are written. -/
def byteCtx (b : Byte) (i : Nat) (x : Ctx) : Ctx :=
  if i = 0 then x else { x with acc := b, idx := i, bitv := b.extractLsb' (i - 1) 1 }

/-- From `s` to `u`, `i` bits of byte `b` were written, and the caller stands where `Q` says. -/
structure InByte (s : State) (b : Byte) (Q : Nat → List Frame) (i : Nat) (u : State) : Prop where
  acts : Acts s u ((List.range i).flatMap fun j => wbitEvents s.cfg.timing s.cur (b.extractLsb' j 1))
  me : u.me = { byteCtx b i s.me with pos := Q i }

theorem byteCtx_status (b : Byte) (i : Nat) (x : Ctx) : (byteCtx b i x).status = x.status := by
  unfold byteCtx
  split <;> rfl

theorem byteCtx_acc (b : Byte) (i : Nat) (x : Ctx) : i = 0 ∨ (byteCtx b i x).acc = b := by
  by_cases h : i = 0 <;> simp [byteCtx, h]

theorem InByte.standsAt {b : Byte} {i : Nat} {Q : Nat → List Frame} (h : InByte s b Q i u) (hat : s.At (Q 0)) :
    u.At (Q i) := by
  obtain ⟨hl, hb, -⟩ := hat
  exact ⟨h.acts.live hl, by rw [h.me]; exact (byteCtx_status b i s.me).trans hb, by rw [h.me]⟩

theorem InByte.next {b : Byte} {i : Nat} {Q P : Nat → List Frame} (h : InByte s b Q i u) (hP : P 8 = Q (i + 1))
    (hslot : InSlot u b i P 8 t) : InByte s b Q (i + 1) t := by
  have hacts := hslot.acts
  rw [h.acts.own.cfg, h.acts.own.cur] at hacts
  refine ⟨?_, ?_⟩
  · rw [List.range_succ, List.flatMap_append, List.flatMap_singleton]
    exact h.acts.trans hacts
  · rw [hslot.me, h.me, hP]
    by_cases hi : i = 0 <;> simp [slotCtx, byteCtx, hi]

/-- An instruction whose steps are the micro-steps of WBYTE writes the byte in 64 steps. -/
theorem execTimes_byte {instr : Instr} {b : Byte} {P : Nat → Nat → List Frame} (hat : s.At (P 0 0))
    (hP : ∀ i, i < 8 → P i 8 = P (i + 1) 0)
    (hexec : ∀ i k u, i < 8 → k < 8 → u.cfg = s.cfg → u.At (P i k) →
      exec instr u = .next ((wbyteMicro b i k u).setPos (P i (k + 1)))) :
    execTimes instr 64 s = .next { s with
      lineDir := .output
      lineOut := 1
      trace := s.trace ++ wbyteEvents s.cfg.timing s.cur b
      ctx := s.ctx.modify s.cur fun x => { x with acc := b, idx := 8, bitv := b.extractLsb' 7 1, pos := P 8 0 } } := by
  obtain ⟨v, hrun, hbyte⟩ : ∃ v, execTimes instr (8 * 8) s = .next v ∧ InByte s b (fun i => P i 0) 8 v := by
    refine execTimes_of_invariant (I := InByte s b fun i => P i 0) (fun i u hi h => ?_) ⟨Acts.rfl s, ?_⟩
    · have hacc : i = 0 ∨ u.me.acc = b := by rw [h.me]; exact byteCtx_acc b i s.me
      obtain ⟨v, hrun, hslot⟩ := execTimes_slot hi (P := P i) (h.standsAt hat) hacc
        fun k w hk hcfg => hexec i k w hi hk (hcfg.trans h.acts.own.cfg)
      exact ⟨v, hrun, h.next (hP i hi) hslot⟩
    · rw [← hat.2.2]
      rfl
  exact hrun.trans (congrArg _ (hbyte.acts.eq hat.1.2
    (f := fun x => { x with acc := b, idx := 8, bitv := b.extractLsb' 7 1, pos := P 8 0 }) hbyte.me))

end Sys2Proof.Machine
end

section
/-! SUPPORT. A byte procedure called by SAMPLE: which micro-step its frames stand at, and the frames after it (10_state.md
R31). SAMPLE's wire commands are such calls of WBYTE: O36. -/

namespace Sys2Proof.Machine

variable {s : State}

/-! ## Calls, by their frames -/

/-- The frames inside a called procedure's when `k` of its micro-steps are done. -/
def callFrames (q : Proc) (k : Nat) : List Frame := if k = 0 then [] else [⟨q, k⟩]

theorem callSeq_callFrames {q : Proc} {n k : Nat} (hk : k < n) (micro : Nat → State → State) :
    callSeq q n micro (callFrames q k) s = some (micro k s, if k + 1 = n then [] else [⟨q, k + 1⟩]) := by
  have hat : callSeqAt q n micro k s = some (micro k s, if k + 1 = n then [] else [⟨q, k + 1⟩]) := by
    unfold callSeqAt
    split
    next h => rw [if_neg (by omega)]
    next h => rw [if_pos (by omega), if_pos (by omega)]
  by_cases h0 : k = 0
  · subst h0
    exact hat
  · simpa [callFrames, h0, callSeq] using hat

/-- A micro-step of bit `i`: the bit's frame goes with its last micro-step, and the bit is done then. -/
theorem byteBit_callFrames {q : Proc} {n i k : Nat} (hi : i < 8) (hk : k < n) (micro : Nat → Nat → State → State) :
    byteBit q n micro i (callFrames q k) s =
      some (micro i k s, if k + 1 = n then (i + 1, []) else (i, [⟨q, k + 1⟩])) := by
  rw [byteBit, if_pos hi, callSeq_callFrames hk]
  by_cases h : k + 1 = n <;> simp [h]

/-- A micro-step of a called byte procedure: its frame goes with the last micro-step of the eighth bit. -/
theorem callWbyte_wbyteFrames (b : Byte) {i k : Nat} (hi : i < 8) (hk : k < 8) :
    callWbyte b (wbyteFrames i k) s =
      some (wbyteMicro b i k s, if i = 7 ∧ k = 7 then [] else wbyteFrames (i + (k + 1) / 8) ((k + 1) % 8)) := by
  have hat : callByteAt .wbyte .wbit 8 (wbyteMicro b) i (callFrames .wbit k) s =
      some (wbyteMicro b i k s, if i = 7 ∧ k = 7 then [] else wbyteFrames (i + (k + 1) / 8) ((k + 1) % 8)) := by
    rw [callByteAt, byteBit_callFrames hi hk]
    rcases (by omega : k = 7 ∨ k + 1 < 8) with rfl | h
    · by_cases h7 : i = 7 <;> simp [h7, wbyteFrames]
    · simp [wbyteFrames, show k ≠ 7 by omega, show i ≠ 8 by omega, Nat.div_eq_of_lt h, Nat.mod_eq_of_lt h]
  by_cases h0 : i = 0 ∧ k = 0
  · obtain ⟨rfl, rfl⟩ := h0
    exact hat
  · simpa [callWbyte, callByte, wbyteFrames, h0, callFrames] using hat

/-! ## Wire commands -/

theorem commandAt_sample {g : Config} {j : Nat} {k : WireCmd} (h : (samplePlan g.holdLock)[j]? = some (.command k))
    (inner : List Frame) : commandAt g (⟨.sample, j⟩ :: inner) = some k := by
  simp [commandAt, h]

/-- Where SAMPLE stands when `m` micro-steps of bit `i` of the command at index `j` are done. -/
def commandPos (j i m : Nat) : List Frame :=
  if i + m / 8 = 8 then [⟨.sample, j + 1⟩] else ⟨.sample, j⟩ :: wbyteFrames (i + m / 8) (m % 8)

theorem commandPos_of_lt (j : Nat) {i m : Nat} (hi : i < 8) (hm : m < 8) :
    commandPos j i m = ⟨.sample, j⟩ :: wbyteFrames i m := by
  simp [commandPos, Nat.div_eq_of_lt hm, Nat.mod_eq_of_lt hm, show i ≠ 8 by omega]

theorem commandPos_succ (j : Nat) {i m : Nat} (hi : i < 8) (hm : m < 8) :
    commandPos j i (m + 1) = if i = 7 ∧ m = 7 then [⟨.sample, j + 1⟩]
      else ⟨.sample, j⟩ :: wbyteFrames (i + (m + 1) / 8) ((m + 1) % 8) := by
  have hlast : i + (m + 1) / 8 = 8 ↔ i = 7 ∧ m = 7 := by omega
  simp only [commandPos, hlast]

/-- SAMPLE moves on when the called procedure has no frame left. -/
theorem sampleCall_some (t : State) (fs : List Frame) (store : State → State) (j : Nat) :
    sampleCall (some (t, fs)) store j = if fs = [] then (store t).sampleAt (j + 1) [] else t.sampleAt j fs := by
  cases fs <;> rfl

/-- A micro-step of a wire command at its call. -/
theorem exec_command_micro {j i m : Nat} {k : WireCmd} (hj : (samplePlan s.cfg.holdLock)[j]? = some (.command k))
    (hi : i < 8) (hm : m < 8) (hat : s.At (⟨.sample, j⟩ :: wbyteFrames i m)) :
    exec k.instr s = .next ((wbyteMicro (k.byte s.cfg.commands) i m s).setPos (commandPos j i (m + 1))) := by
  obtain ⟨hl, hb, hpos⟩ := hat
  have hbody : exec .sample s = sampleBody j (wbyteFrames i m) s := request_running hl hb hpos rfl ..
  have hinside : wbyteFrames (i + (m + 1) / 8) ((m + 1) % 8) ≠ [] := by
    rw [wbyteFrames, if_neg (by omega)]
    exact List.cons_ne_nil _ _
  rw [exec_command_eq_sample hb (hpos ▸ commandAt_sample hj _), hbody, commandPos_succ j hi hm]
  simp only [sampleBody, hj, sampleItem, callWbyte_wbyteFrames _ hi hm, sampleCall_some]
  by_cases hlast : i = 7 ∧ m = 7
  · simp only [if_pos hlast]
    rfl
  · simp only [if_neg hlast, hinside]
    rfl

/-- Settles O36: the plan's commands are listed; a command's step at its call is a micro-step of WBYTE; and 64 of them
write the byte. -/
theorem wireCommandsAreSentAsBytes : Obligations.WireCommandsAreSentAsBytes := by
  refine ⟨fun hold => ?plan, fun s j i m k hj hi hm hat => ?micro, fun s j k hat hj => ?byte⟩
  case plan => cases hold <;> rfl
  case micro =>
    have hacts := wbyteMicro_acts hat.1.2 (k.byte s.cfg.commands) hi hm (.inr rfl)
    have hs := hacts.own.bound hat.1.2
    refine ⟨_, exec_command_micro hj hi hm hat, ?_, ?_⟩
    · rw [State.setPos_me _ _ hs, commandPos_succ j hi hm]
    · exact hacts.trace
  case byte =>
    refine execTimes_byte (P := commandPos j) ?_ (fun i hi => ?_) (fun i m u hi hm hcfg hu => ?_)
    · exact hat
    · rfl
    · rw [← hcfg] at hj ⊢
      rw [commandPos_of_lt j hi hm] at hu
      exact exec_command_micro hj hi hm hu

end Sys2Proof.Machine
end

section
/-! SUPPORT. The line driver's requests end to end (40_line_driver.md R100 to R107): which words they are, the fault of a
caller without the lock, and the three steps of a caller that may run them. O15 to O20. -/

namespace Sys2Proof

/-! ## Words of one operation (30_encoding.md R72 to R74) -/

/-- Bits of a word that agrees with another from bit `n` on. -/
theorem extractLsb'_eq_of_high_eq {n m : Nat} {w v : Word} (h : w.extractLsb' n m = v.extractLsb' n m)
    {start len : Nat} (hn : n ≤ start) (hm : start + len ≤ n + m) : w.extractLsb' start len = v.extractLsb' start len := by
  ext j hj
  have hbit := congrArg (fun x => x.getLsbD (start - n + j)) h
  simpa [show start - n + j < m by omega, show n + (start - n + j) = start + j by omega] using hbit

/-- A word that has the high bits of an operation's words is that operation of its low bits. -/
theorem decodeRequest_of_high_eq {n m : Nat} (hnm : n + m = 32) (hn : n ≤ 16) {w : Word} {f : BitVec n → Instr}
    (hreq : ∀ y, (f y).isRequest = true) (hop : ∀ y, (f y).opcode = (f 0).opcode)
    (himm : ∀ y, (f y).imm = y.setWidth 16) (h : w.extractLsb' n m = (requestWord (f 0)).extractLsb' n m) :
    decodeRequest w = .ok (f (w.extractLsb' 0 n)) := by
  have hopw : opField w = (f 0).opcode :=
    (extractLsb'_eq_of_high_eq h (by omega) (by omega)).trans (opField_requestWord _)
  have hrsvw : rsvField w = 0 := (extractLsb'_eq_of_high_eq h (by omega) (by omega)).trans (rsvField_requestWord _)
  have hhigh : (immField w).extractLsb' n (16 - n) = 0 := by
    rw [extractLsb'_immField w (by omega), extractLsb'_eq_of_high_eq h (by omega) (by omega),
      ← extractLsb'_immField _ (by omega), immField_requestWord, extractLsb'_high_eq_zero_iff (by omega)]
    exact ⟨0, (himm 0).symm⟩
  obtain ⟨y, hy⟩ := (extractLsb'_high_eq_zero_iff (by omega) _).mp hhigh
  have hlow : w.extractLsb' 0 n = y := by
    rw [← extractLsb'_immField w (by omega), ← hy, extractLsb'_low_setWidth hn]
  rw [hlow, decodeRequest_eq_ok_iff, requestWord_eq_iff, hop, himm]
  exact ⟨⟨hrsvw, hopw.symm, hy⟩, hreq y⟩

end Sys2Proof

namespace Sys2Proof.Machine

variable {s v : State}

/-- An operation whose operand is a level takes no wider one. -/
theorem isIllegal_of_wide_level {w : Word} (hop : w.extractLsb' 24 8 = 0x01#8 ∨ w.extractLsb' 24 8 = 0x02#8)
    (himm : w.extractLsb' 1 15 ≠ 0) : IsIllegal w :=
  (illegalWordsFault w).2 fun ⟨_, _, hlevel, _, _⟩ =>
    himm (hlevel (hop.imp (congrArg BitVec.toNat) (congrArg BitVec.toNat)))

/-- An operation without an operand takes none. -/
theorem isIllegal_of_operand {w : Word} {op : Byte} (hop : w.extractLsb' 24 8 = op)
    (hmem : op.toNat ∈ [0x03, 0x04, 0x07, 0x09, 0x0B, 0x0C, 0x0E, 0x0F]) (himm : w.extractLsb' 0 16 ≠ 0) :
    IsIllegal w :=
  (illegalWordsFault w).2 fun ⟨_, _, _, hnone, _⟩ => himm (hnone (by simpa [hop] using hmem))

/-! ## The lock check -/

theorem mustHold_of_held (h : s.lock = .held s.cur) (f : FaultCause) : mustHold f s = none := by
  simp [mustHold, State.holds, h]

theorem mustHold_of_not_held (h : s.lock ≠ .held s.cur) (f : FaultCause) : mustHold f s = some f := by
  simp [mustHold, State.holds, h]

/-- The start step of a request that needs the lock, by a caller that does not hold it. -/
theorem request_not_held (hr : s.AtRest) (h : s.lock ≠ .held s.cur) (w : Word) (p : Proc) (f : FaultCause)
    (body : Nat → List Frame → State → Out) :
    request w p (mustHold f) body s = .next (s.begunFault w p f) := by
  rw [request_idle hr, mustHold_of_not_held h, start_eq]

/-! ## A request end to end -/

theorem State.begun_me (hs : s.cur < s.ctx.length) (w : Word) (p : Proc) :
    (s.begun w p).me = { s.me with status := .busy, req := w, pos := [⟨p, 0⟩] } :=
  s.me_of_modify (f := fun x => { x with status := .busy, req := w, pos := [⟨p, 0⟩] }) hs rfl rfl

theorem State.begun_at (hl : s.Live) (w : Word) (p : Proc) : (s.begun w p).At [⟨p, 0⟩] := by
  have hlen : (s.begun w p).ctx.length = s.ctx.length := List.length_modify ..
  rw [State.At, s.begun_me hl.2]
  exact ⟨⟨hl.1, hlen ▸ hl.2⟩, rfl, rfl⟩

theorem State.begun_quiet (hs : s.cur < s.ctx.length) (w : Word) (p : Proc) : Quiet s (s.begun w p) :=
  s.mapMe_quiet hs (fun x => { x with status := .busy, req := w, pos := [⟨p, 0⟩] }) rfl id

theorem Quiet.acts {t : State} (h : Quiet s t) : Acts s t [] := (Acts.rfl s).then_quiet h

/-- A caller at the end of a sequence answers. -/
theorem request_sequence_answer {p : Proc} {n : Nat} (h : s.At [⟨p, n⟩]) (w : Word) (chk : State → Option FaultCause)
    (micro : Nat → State → State) (answer : State → State) :
    request w p chk (sequence p n micro answer) s = .next (answer s) := by
  obtain ⟨hlive, hbusy, hpos⟩ := h
  rw [request_running hlive hbusy hpos rfl]
  simp [sequence]

/-- A request that starts, whose `n` steps then append the events `es` and change the caller's registers by `regs`, and
that then answers: the shared state is what the events make of it. -/
theorem execTimes_completed {i : Instr} {w : Word} {p : Proc} {n : Nat} {es : List Event} {regs : Ctx → Ctx}
    {pos : List Frame} {r : ResultCode} {d : BitVec 17} (hs : s.cur < s.ctx.length)
    (hstart : exec i s = .next (s.begun w p)) (hrun : execTimes i n (s.begun w p) = .next v)
    (hanswer : exec i v = .next (v.respond r d)) (hacts : Acts (s.begun w p) v es)
    (hme : v.me = { regs s.me with status := .busy, req := w, pos := pos }) :
    execTimes i (n + 2) s = .next { s.completed w (responseWord r d) es regs with
      lineDir := es.foldl (fun d e => e.dirOf d) s.lineDir
      lineOut := es.foldl (fun v e => e.outOf v) s.lineOut
      lock := es.foldl (fun l e => e.lockOf l) s.lock
      env := es.foldl (fun v e => e.envOf v) s.env } := by
  have hrun' : execTimes i (n + 2) s = .next (v.respond r d) := by
    rw [execTimes_succ i (n + 1) hstart, execTimes_add i n 1 hrun, execTimes_one hanswer]
  have hv : Acts s v es := (s.begun_quiet hs w p).acts.trans hacts
  have hall := hv.trans (v.respond_act (hv.own.bound hs) r d).acts
  have hfinal : (v.respond r d).me = { regs s.me with
      status := .idle, req := w, pos := [], resp := some (responseWord r d), ready := true } := by
    rw [v.respond_me r d (hv.own.bound hs), hme]
  rw [hrun', hall.eq hs (f := fun x => { regs x with
    status := .idle, req := w, pos := [], resp := some (responseWord r d), ready := true }) hfinal]
  simp only [List.foldl_append, ← List.append_assoc, hv.own.cur]
  rfl

theorem responseWord_ok (d : BitVec 17) : responseWord .ok d = d.setWidth 32 := by simp [responseWord, statusCode]

/-- A request of one micro-step whose event is `e`, by a caller that meets its check. -/
theorem execTimes_one_micro {i : Instr} {w : Word} {p : Proc} {chk : State → Option FaultCause}
    {micro : Nat → State → State} {data : Ctx → BitVec 17} {e : Event} {regs : Ctx → Ctx}
    (hexec : ∀ u, exec i u = request w p chk (sequence p 1 micro fun t => t.respond .ok (data t.me)) u)
    (hr : s.AtRest) (hchk : chk s = none) (hact : Act (s.begun w p) (micro 0 (s.begun w p)) e)
    (hme : (micro 0 (s.begun w p)).me = { regs s.me with status := .busy, req := w, pos := [⟨p, 0⟩] }) :
    execTimes i 3 s = .next { s.completed w
        ((data { regs s.me with status := .busy, req := w, pos := [⟨p, 1⟩] }).setWidth 32) [e] regs with
      lineDir := e.dirOf s.lineDir, lineOut := e.outOf s.lineOut, lock := e.lockOf s.lock, env := e.envOf s.env } := by
  have hat := State.begun_at hr.1 w p
  have hacts := hact.acts.then_quiet (State.setPos_quiet _ (hact.own.bound hat.1.2) [⟨p, 1⟩])
  have hme' : ((micro 0 (s.begun w p)).setPos [⟨p, 1⟩]).me =
      { regs s.me with status := .busy, req := w, pos := [⟨p, 1⟩] } := by
    rw [State.setPos_me _ _ (hact.own.bound hat.1.2), hme]
  have hat' : ((micro 0 (s.begun w p)).setPos [⟨p, 1⟩]).At [⟨p, 1⟩] := by
    rw [State.At, hme']
    exact ⟨hacts.live hat.1, rfl, rfl⟩
  rw [← responseWord_ok, ← hme']
  refine execTimes_completed (n := 1) hr.1.2 ?start (execTimes_one ?micro) ?answer hacts hme'
  case start => rw [hexec, request_idle hr, hchk, start_eq]
  case micro => rw [hexec, request_sequence_next hat Nat.zero_lt_one]
  case answer => rw [hexec, request_sequence_answer hat']

/-! ## Line and delay micro-steps -/

/-- The event of a micro-step. -/
def Micro.event (s : State) : Micro → Event
  | .setOut v => .setOut s.cur v
  | .writeLvl v => .writeLvl s.cur v
  | .setIn => .setIn s.cur
  | .sample => .sample s.cur s.drawLevel
  | .delayUs n => .delayUs s.cur n

theorem State.micro_trace (s : State) (m : Micro) : (s.micro m).trace = s.trace ++ [m.event s] := by
  cases m <;> rfl

theorem State.micro_act_event (hs : s.cur < s.ctx.length) (m : Micro) : Act s (s.micro m) (m.event s) := by
  obtain ⟨e, hact, -⟩ := s.micro_act hs m
  have he : [e] = [m.event s] := List.append_cancel_left (hact.trace.symm.trans (s.micro_trace m))
  exact List.singleton_inj.mp he ▸ hact

/-- A micro-step leaves the caller's registers, but for `SMP` at a Sample. -/
def Micro.regs (s : State) : Micro → Ctx → Ctx
  | .sample, x => { x with smp := s.drawLevel }
  | .setOut _, x | .writeLvl _, x | .setIn, x | .delayUs _, x => x

theorem State.micro_me (hs : s.cur < s.ctx.length) (m : Micro) : (s.micro m).me = m.regs s s.me := by
  cases m with
  | sample => exact s.sample_me hs
  | setOut | writeLvl | setIn | delayUs => rfl

/-- A request of one line or delay micro-step, by a caller that meets its check. -/
theorem execTimes_line_request {i : Instr} {w : Word} {p : Proc} {chk : State → Option FaultCause} (m : Micro)
    {data : Ctx → BitVec 17}
    (hexec : ∀ u, exec i u =
      request w p chk (sequence p 1 (fun _ t => t.micro m) fun t => t.respond .ok (data t.me)) u)
    (hr : s.AtRest) (hchk : chk s = none) :
    execTimes i 3 s = .next { s.completed w
        ((data { m.regs s s.me with status := .busy, req := w, pos := [⟨p, 1⟩] }).setWidth 32) [m.event s]
        (m.regs s) with
      lineDir := (m.event s).dirOf s.lineDir
      lineOut := (m.event s).outOf s.lineOut
      lock := (m.event s).lockOf s.lock
      env := (m.event s).envOf s.env } := by
  have hevent : m.event (s.begun w p) = m.event s := by cases m <;> rfl
  have hs := (State.begun_at hr.1 w p).1.2
  refine execTimes_one_micro hexec hr hchk (hevent ▸ State.micro_act_event hs m) ?_
  rw [State.micro_me hs, State.begun_me hr.1.2]
  cases m <;> rfl

/-! ## The rules -/

/-- Settles O15: the words by their high bits, the fault by the lock check, the run as a request of the micro-step
`SetOut`. -/
theorem lsetoutRule : Obligations.LsetoutRule := by
  refine ⟨fun w hw => ?decode, fun w hop himm => ?illegal, fun l s hr => ⟨fun hfree => ?fault, fun hheld => ?run⟩⟩
  case decode =>
    exact decodeRequest_of_high_eq (f := .lsetout) rfl (by omega) (fun _ => rfl) (fun _ => rfl) (fun _ => rfl) hw
  case illegal => exact isIllegal_of_wide_level (.inl hop) himm
  case fault => exact request_not_held hr hfree ..
  case run => exact execTimes_line_request (.setOut l) (data := fun _ => 0) (fun _ => rfl) hr (mustHold_of_held hheld _)

/-- Settles O16, as O15, with the micro-step `WriteLvl`. -/
theorem lwriteRule : Obligations.LwriteRule := by
  refine ⟨fun w hw => ?decode, fun w hop himm => ?illegal, fun l s hr => ⟨fun hfree => ?fault, fun hheld => ?run⟩⟩
  case decode =>
    exact decodeRequest_of_high_eq (f := .lwrite) rfl (by omega) (fun _ => rfl) (fun _ => rfl) (fun _ => rfl) hw
  case illegal => exact isIllegal_of_wide_level (.inr hop) himm
  case fault => exact request_not_held hr hfree ..
  case run =>
    exact execTimes_line_request (.writeLvl l) (data := fun _ => 0) (fun _ => rfl) hr (mustHold_of_held hheld _)

/-- Settles O17: the run is a request of the micro-step `SetIn`, after which the line is not driven. -/
theorem lsetinRule : Obligations.LsetinRule := by
  refine ⟨decodeRequest_eq_ok_iff.mpr ⟨rfl, rfl⟩, fun w hop himm => ?illegal,
    fun s hr => ⟨fun hfree => ?fault, fun hheld => ⟨?run, rfl⟩⟩⟩
  case illegal => exact isIllegal_of_operand hop (by decide) himm
  case fault => exact request_not_held hr hfree ..
  case run => exact execTimes_line_request .setIn (data := fun _ => 0) (fun _ => rfl) hr (mustHold_of_held hheld _)

/-- Settles O18: the run is a request of the micro-step `Sample`, and the answer is the level it drew. -/
theorem lreadRule : Obligations.LreadRule := by
  refine ⟨decodeRequest_eq_ok_iff.mpr ⟨rfl, rfl⟩, fun w hop himm => ?illegal,
    fun s hr => ⟨fun hfree => ?fault, fun hheld => ?run⟩⟩
  case illegal => exact isIllegal_of_operand hop (by decide) himm
  case fault => exact request_not_held hr hfree ..
  case run =>
    have hdata : (s.drawLevel.setWidth 17).setWidth 32 = s.drawLevel.setWidth 32 := BitVec.setWidth_setWidth (by omega)
    rw [← s.drawLevel_eq_level, ← s.env.afterDraw_eq_afterDraws, ← hdata]
    exact execTimes_line_request .sample (data := fun x => x.smp.setWidth 17) (fun _ => rfl) hr
      (mustHold_of_held hheld _)

/-- Settles O19: DELAYUS has no lock check, and its run is a request of the micro-step `DelayUs`. -/
theorem delayusRule : Obligations.DelayusRule := by
  refine ⟨fun w hw => ?decode, fun n s hr => ?run⟩
  case decode =>
    exact decodeRequest_of_high_eq (f := .delayus) rfl (by omega) (fun _ => rfl) (fun _ => rfl)
      (fun n => (BitVec.setWidth_eq n).symm) hw
  case run => exact execTimes_line_request (.delayUs n) (data := fun _ => 0) (fun _ => rfl) hr rfl

/-- Settles O20: SLEEPMS has no lock check, and its one micro-step is the sleep, which leaves the caller's registers. -/
theorem sleepmsRule : Obligations.SleepmsRule := by
  refine ⟨fun w hw => ?decode, fun n s hr => ?run⟩
  case decode =>
    exact decodeRequest_of_high_eq (f := .sleepms) rfl (by omega) (fun _ => rfl) (fun _ => rfl)
      (fun n => (BitVec.setWidth_eq n).symm) hw
  case run =>
    exact execTimes_one_micro (micro := fun _ t => t.sleepMs n) (data := fun _ => 0) (regs := id) (fun _ => rfl) hr
      rfl (State.sleepMs_act _ n) (State.begun_me hr.1.2 ..)

end Sys2Proof.Machine
end

section
/-! SUPPORT. Runs of a sequence of micro-steps (10_state.md R31): what each micro-step appends and makes of the caller's
registers (`Micros`) says what all of them leave (`Ran`), for a request and for a called procedure. -/

namespace Sys2Proof.Machine

variable {s u v : State}

/-! ## Micro-steps one after another -/

/-- The registers after `k` micro-steps, micro-step `j` of which changes them by `regs j`. -/
def regsAfter (regs : Nat → Ctx → Ctx) : Nat → Ctx → Ctx
  | 0, x => x
  | k + 1, x => regs k (regsAfter regs k x)

/-- From `s` to `u`, `k` micro-steps were done whose events are the first `k` of `es` and which changed the caller's
registers by `regs`. Where the caller stands is left open. -/
structure Ran (s : State) (es : List Event) (regs : Nat → Ctx → Ctx) (k : Nat) (u : State) : Prop where
  acts : Acts s u (es.take k)
  status : u.me.status = s.me.status
  me : u.me = { regsAfter regs k s.me with pos := u.me.pos }

/-- In a run from `s`, micro-step `k` of `micro` appends event `k` of `es` and changes the caller's registers by
`regs k`. -/
structure Micros (s : State) (n : Nat) (micro : Nat → State → State) (es : List Event) (regs : Nat → Ctx → Ctx) :
    Prop where
  length : es.length = n
  act : ∀ k u, k < n → u.cur < u.ctx.length →
    ∃ e, Act u (micro k u) e ∧ e.isCodec = true ∧ Stays u (micro k u)
  trace : ∀ k u, k < n → Ran s es regs k u → (micro k u).trace = u.trace ++ (es.drop k).take 1
  me : ∀ k u, k < n → u.cur < u.ctx.length → Ran s es regs k u → (micro k u).me = regs k u.me
  pos : ∀ k x p, regs k { x with pos := p } = { regs k x with pos := p }

theorem Ran.zero (s : State) (es : List Event) (regs : Nat → Ctx → Ctx) : Ran s es regs 0 s := ⟨Acts.rfl s, rfl, rfl⟩

theorem Ran.standsAt {es : List Event} {regs : Nat → Ctx → Ctx} {k : Nat} {pos pos' : List Frame}
    (h : Ran s es regs k u) (hat : s.At pos) (hpos : u.me.pos = pos') : u.At pos' := by
  obtain ⟨hl, hb, -⟩ := hat
  exact ⟨h.acts.live hl, h.status.trans hb, hpos⟩

theorem Micros.next {n k : Nat} {micro : Nat → State → State} {es : List Event} {regs : Nat → Ctx → Ctx}
    (h : Micros s n micro es regs) (hs : s.cur < s.ctx.length) (hk : k < n) (hu : Ran s es regs k u)
    (pos : List Frame) : Ran s es regs (k + 1) ((micro k u).setPos pos) := by
  have hlen := hu.acts.own.bound hs
  obtain ⟨e, hact, -, hstays⟩ := h.act k u hk hlen
  have hevent : [e] = (es.drop k).take 1 := List.append_cancel_left (hact.trace.symm.trans (h.trace k u hk hu))
  have hme := State.setPos_me (micro k u) pos (hact.own.bound hlen)
  refine ⟨?acts, ?status, ?me⟩
  case acts =>
    rw [List.take_add, ← hevent]
    exact hu.acts.trans (hact.setPos hlen pos).acts
  case status =>
    rw [hme]
    exact hstays.status.trans hu.status
  case me => rw [hme, h.me k u hk hlen hu, hu.me, h.pos, regsAfter]

/-- An instruction whose steps are the `n` micro-steps, taken at the positions `P`. -/
theorem Micros.run {i : Instr} {n : Nat} {micro : Nat → State → State} {es : List Event}
    {regs : Nat → Ctx → Ctx} {P : Nat → List Frame} (h : Micros s n micro es regs) (hat : s.At (P 0))
    (hexec : ∀ k u, k < n → Ran s es regs k u → u.At (P k) → exec i u = .next ((micro k u).setPos (P (k + 1)))) :
    ∃ v, execTimes i n s = .next v ∧ Ran s es regs n v ∧ v.me.pos = P n := by
  suffices hrun : ∃ v, execTimes i (1 * n) s = .next v ∧ Ran s es regs n v ∧ v.me.pos = P n by
    rwa [Nat.one_mul] at hrun
  refine execTimes_of_invariant (I := fun k u => Ran s es regs k u ∧ u.me.pos = P k) (fun k u hk hI => ?_)
    ⟨Ran.zero s es regs, hat.2.2⟩
  obtain ⟨hran, hpos⟩ := hI
  have hlen := hran.acts.own.bound hat.1.2
  obtain ⟨e, hact, -⟩ := h.act k u hk hlen
  refine ⟨_, execTimes_one (hexec k u hk hran (hran.standsAt hat hpos)), h.next hat.1.2 hk hran _, ?_⟩
  rw [State.setPos_me _ _ (hact.own.bound hlen)]

/-- After all micro-steps their events are the whole of `es`. -/
theorem Micros.acts {n : Nat} {micro : Nat → State → State} {es : List Event} {regs : Nat → Ctx → Ctx}
    (h : Micros s n micro es regs) (hv : Ran s es regs n v) : Acts s v es :=
  List.take_of_length_le h.length.le ▸ hv.acts

/-- The state after all micro-steps. -/
theorem Micros.eq_of_ran {n : Nat} {micro : Nat → State → State} {es : List Event} {regs : Nat → Ctx → Ctx}
    {pos : List Frame} (h : Micros s n micro es regs) (hs : s.cur < s.ctx.length) (hv : Ran s es regs n v)
    (hpos : v.me.pos = pos) {f : Ctx → Ctx} (hf : { regsAfter regs n s.me with pos := pos } = f s.me) :
    v = { s with
      lineDir := es.foldl (fun d e => e.dirOf d) s.lineDir
      lineOut := es.foldl (fun v e => e.outOf v) s.lineOut
      lock := es.foldl (fun l e => e.lockOf l) s.lock
      trace := s.trace ++ es
      env := es.foldl (fun v e => e.envOf v) s.env
      ctx := s.ctx.modify s.cur f } :=
  (h.acts hv).eq hs (hv.me.trans (hpos ▸ hf))

/-- A request of `n` micro-steps and its answer, by a caller that meets its check. -/
theorem Micros.run_request {i : Instr} {w : Word} {p : Proc} {chk : State → Option FaultCause} {n : Nat}
    {micro : Nat → State → State} {es : List Event} {steps : Nat → Ctx → Ctx} {regs : Ctx → Ctx}
    {res : Ctx → ResultCode} {data : Ctx → BitVec 17} (h : Micros (s.begun w p) n micro es steps)
    (hexec : ∀ u, exec i u = request w p chk (sequence p n micro fun t => t.respond (res t.me) (data t.me)) u)
    (hr : s.AtRest) (hchk : chk s = none)
    (hregs : { regsAfter steps n { s.me with status := .busy, req := w, pos := [⟨p, 0⟩] } with pos := [⟨p, n⟩] } =
      { regs s.me with status := .busy, req := w, pos := [⟨p, n⟩] }) :
    let x : Ctx := { regs s.me with status := .busy, req := w, pos := [⟨p, n⟩] }
    execTimes i (n + 2) s = .next { s.completed w (responseWord (res x) (data x)) es regs with
      lineDir := es.foldl (fun d e => e.dirOf d) s.lineDir
      lineOut := es.foldl (fun v e => e.outOf v) s.lineOut
      lock := es.foldl (fun l e => e.lockOf l) s.lock
      env := es.foldl (fun v e => e.envOf v) s.env } := by
  have hat := State.begun_at hr.1 w p
  obtain ⟨v, hrun, hran, hpos⟩ := h.run (P := fun k => [⟨p, k⟩]) hat fun k u hk _ hu =>
    (hexec u).trans (request_sequence_next hu hk ..)
  have hme : v.me = { regs s.me with status := .busy, req := w, pos := [⟨p, n⟩] } := by
    rw [hran.me, hpos, State.begun_me hr.1.2, hregs]
  intro x
  refine execTimes_completed hr.1.2 ?start hrun ?answer (h.acts hran) hme
  case start => rw [hexec, request_idle hr, hchk, start_eq]
  case answer => rw [hexec, request_sequence_answer (hran.standsAt hat hpos), hme]

/-- A micro-step of a sequence, and the position after it. -/
theorem request_sequence_micro {p : Proc} {k n : Nat} {micro : Nat → State → State} (hat : s.At [⟨p, k⟩]) (hk : k < n)
    (hact : ∃ e, Act s (micro k s) e ∧ e.isCodec = true ∧ Stays s (micro k s)) (w : Word)
    (chk : State → Option FaultCause) (answer : State → State) :
    ∃ t, request w p chk (sequence p n micro answer) s = .next t ∧
      t.me = { (micro k s).me with pos := [⟨p, k + 1⟩] } ∧ t.trace = (micro k s).trace := by
  obtain ⟨e, hact, -⟩ := hact
  exact ⟨_, request_sequence_next hat hk .., State.setPos_me _ _ (hact.own.bound hat.1.2), rfl⟩

/-! ## Bits of a byte -/

/-- Where a byte procedure stands when `k` of the `n` micro-steps of its bit `i` are done. -/
def bitPos (p q : Proc) (n i k : Nat) : List Frame := if k = n then [⟨p, i + 1⟩] else ⟨p, i⟩ :: callFrames q k

theorem bitPos_of_lt (p q : Proc) {n k : Nat} (i : Nat) (hk : k < n) : bitPos p q n i k = ⟨p, i⟩ :: callFrames q k :=
  if_neg hk.ne

/-- A caller inside bit `i` of a byte request takes the next micro-step of that bit. -/
theorem request_byte_next {p q : Proc} {n i k : Nat} (hi : i < 8) (hk : k < n) (h : s.At (bitPos p q n i k)) (w : Word)
    (chk : State → Option FaultCause) (micro : Nat → Nat → State → State) (answer : State → State) :
    request w p chk (byteRequest p q n micro answer) s = .next ((micro i k s).setPos (bitPos p q n i (k + 1))) := by
  rw [bitPos_of_lt p q i hk] at h
  obtain ⟨hlive, hbusy, hpos⟩ := h
  rw [request_running hlive hbusy hpos rfl, byteRequest, if_neg (fun h => hi.ne h.1), byteBit_callFrames hi hk]
  by_cases hlast : k + 1 = n <;> simp [bitPos, callFrames, hlast]

end Sys2Proof.Machine
end

section
/-! SUPPORT. RSTPD (41_bit_codec.md R120 to R122), as a request and as SAMPLE's procedure: O22. -/

namespace Sys2Proof.Machine

variable {s : State}

/-! ## Its micro-steps -/

theorem rstpdMicro_trace {k : Nat} (hk : k < 8) {v : Level} (hv : k = 5 → s.drawLevel = v) :
    (rstpdMicro k s).trace = s.trace ++ ((rstpdEvents s.cfg.timing s.cur v).drop k).take 1 := by
  match k, hk with
  | 5, _ => rw [← hv rfl]; rfl
  | 0, _ | 1, _ | 2, _ | 3, _ | 4, _ | 6, _ | 7, _ => rfl
  | k + 8, hk => omega

/-- What micro-step `k` makes of the caller's registers, `v` being the level S6 samples. -/
def presenceRegs (v : Level) (k : Nat) (x : Ctx) : Ctx :=
  if k = 5 then { x with smp := v, present := presentOf v } else x

theorem rstpdMicro_me (hs : s.cur < s.ctx.length) {k : Nat} (hk : k < 8) {v : Level} (hv : k = 5 → s.drawLevel = v) :
    (rstpdMicro k s).me = presenceRegs v k s.me := by
  match k, hk with
  | 5, _ =>
    rw [← hv rfl]
    have hsample : s.sample.cur < s.sample.ctx.length := by simpa using hs
    exact (State.recordPresence_me _ hsample).trans (by rw [State.sample_me _ hs]; rfl)
  | 0, _ | 1, _ | 2, _ | 3, _ | 4, _ | 6, _ | 7, _ => rfl
  | k + 8, hk => omega

theorem rstpd_micros (s : State) : Micros s 8 rstpdMicro (rstpdEvents s.cfg.timing s.cur (s.env.level 0))
    (presenceRegs (s.env.level 0)) := by
  have hdraw : ∀ k u, Ran s (rstpdEvents s.cfg.timing s.cur (s.env.level 0)) (presenceRegs (s.env.level 0)) k u →
      k = 5 → u.drawLevel = s.env.level 0 := by
    rintro k u hu rfl
    exact u.drawLevel_eq_level.trans (congrArg (Env.level · 0) hu.acts.env)
  refine ⟨rfl, fun k u hk hlen => rstpdMicro_act u hlen hk, fun k u hk hu => ?trace, fun k u hk hlen hu => ?me, ?pos⟩
  case trace =>
    rw [rstpdMicro_trace hk (hdraw k u hu), hu.acts.own.cfg, hu.acts.own.cur]
  case me => exact rstpdMicro_me hlen hk (hdraw k u hu)
  case pos =>
    intro k x p
    unfold presenceRegs
    split <;> rfl

/-! ## As a procedure of SAMPLE -/

/-- Where SAMPLE stands when `k` micro-steps of the RSTPD at index `j` are done, the level sampled being `v`. -/
def presencePos (hold : Bool) (v : Level) (j k : Nat) : List Frame :=
  if k = 8 then [⟨.sample, if v = 0 then j + 1 else presenceExit hold⟩] else ⟨.sample, j⟩ :: callFrames .rstpd k

theorem presentOf_eq_one_iff (v : Level) : presentOf v = 1 ↔ v = 0 := by
  unfold presentOf
  by_cases h : v = 0 <;> simp [h]

/-- A micro-step of RSTPD at its call; S8's takes the branch by `PRESENT`. -/
theorem exec_presence_micro {v : Level} {j k : Nat} (hj : (samplePlan s.cfg.holdLock)[j]? = some .presence) (hk : k < 8)
    (hv : k = 7 → s.me.present = presentOf v) (hat : s.At (presencePos s.cfg.holdLock v j k)) :
    exec .sample s = .next ((rstpdMicro k s).setPos (presencePos s.cfg.holdLock v j (k + 1))) := by
  rw [presencePos, if_neg hk.ne] at hat
  obtain ⟨hl, hb, hpos⟩ := hat
  have hbody : exec .sample s = sampleBody j (callFrames .rstpd k) s := request_running hl hb hpos rfl ..
  rw [hbody]
  simp only [sampleBody, hj, sampleItem, samplePresence, callSeq_callFrames hk]
  rcases (by omega : k = 7 ∨ k + 1 < 8) with rfl | hlast
  · have hpresent : (rstpdMicro 7 s).me.present = presentOf v := hv rfl
    simp only [if_true, hpresent, presentOf_eq_one_iff, presencePos]
    split <;> rfl
  · simp only [if_neg hlast.ne, presencePos, callFrames, if_neg k.succ_ne_zero]
    rfl

theorem responseWord_presence (v : Level) : responseWord (presenceResult (presentOf v)) ((presentOf v).setWidth 17) =
    if v = 0 then 0x00000001 else 0x10000000 := by
  rcases BitVec.eq_zero_or_eq_one v with rfl | rfl <;> rfl

/-- Settles O22: RSTPD is the run of its eight micro-steps, of which S6 alone writes registers; SAMPLE's call of it is the
same run at other positions. -/
theorem rstpdRule : Obligations.RstpdRule := by
  refine ⟨decodeRequest_eq_ok_iff.mpr ⟨rfl, rfl⟩, fun w hop himm => ?illegal,
    fun s hr => ⟨fun hfree => ?fault, fun hheld => ?run⟩, fun s k hk hat => ?micro, fun s j hat hj => ?call⟩
  case illegal => exact isIllegal_of_operand hop (by decide) himm
  case fault => exact request_not_held hr hfree ..
  case run =>
    rw [← responseWord_presence, ← s.env.afterDraw_eq_afterDraws]
    exact (rstpd_micros (s.begun _ _)).run_request
      (regs := fun x => { x with smp := s.env.level 0, present := presentOf (s.env.level 0) })
      (res := fun x => presenceResult x.present) (data := fun x => x.present.setWidth 17)
      (fun _ => rfl) hr (mustHold_of_held hheld _) rfl
  case micro =>
    obtain ⟨t, hexec, hme, htrace⟩ := request_sequence_micro hat hk (rstpdMicro_act s hat.1.2 hk) ..
    refine ⟨t, hexec, congrArg Ctx.pos hme, ?_, ?_⟩
    · exact htrace.trans (rstpdMicro_trace hk fun _ => s.drawLevel_eq_level)
    · rw [hme, rstpdMicro_me hat.1.2 hk fun _ => s.drawLevel_eq_level]
      exact apply_ite Ctx.present ..
  case call =>
    obtain ⟨v, hrun, hran, hpos⟩ := (rstpd_micros s).run (i := .sample)
      (P := presencePos s.cfg.holdLock (s.env.level 0) j) hat fun k u hk hu huat => by
        rw [← hu.acts.own.cfg] at hj huat ⊢
        refine exec_presence_micro hj hk ?_ huat
        rintro rfl
        rw [hu.me]
        rfl
    rw [hrun, (rstpd_micros s).eq_of_ran hat.1.2 hran hpos (f := fun x => { x with
      smp := s.env.level 0
      present := presentOf (s.env.level 0)
      pos := presencePos s.cfg.holdLock (s.env.level 0) j 8 }) rfl, ← s.env.afterDraw_eq_afterDraws]
    rfl

end Sys2Proof.Machine
end

section
/-! SUPPORT. WBIT (41_bit_codec.md R124, R125), as a request and as WBYTE's procedure: O23. -/

namespace Sys2Proof.Machine

variable {s : State}

/-! ## Its micro-steps -/

theorem wbitMicro_trace (x : Half) {k : Nat} (hk : k < 8) {b : Level} (hb : k = 4 → s.me.bitv = b) :
    (wbitMicro x k s).trace = s.trace ++ ((wbitEvents s.cfg.timing s.cur b).drop k).take 1 := by
  match k, hk with
  | 4, _ => rw [← hb rfl]; rfl
  | 0, _ | 1, _ | 2, _ | 3, _ | 5, _ | 6, _ | 7, _ => rfl
  | k + 8, hk => omega

/-- What micro-step `k` makes of the caller's registers, `b` being the clamped value. -/
def wbitRegs (b : Level) (k : Nat) (x : Ctx) : Ctx := if k = 0 then { x with bitv := b } else x

theorem wbitMicro_me (hs : s.cur < s.ctx.length) (x : Half) {k : Nat} (hk : k < 8) :
    (wbitMicro x k s).me = wbitRegs (clamp x) k s.me := by
  match k, hk with
  | 0, _ => exact s.mapMe_me (fun y => { y with bitv := clamp x }) hs
  | 1, _ | 2, _ | 3, _ | 4, _ | 5, _ | 6, _ | 7, _ => rfl
  | k + 8, hk => omega

theorem wbit_micros (s : State) (x : Half) :
    Micros s 8 (wbitMicro x) (wbitEvents s.cfg.timing s.cur (clamp x)) (wbitRegs (clamp x)) := by
  refine ⟨rfl, fun k u hk hlen => wbitMicro_act u hlen hk, fun k u hk hu => ?trace,
    fun k u hk hlen _ => wbitMicro_me hlen x hk, ?pos⟩
  case trace =>
    have hbit : k = 4 → u.me.bitv = clamp x := by
      rintro rfl
      rw [hu.me]
      rfl
    rw [wbitMicro_trace x hk hbit, hu.acts.own.cfg, hu.acts.own.cur]
  case pos =>
    intro k y p
    unfold wbitRegs
    split <;> rfl

/-! ## As a procedure of WBYTE -/

/-- WBYTE's operand is read at bit 0 alone. -/
theorem wbyteMicro_operand (a b : Byte) {i : Nat} (hi : i ≠ 0) (k : Nat) : wbyteMicro a i k s = wbyteMicro b i k s := by
  simp only [wbyteMicro, hi, false_and, if_false]

/-- The level a write slot writes, by the mask WBYTE uses (R150). -/
theorem extractLsb'_eq_ite_and (acc : Byte) {i : Nat} (hi : i < 8) :
    acc.extractLsb' i 1 = if acc &&& (1#8 <<< i) ≠ 0 then 1 else 0 := by
  have hwiden : (acc &&& (1#8 <<< i)).setWidth 16 = 0 ↔ acc &&& (1#8 <<< i) = 0 := by
    rw [← BitVec.toNat_inj, ← BitVec.toNat_inj, BitVec.toNat_setWidth_of_le (by omega)]
    rfl
  rw [← clamp_maskedBit acc hi, clamp, maskedBit, ite_not]
  simp only [hwiden]

/-- Bit `i` of the request WBYTE is a write slot. -/
theorem execTimes_wbyte_bit (a : Byte) {i : Nat} (hi : i < 8) (hat : s.At [⟨.wbyte, i⟩]) :
    ∃ v, execTimes (.wbyte a) 8 s = .next v ∧
      InSlot s (if i = 0 then a else s.me.acc) i (bitPos .wbyte .wbit 8 i) 8 v := by
  refine execTimes_slot hi hat ?acc fun k u hk _ hu => ?exec
  case acc => by_cases h : i = 0 <;> simp [h]
  case exec =>
    have hmicro : wbyteMicro (if i = 0 then a else s.me.acc) i k u = wbyteMicro a i k u := by
      by_cases h : i = 0
      · rw [if_pos h]
      · exact wbyteMicro_operand _ _ h k
    rw [hmicro]
    exact request_byte_next hi hk hu ..

/-- Settles O23: WBIT is the run of its eight micro-steps, of which W1 alone writes a register; a bit of WBYTE is the same
run, of the bit the mask leaves. -/
theorem wbitRule : Obligations.WbitRule := by
  refine ⟨fun w hw => ?decode, fun x s hr => ⟨fun hfree => ?fault, fun hheld => ?run⟩, fun x s k hk hat => ?micro,
    fun a s i hi hat => ?call⟩
  case decode =>
    exact decodeRequest_of_high_eq (f := .wbit) rfl (by omega) (fun _ => rfl) (fun _ => rfl)
      (fun x => (BitVec.setWidth_eq x).symm) hw
  case fault => exact request_not_held hr hfree ..
  case run =>
    intro b
    have hb : clamp x = b := (ite_not ..).symm
    rw [← hb]
    exact (wbit_micros (s.begun _ _) x).run_request (regs := fun y => { y with bitv := clamp x })
      (res := fun _ => .ok) (data := fun _ => 0) (fun _ => rfl) hr (mustHold_of_held hheld _) rfl
  case micro =>
    obtain ⟨t, hexec, hme, htrace⟩ := request_sequence_micro hat hk (wbitMicro_act s hat.1.2 (v := x) hk) ..
    refine ⟨t, hexec, congrArg Ctx.pos hme, ?_, ?_⟩
    · exact htrace.trans (wbitMicro_trace x hk fun _ => rfl)
    · rw [hme, wbitMicro_me hat.1.2 x hk, ite_not]
      exact apply_ite Ctx.bitv ..
  case call =>
    intro acc b
    obtain ⟨v, hrun, hslot⟩ := execTimes_wbyte_bit a hi hat
    have hb : b = acc.extractLsb' i 1 := (extractLsb'_eq_ite_and acc hi).symm
    rw [hrun, hb]
    exact congrArg _ (hslot.acts.eq hat.1.2
      (f := fun x => { x with acc := acc, bitv := acc.extractLsb' i 1, idx := i + 1, pos := [⟨.wbyte, i + 1⟩] })
      hslot.me)

end Sys2Proof.Machine
end

section
/-! SUPPORT. RBIT (41_bit_codec.md R127), as a request and as RBYTE's procedure (42_byte_codec.md R152): O24. -/

namespace Sys2Proof.Machine

variable {s : State}

/-! ## Its micro-steps -/

theorem rbitMicro_trace (f : State → State) (hf : ∀ t : State, (f t).trace = t.trace) {k : Nat} (hk : k < 6) {v : Level}
    (hv : k = 4 → s.drawLevel = v) :
    (rbitMicro f k s).trace = s.trace ++ ((rbitEvents s.cfg.timing s.cur v).drop k).take 1 := by
  match k, hk with
  | 4, _ => rw [← hv rfl]; exact hf s.sample
  | 0, _ | 1, _ | 2, _ | 3, _ | 5, _ => rfl
  | k + 6, hk => omega

theorem rbitMicro_me (f : State → State) {k : Nat} (hk : k < 6) :
    (rbitMicro f k s).me = if k = 4 then (f s.sample).me else s.me := by
  match k, hk with
  | 0, _ | 1, _ | 2, _ | 3, _ | 4, _ | 5, _ => rfl
  | k + 6, hk => omega

/-- What micro-step `k` of RBIT makes of the caller's registers, `v` being the level B5 samples. -/
def rbitRegs (v : Level) (k : Nat) (x : Ctx) : Ctx := if k = 4 then { x with smp := v } else x

theorem rbitMicro_id_me (hs : s.cur < s.ctx.length) {k : Nat} (hk : k < 6) {v : Level} (hv : k = 4 → s.drawLevel = v) :
    (rbitMicro id k s).me = rbitRegs v k s.me := by
  rw [rbitMicro_me id hk, rbitRegs]
  split
  next h => rw [← hv h, id, State.sample_me _ hs]
  next => rfl

/-- Before B5 a read slot draws nothing. -/
theorem Ran.drawLevel_of_rbitEvents {u : State} {t : Timing} {c : Nat} {v : Level} {regs : Nat → Ctx → Ctx} {k : Nat}
    (h : Ran s (rbitEvents t c v) regs k u) (hk : k = 4) : u.drawLevel = s.env.level 0 := by
  subst hk
  exact u.drawLevel_eq_level.trans (congrArg (Env.level · 0) h.acts.env)

theorem rbit_micros (s : State) : Micros s 6 (rbitMicro id) (rbitEvents s.cfg.timing s.cur (s.env.level 0))
    (rbitRegs (s.env.level 0)) := by
  refine ⟨rfl, fun k u hk hlen => rbitMicro_act u hlen hk fun t _ => ⟨Quiet.rfl t, Stays.rfl t⟩,
    fun k u hk hu => ?trace, fun k u hk hlen hu => rbitMicro_id_me hlen hk hu.drawLevel_of_rbitEvents, ?pos⟩
  case trace =>
    rw [rbitMicro_trace id (fun _ => rfl) hk hu.drawLevel_of_rbitEvents, hu.acts.own.cfg, hu.acts.own.cur]
  case pos =>
    intro k x p
    unfold rbitRegs
    split <;> rfl

/-! ## As a procedure of RBYTE -/

/-- The first micro-step of bit `i`: the accumulator is cleared before bit 0. -/
theorem rbyteMicro_first (i : Nat) : rbyteMicro i 0 s = (if i = 0 then s.beginByte 0 else s).setOut 0 := by
  simp only [rbyteMicro, and_true]
  rfl

theorem rbyteMicro_inner (i : Nat) {k : Nat} (hk : 0 < k) (hk5 : k < 5) :
    rbyteMicro i k s = rbitMicro (State.accumulate i) k s := by
  simp only [rbyteMicro, hk.ne', hk5.ne, and_false, if_false]

theorem rbyteMicro_last (i : Nat) : rbyteMicro i 5 s = (s.delayUs s.cfg.timing.rRestUs).bitDone i := by
  simp only [rbyteMicro, show (5 : Nat) ≠ 0 by omega, and_false, if_false]
  rfl

theorem rbyteMicro_trace (i : Nat) {k : Nat} (hk : k < 6) {v : Level} (hv : k = 4 → s.drawLevel = v) :
    (rbyteMicro i k s).trace = s.trace ++ ((rbitEvents s.cfg.timing s.cur v).drop k).take 1 := by
  rcases (by omega : k = 0 ∨ k = 5 ∨ 0 < k ∧ k < 5) with rfl | rfl | ⟨h0, h5⟩
  · rw [rbyteMicro_first]
    split <;> rfl
  · rw [rbyteMicro_last]
    rfl
  · rw [rbyteMicro_inner i h0 h5]
    exact rbitMicro_trace (State.accumulate i) (fun _ => rfl) hk hv

/-- What micro-step `k` of bit `i` of RBYTE makes of the caller's registers, `v` being the level B5 samples. -/
def readRegs (v : Level) (i k : Nat) (x : Ctx) : Ctx :=
  if k = 0 then if i = 0 then { x with acc := 0, idx := 0 } else x
  else if k = 5 then { x with idx := i + 1 }
  else if k = 4 then { x with smp := v, acc := orBit x.acc v i }
  else x

theorem rbyteMicro_me (hs : s.cur < s.ctx.length) (i : Nat) {k : Nat} (hk : k < 6) {v : Level}
    (hv : k = 4 → s.drawLevel = v) : (rbyteMicro i k s).me = readRegs v i k s.me := by
  rcases (by omega : k = 0 ∨ k = 5 ∨ 0 < k ∧ k < 5) with rfl | rfl | ⟨h0, h5⟩
  · rw [rbyteMicro_first]
    by_cases h : i = 0 <;> simp [readRegs, h, hs]
  · rw [rbyteMicro_last]
    exact State.bitDone_me (s.delayUs s.cfg.timing.rRestUs) i hs
  · rw [rbyteMicro_inner i h0 h5, rbitMicro_me _ hk, readRegs, if_neg h0.ne', if_neg h5.ne]
    split
    next h =>
      have hsample : s.sample.cur < s.sample.ctx.length := by simpa using hs
      rw [State.accumulate_me _ i hsample, State.sample_me _ hs, hv h]
    next => rfl

theorem rbyte_micros (s : State) {i : Nat} (hi : i < 8) :
    Micros s 6 (rbyteMicro i) (rbitEvents s.cfg.timing s.cur (s.env.level 0)) (readRegs (s.env.level 0) i) := by
  refine ⟨rfl, fun k u hk hlen => rbyteMicro_act u hlen hi hk, fun k u hk hu => ?trace,
    fun k u hk hlen hu => rbyteMicro_me hlen i hk hu.drawLevel_of_rbitEvents, ?pos⟩
  case trace => rw [rbyteMicro_trace i hk hu.drawLevel_of_rbitEvents, hu.acts.own.cfg, hu.acts.own.cur]
  case pos =>
    intro k x p
    unfold readRegs
    split_ifs <;> rfl

/-- The caller's registers after bit `i` of RBYTE. -/
theorem regsAfter_readRegs (v : Level) (i : Nat) (x : Ctx) : regsAfter (readRegs v i) 6 x =
    { x with acc := (if i = 0 then 0 else x.acc) ||| (v.setWidth 8 <<< i), smp := v, idx := i + 1 } := by
  by_cases h : i = 0
  · subst h
    rfl
  · simp [regsAfter, readRegs, orBit, h]

/-- Settles O24: RBIT is the run of its six micro-steps, of which B5 alone writes a register; a bit of RBYTE is the same
run, with the sample accumulated. -/
theorem rbitRule : Obligations.RbitRule := by
  refine ⟨decodeRequest_eq_ok_iff.mpr ⟨rfl, rfl⟩, fun w hop himm => ?illegal,
    fun s hr => ⟨fun hfree => ?fault, fun hheld => ?run⟩, fun s k hk hat => ?micro, fun s i hi hat => ?call⟩
  case illegal => exact isIllegal_of_operand hop (by decide) himm
  case fault => exact request_not_held hr hfree ..
  case run =>
    have hdata : ((s.env.level 0).setWidth 17).setWidth 32 = (s.env.level 0).setWidth 32 :=
      BitVec.setWidth_setWidth (by omega)
    rw [← hdata, ← responseWord_ok, ← s.env.afterDraw_eq_afterDraws]
    exact (rbit_micros (s.begun _ _)).run_request (regs := fun x => { x with smp := s.env.level 0 })
      (res := fun _ => .ok) (data := fun x => x.smp.setWidth 17) (fun _ => rfl) hr (mustHold_of_held hheld _) rfl
  case micro =>
    obtain ⟨t, hexec, hme, htrace⟩ := request_sequence_micro hat hk (rbitMicro_act s hat.1.2 (f := id) hk fun u _ =>
      ⟨Quiet.rfl u, Stays.rfl u⟩) ..
    refine ⟨t, hexec, congrArg Ctx.pos hme, ?_, ?_⟩
    · exact htrace.trans (rbitMicro_trace id (fun _ => rfl) hk fun _ => s.drawLevel_eq_level)
    · rw [hme, rbitMicro_id_me hat.1.2 hk fun _ => s.drawLevel_eq_level]
      exact apply_ite Ctx.smp ..
  case call =>
    obtain ⟨v, hrun, hran, hpos⟩ := (rbyte_micros s hi).run (i := .rbyte) (P := bitPos .rbyte .rbit 6 i) hat
      fun k u hk _ hu => request_byte_next hi hk hu ..
    rw [hrun, (rbyte_micros s hi).eq_of_ran hat.1.2 hran hpos (f := fun x => { x with
      acc := (if i = 0 then 0 else x.acc) ||| ((s.env.level 0).setWidth 8 <<< i)
      smp := s.env.level 0
      idx := i + 1
      pos := [⟨.rbyte, i + 1⟩] }) (by rw [regsAfter_readRegs]; rfl), ← s.env.afterDraw_eq_afterDraws]
    rfl

end Sys2Proof.Machine
end

section
/-! SUPPORT. A byte request end to end (42_byte_codec.md R150, R152; 10_state.md R31): its positions, and the start and
the answer around the micro-steps of its eight bits. -/

namespace Sys2Proof.Machine

variable {s v : State}

/-- A caller whose eight bits are done answers. -/
theorem request_byte_answer {p q : Proc} {n : Nat} (h : s.At [⟨p, 8⟩]) (w : Word) (chk : State → Option FaultCause)
    (micro : Nat → Nat → State → State) (answer : State → State) :
    request w p chk (byteRequest p q n micro answer) s = .next (answer s) := by
  obtain ⟨hlive, hbusy, hpos⟩ := h
  rw [request_running hlive hbusy hpos rfl, byteRequest, if_pos ⟨rfl, rfl⟩]

/-- After the last micro-step of a bit the next bit has not begun. -/
theorem bitPos_last (p q : Proc) {n : Nat} (hn : 0 < n) (i : Nat) : bitPos p q n i n = bitPos p q n (i + 1) 0 := by
  simp [bitPos, callFrames, hn.ne]

theorem bitPos_succ (p q : Proc) (n i k : Nat) :
    bitPos p q (n + 1) i (k + 1) = if k = n then [⟨p, i + 1⟩] else [⟨p, i⟩, ⟨q, k + 1⟩] := by
  simp [bitPos, callFrames]

/-- A byte request that meets its check, whose eight bits took `m` steps, appended the events `es` and changed the
caller's registers by `regs`. -/
theorem execTimes_byte_request {i : Instr} {w : Word} {p q : Proc} {chk : State → Option FaultCause} {n m : Nat}
    {micro : Nat → Nat → State → State} {data : Ctx → BitVec 17} {es : List Event} {regs : Ctx → Ctx}
    (hexec : ∀ u, exec i u = request w p chk (byteRequest p q n micro fun t => t.respond .ok (data t.me)) u)
    (hr : s.AtRest) (hchk : chk s = none) (hrun : execTimes i m (s.begun w p) = .next v)
    (hacts : Acts (s.begun w p) v es) (hme : v.me = { regs s.me with status := .busy, req := w, pos := [⟨p, 8⟩] }) :
    execTimes i (m + 2) s = .next { s.completed w ((data v.me).setWidth 32) es regs with
      lineDir := es.foldl (fun d e => e.dirOf d) s.lineDir
      lineOut := es.foldl (fun v e => e.outOf v) s.lineOut
      lock := es.foldl (fun l e => e.lockOf l) s.lock
      env := es.foldl (fun v e => e.envOf v) s.env } := by
  have hat : v.At [⟨p, 8⟩] := ⟨hacts.live (State.begun_at hr.1 w p).1, congrArg Ctx.status hme, congrArg Ctx.pos hme⟩
  rw [← responseWord_ok]
  refine execTimes_completed hr.1.2 ?start hrun ?answer hacts hme
  case start => rw [hexec, request_idle hr, hchk, start_eq]
  case answer => rw [hexec, request_byte_answer hat]

/-- The converse of `Acts.eq`: a change of the caller's registers, and the shared state what the events make of it. -/
theorem Acts.of_regs (hs : s.cur < s.ctx.length) (es : List Event) {f : Ctx → Ctx}
    (hport : (f s.me).port = s.me.port) (hidx : (f s.me).idx ≤ 8) :
    Acts s { s with
      lineDir := es.foldl (fun d e => e.dirOf d) s.lineDir
      lineOut := es.foldl (fun v e => e.outOf v) s.lineOut
      lock := es.foldl (fun l e => e.lockOf l) s.lock
      trace := s.trace ++ es
      env := es.foldl (fun v e => e.envOf v) s.env
      ctx := s.ctx.modify s.cur f } es :=
  have h := s.mapMe_own hs f hport fun _ => hidx
  ⟨⟨Eq.refl _, Eq.refl _, h.len, h.others, h.port, h.idx⟩, Eq.refl _, Eq.refl _, Eq.refl _, Eq.refl _, Eq.refl _,
    Eq.refl _⟩

end Sys2Proof.Machine
end

section
/-! SUPPORT. WBYTE (42_byte_codec.md R150), as a request and as SAMPLE's procedure: O25. The run of its 64 micro-steps
is `execTimes_byte`. -/

namespace Sys2Proof.Machine

variable {s : State}

/-! ## The registers a micro-step of WBYTE writes -/

theorem slotRegs_acc (b : Byte) (i k : Nat) (x : Ctx) :
    (slotRegs b i k x).acc = if i = 0 ∧ k = 0 then b else x.acc := by
  by_cases hk : k = 0 <;> simp [slotRegs, hk, apply_ite Ctx.acc]

theorem slotRegs_bitv (b : Byte) (i k : Nat) (x : Ctx) :
    (slotRegs b i k x).bitv = if k = 0 then (if i = 0 then b else x.acc).extractLsb' i 1 else x.bitv := by
  by_cases hi : i = 0 <;> simp [slotRegs, hi, apply_ite Ctx.bitv]

theorem slotRegs_idx (b : Byte) (i k : Nat) (x : Ctx) :
    (slotRegs b i k x).idx = if k = 7 then i + 1 else if i = 0 ∧ k = 0 then 0 else x.idx := by
  by_cases hk : k = 0 <;> simp [slotRegs, hk, apply_ite Ctx.idx]

/-! ## The rule -/

/-- The request WBYTE: its start, the 64 micro-steps of its byte, its answer. -/
theorem execTimes_wbyte (b : Byte) (hr : s.AtRest) (hheld : s.lock = .held s.cur) :
    execTimes (.wbyte b) 66 s = .next
      { s.completed (requestWord (.wbyte b)) 0 (wbyteEvents s.cfg.timing s.cur b)
          (fun x => { x with acc := b, idx := 8, bitv := b.extractLsb' 7 1 }) with
        lineDir := .output, lineOut := 1 } := by
  have hat := State.begun_at hr.1 (requestWord (.wbyte b)) .wbyte
  have hrun := execTimes_byte (instr := .wbyte b) (P := bitPos .wbyte .wbit 8) hat
    (fun i _ => bitPos_last .wbyte .wbit (by omega) i) fun i k u hi hk _ hu => request_byte_next hi hk hu ..
  have hacts := Acts.of_regs hat.1.2 (wbyteEvents s.cfg.timing s.cur b)
    (f := fun x => { byteCtx b 8 x with pos := [⟨.wbyte, 8⟩] }) rfl (Nat.le_refl 8)
  have hme := State.mapMe_me _ (fun x => { byteCtx b 8 x with pos := [⟨.wbyte, 8⟩] }) hat.1.2
  rw [State.begun_me hr.1.2] at hme
  exact execTimes_byte_request (data := fun _ => 0) (regs := byteCtx b 8) (fun _ => rfl) hr
    (mustHold_of_held hheld _) hrun hacts hme

/-- Settles O25: a word is WBYTE's by its high bits; request and procedure are the run of the 64 micro-steps at their
own positions; a micro-step's registers are those of `slotRegs`. -/
theorem wbyteRule : Obligations.WbyteRule := by
  refine ⟨fun w hw => ?decode, fun w hop himm => ?illegal, fun b s hr => ⟨fun hfree => ?fault, execTimes_wbyte b hr⟩,
    fun b s i k hi hk hat => ?micro, fun s j k hat hj => ?call⟩
  case decode =>
    exact decodeRequest_of_high_eq (f := .wbyte) rfl (by omega) (fun _ => rfl) (fun _ => rfl) (fun _ => rfl) hw
  case illegal =>
    exact (illegalWordsFault w).2 fun ⟨_, _, _, _, hbyte⟩ => himm (hbyte (congrArg BitVec.toNat hop))
  case fault => exact request_not_held hr hfree ..
  case micro =>
    have hat' : s.At (bitPos .wbyte .wbit 8 i k) := (bitPos_of_lt .wbyte .wbit i hk).symm ▸ hat
    have hacts := wbyteMicro_acts hat.1.2 b hi hk (.inr rfl)
    refine ⟨_, request_byte_next hi hk hat' .., ?_⟩
    rw [State.setPos_me _ _ (hacts.own.bound hat.1.2), wbyteMicro_me hat.1.2 b hi hk]
    exact ⟨bitPos_succ .., hacts.trace, slotRegs_acc .., slotRegs_bitv .., slotRegs_idx ..⟩
  case call =>
    intro b
    refine execTimes_byte (P := commandPos j) hat (fun _ _ => rfl) fun i m u hi hm hcfg hu => ?_
    rw [← hcfg] at hj
    rw [commandPos_of_lt j hi hm] at hu
    have hcommand := exec_command_micro hj hi hm hu
    obtain ⟨-, hbusy, hpos⟩ := hu
    rw [← exec_command_eq_sample hbusy (hpos ▸ commandAt_sample hj _), hcommand, hcfg]

end Sys2Proof.Machine
end

section
/-! SUPPORT. RBYTE (42_byte_codec.md R152), as a request and as SAMPLE's procedure (43_transaction.md R168), and what it
answers when the draws are a byte's bits (R153): O26 and O27. A caller that keeps the byte does so in the micro-step
that ends it, so the run is stated for what becomes of the registers then. -/

namespace Sys2Proof.Machine

variable {s u v : State}

/-! ## Draws -/

/-- The byte the first `n` draws make, the first in bit 0. -/
def Env.bits (e : Env) (n : Nat) : Byte := (List.range n).foldl (fun b i => b ||| ((e.level i).setWidth 8 <<< i)) 0

theorem Env.byte_zero (e : Env) : e.byte 0 = e.bits 8 := by simp only [Env.byte, Env.bits, Nat.zero_add]

theorem Env.bits_succ (e : Env) (n : Nat) : e.bits (n + 1) = e.bits n ||| ((e.level n).setWidth 8 <<< n) := by
  rw [Env.bits, List.range_succ, List.foldl_append]
  rfl

theorem Env.level_afterDraws (e : Env) (n k : Nat) : (e.afterDraws n).level k = e.level (n + k) := by
  simp [Env.level, Env.afterDraws, Nat.add_assoc]

theorem Env.afterDraw_afterDraws (e : Env) (n : Nat) : (e.afterDraws n).afterDraw = e.afterDraws (n + 1) := by
  simp [Env.afterDraw, Env.afterDraws, Nat.add_assoc]

/-- The events of the first `n` bits of a byte read. -/
def readEvents (t : Timing) (c : Nat) (e : Env) (n : Nat) : List Event :=
  (List.range n).flatMap fun i => rbitEvents t c (e.level i)

theorem rbyteEvents_zero (t : Timing) (c : Nat) (e : Env) : rbyteEvents t c e 0 = readEvents t c e 8 := by
  simp only [rbyteEvents, readEvents, Nat.zero_add]

theorem readEvents_succ (t : Timing) (c : Nat) (e : Env) (n : Nat) :
    readEvents t c e (n + 1) = readEvents t c e n ++ rbitEvents t c (e.level n) := by
  rw [readEvents, List.range_succ, List.flatMap_append, List.flatMap_singleton]
  rfl

/-- A bit draws once. -/
theorem foldl_envOf_readEvents (t : Timing) (c : Nat) (e : Env) (n : Nat) :
    (readEvents t c e n).foldl (fun v e => e.envOf v) e = e.afterDraws n := by
  induction n with
  | zero => rfl
  | succ n ih =>
    rw [readEvents_succ, List.foldl_append, ih, ← e.afterDraw_afterDraws]
    rfl

/-! ## The last micro-step -/

/-- `f` changes registers alone: not where the caller stands, its request and its port. -/
structure RegsOnly (f : Ctx → Ctx) : Prop where
  status : ∀ x, (f x).status = x.status
  req : ∀ x, (f x).req = x.req
  pos : ∀ x, (f x).pos = x.pos
  resp : ∀ x, (f x).resp = x.resp
  port : ∀ x, (f x).port = x.port
  idx : ∀ x, (f x).idx = x.idx
  setPos : ∀ x p, f { x with pos := p } = { f x with pos := p }

/-- Micro-step `k` of bit `i` of RBYTE, with the change of the caller's registers that ends the byte. -/
def storingMicro (f : Ctx → Ctx) (i k : Nat) (s : State) : State :=
  if i = 7 ∧ k = 5 then (rbyteMicro i k s).mapMe f else rbyteMicro i k s

/-- What it makes of the caller's registers, `v` being the level B5 samples. -/
def storingRegs (f : Ctx → Ctx) (v : Level) (i k : Nat) (x : Ctx) : Ctx :=
  if i = 7 ∧ k = 5 then f (readRegs v i k x) else readRegs v i k x

theorem storingMicro_id (i k : Nat) (s : State) : storingMicro id i k s = rbyteMicro i k s := by
  simp [storingMicro, State.mapMe, State.mapCtx]

theorem storingMicro_act {f : Ctx → Ctx} (hf : RegsOnly f) (hs : s.cur < s.ctx.length) {i k : Nat} (hi : i < 8)
    (hk : k < 6) : ∃ e, Act s (storingMicro f i k s) e ∧ e.isCodec = true ∧ Stays s (storingMicro f i k s) := by
  obtain ⟨e, hact, hcodec, hstays⟩ := rbyteMicro_act s hs hi hk
  have hlen := hact.own.bound hs
  unfold storingMicro
  split
  next =>
    have hquiet := State.mapMe_quiet _ hlen f (hf.port _) (hf.idx _ ▸ id)
    exact ⟨e, hact.then_quiet hquiet, hcodec,
      hstays.trans (State.mapMe_stays _ hlen f (hf.status _) (hf.req _) (hf.pos _) (hf.resp _))⟩
  next => exact ⟨e, hact, hcodec, hstays⟩

theorem storingMicro_trace (f : Ctx → Ctx) (i k : Nat) (s : State) :
    (storingMicro f i k s).trace = (rbyteMicro i k s).trace := by
  unfold storingMicro
  split <;> rfl

theorem storingMicro_me (f : Ctx → Ctx) (hs : s.cur < s.ctx.length) {i k : Nat} (hi : i < 8) (hk : k < 6) {v : Level}
    (hv : k = 4 → s.drawLevel = v) : (storingMicro f i k s).me = storingRegs f v i k s.me := by
  obtain ⟨e, hact, -⟩ := rbyteMicro_act s hs hi hk
  unfold storingMicro storingRegs
  split
  next => rw [State.mapMe_me _ _ (hact.own.bound hs), rbyteMicro_me hs i hk hv]
  next => exact rbyteMicro_me hs i hk hv

theorem storing_micros {f : Ctx → Ctx} (hf : RegsOnly f) (s : State) {i : Nat} (hi : i < 8) :
    Micros s 6 (storingMicro f i) (rbitEvents s.cfg.timing s.cur (s.env.level 0))
      (storingRegs f (s.env.level 0) i) := by
  have hread := rbyte_micros s hi
  refine ⟨rfl, fun k u hk hlen => storingMicro_act hf hlen hi hk, fun k u hk hu => ?trace,
    fun k u hk hlen hu => storingMicro_me f hlen hi hk hu.drawLevel_of_rbitEvents, fun k x p => ?pos⟩
  case trace =>
    rw [storingMicro_trace, rbyteMicro_trace i hk hu.drawLevel_of_rbitEvents, hu.acts.own.cfg, hu.acts.own.cur]
  case pos =>
    unfold storingRegs
    split
    next => rw [hread.pos, hf.setPos]
    next => rw [hread.pos]

/-- The caller's registers after a bit. -/
theorem regsAfter_storingRegs (f : Ctx → Ctx) (v : Level) (i : Nat) (x : Ctx) : regsAfter (storingRegs f v i) 6 x =
    if i = 7 then f (regsAfter (readRegs v i) 6 x) else regsAfter (readRegs v i) 6 x := by
  by_cases h : i = 7 <;> simp [regsAfter, storingRegs, h]

/-! ## The byte -/

/-- The registers RBYTE writes, when `n` bits are read. -/
def readBits (e : Env) (n : Nat) (x : Ctx) : Ctx := { x with acc := e.bits n, smp := e.level (n - 1), idx := n }

/-- The caller's context when `n` bits of a byte are read, `f` being what ends the byte. -/
def readCtx (f : Ctx → Ctx) (e : Env) (n : Nat) (x : Ctx) : Ctx :=
  if n = 0 then x else if n = 8 then f (readBits e n x) else readBits e n x

/-- From `s` to `u`, `n` bits of a byte were read, and the caller stands where `Q` says. -/
structure InRead (f : Ctx → Ctx) (s : State) (Q : Nat → List Frame) (n : Nat) (u : State) : Prop where
  acts : Acts s u (readEvents s.cfg.timing s.cur s.env n)
  me : u.me = { readCtx f s.env n s.me with pos := Q n }

theorem InRead.env {f : Ctx → Ctx} {Q : Nat → List Frame} {n : Nat} (h : InRead f s Q n u) :
    u.env = s.env.afterDraws n := h.acts.env.trans (foldl_envOf_readEvents ..)

theorem readCtx_status {f : Ctx → Ctx} (hf : RegsOnly f) (e : Env) (n : Nat) (x : Ctx) :
    (readCtx f e n x).status = x.status := by
  unfold readCtx
  split_ifs <;> simp only [hf.status, readBits]

theorem InRead.standsAt {f : Ctx → Ctx} (hf : RegsOnly f) {Q : Nat → List Frame} {n : Nat} (h : InRead f s Q n u)
    (hat : s.At (Q 0)) : u.At (Q n) := by
  obtain ⟨hl, hb, -⟩ := hat
  exact ⟨h.acts.live hl, by rw [h.me]; exact (readCtx_status hf s.env n s.me).trans hb, by rw [h.me]⟩

/-- A bit takes the context to that of one bit more. -/
theorem regsAfter_readCtx {f : Ctx → Ctx} (hf : RegsOnly f) (e : Env) {n : Nat} (hn : n < 8) (x : Ctx)
    (pos pos' : List Frame) :
    { regsAfter (storingRegs f (e.level n) n) 6 { readCtx f e n x with pos := pos } with pos := pos' } =
      { readCtx f e (n + 1) x with pos := pos' } := by
  have hbit : regsAfter (readRegs (e.level n) n) 6 { readCtx f e n x with pos := pos } =
      { readBits e (n + 1) x with pos := pos } := by
    rw [regsAfter_readRegs]
    by_cases h0 : n = 0
    · subst h0
      rfl
    · simp [readCtx, readBits, h0, hn.ne, e.bits_succ]
  rw [regsAfter_storingRegs, hbit]
  by_cases h7 : n = 7
  · subst h7
    rw [if_pos rfl, hf.setPos]
    rfl
  · simp [readCtx, h7]

theorem InRead.next {f : Ctx → Ctx} (hf : RegsOnly f) {Q : Nat → List Frame} {n : Nat} (hn : n < 8)
    (h : InRead f s Q n u)
    (hbit : Ran u (rbitEvents u.cfg.timing u.cur (u.env.level 0)) (storingRegs f (u.env.level 0) n) 6 v)
    (hpos : v.me.pos = Q (n + 1)) : InRead f s Q (n + 1) v := by
  have hacts := (storing_micros hf u hn).acts hbit
  have hlevel : u.env.level 0 = s.env.level n := by rw [h.env, s.env.level_afterDraws, Nat.add_zero]
  rw [hlevel, h.acts.own.cfg, h.acts.own.cur] at hacts
  refine ⟨?_, ?_⟩
  · rw [readEvents_succ]
    exact h.acts.trans hacts
  · rw [hbit.me, hpos, hlevel, h.me]
    exact regsAfter_readCtx hf s.env hn s.me _ _

/-- An instruction whose steps are the micro-steps of RBYTE reads the byte in 48 steps. -/
theorem execTimes_read {instr : Instr} {f : Ctx → Ctx} (hf : RegsOnly f) {P : Nat → Nat → List Frame}
    (hat : s.At (P 0 0)) (hP : ∀ i, i < 8 → P i 6 = P (i + 1) 0)
    (hexec : ∀ i k u, i < 8 → k < 6 → u.cfg = s.cfg → u.At (P i k) →
      exec instr u = .next ((storingMicro f i k u).setPos (P i (k + 1)))) :
    ∃ v, execTimes instr 48 s = .next v ∧ InRead f s (fun i => P i 0) 8 v := by
  change ∃ v, execTimes instr (6 * 8) s = .next v ∧ InRead f s (fun i => P i 0) 8 v
  refine execTimes_of_invariant (I := InRead f s fun i => P i 0) (fun i u hi h => ?_) ⟨Acts.rfl s, ?_⟩
  · obtain ⟨v, hrun, hran, hpos⟩ := (storing_micros hf u hi).run (i := instr) (P := P i) (h.standsAt hf hat)
      fun k w hk hw => hexec i k w hi hk (hw.acts.own.cfg.trans h.acts.own.cfg)
    exact ⟨v, hrun, h.next hf hi hran (hpos.trans (hP i hi))⟩
  · rw [← hat.2.2]
    rfl

/-! ## The request -/

theorem regsOnly_id : RegsOnly id := by constructor <;> intros <;> rfl

/-- The request RBYTE: its start, the 48 micro-steps of its byte, its answer. -/
theorem execTimes_rbyte (hr : s.AtRest) (hheld : s.lock = .held s.cur) :
    execTimes .rbyte 50 s = .next
      { s.completed 0x0B000000 ((s.env.byte 0).setWidth 32) (rbyteEvents s.cfg.timing s.cur s.env 0)
          (fun x => { x with acc := s.env.byte 0, idx := 8, smp := s.env.level 7 }) with
        lineDir := .input, lineOut := 0, env := s.env.afterDraws 8 } := by
  have hat := State.begun_at hr.1 0x0B000000 .rbyte
  obtain ⟨v, hrun, hread⟩ := execTimes_read regsOnly_id (instr := .rbyte) (P := bitPos .rbyte .rbit 6) hat
    (fun i _ => bitPos_last .rbyte .rbit (by omega) i) fun i k u hi hk _ hu => by
      rw [storingMicro_id]
      exact request_byte_next hi hk hu ..
  have hme := hread.me
  rw [State.begun_me hr.1.2] at hme
  have hdata : (v.me.acc.setWidth 17).setWidth 32 = (s.env.byte 0).setWidth 32 := by
    rw [BitVec.setWidth_setWidth (by omega), hme, s.env.byte_zero]
    rfl
  rw [← hdata, rbyteEvents_zero, s.env.byte_zero, ← foldl_envOf_readEvents s.cfg.timing s.cur]
  exact execTimes_byte_request (data := fun x => x.acc.setWidth 17) (regs := readBits s.env 8) (fun _ => rfl) hr
    (mustHold_of_held hheld _) hrun hread.acts hme

/-! ## As a procedure of SAMPLE -/

/-- The frames inside SAMPLE's of a byte procedure at `pos`: none before its first micro-step (10_state.md R31). -/
def calledFrames (p : Proc) (pos : List Frame) : List Frame := if pos = [⟨p, 0⟩] then [] else pos

/-- Where SAMPLE stands when a byte procedure it calls at index `j` is at `pos`: after the procedure's last micro-step
at the next index. -/
def calledPos (p : Proc) (j : Nat) (pos : List Frame) : List Frame :=
  if pos = [⟨p, 8⟩] then [⟨.sample, j + 1⟩] else ⟨.sample, j⟩ :: calledFrames p pos

theorem bitPos_ne_end (p q : Proc) {n i k : Nat} (hi : i < 8) (hk : k < n) : bitPos p q n i k ≠ [⟨p, 8⟩] := by
  rw [bitPos_of_lt p q i hk]
  exact fun h => hi.ne (congrArg Frame.index (List.cons.inj h).1)

theorem bitPos_succ_eq_end_iff (p q : Proc) (n i k : Nat) :
    bitPos p q (n + 1) i (k + 1) = [⟨p, 8⟩] ↔ i = 7 ∧ k = n := by
  rw [bitPos_succ]
  by_cases h : k = n <;> simp [h]

theorem bitPos_succ_ne_nil (p q : Proc) (n i k : Nat) : bitPos p q (n + 1) i (k + 1) ≠ [] := by
  rw [bitPos_succ]
  split <;> exact List.cons_ne_nil _ _

theorem calledFrames_bitPos_succ (p q : Proc) (n i k : Nat) :
    calledFrames p (bitPos p q (n + 1) i (k + 1)) = bitPos p q (n + 1) i (k + 1) := by
  rw [bitPos_succ]
  by_cases h : k = n <;> simp [calledFrames, h]

/-- A micro-step of a called byte procedure: its frame goes with the last micro-step of the eighth bit. -/
theorem callByte_calledFrames {p q : Proc} {n i k : Nat} (hi : i < 8) (hk : k < n + 1)
    (micro : Nat → Nat → State → State) :
    callByte p q (n + 1) micro (calledFrames p (bitPos p q (n + 1) i k)) s =
      some (micro i k s, if i = 7 ∧ k = n then [] else bitPos p q (n + 1) i (k + 1)) := by
  have hat : callByteAt p q (n + 1) micro i (callFrames q k) s =
      some (micro i k s, if i = 7 ∧ k = n then [] else bitPos p q (n + 1) i (k + 1)) := by
    rw [callByteAt, byteBit_callFrames hi hk, bitPos_succ]
    by_cases h : k = n
    · by_cases h7 : i = 7 <;> simp [h, h7]
    · simp [h, hi.ne]
  rw [bitPos_of_lt p q i hk]
  by_cases h0 : i = 0 ∧ k = 0
  · obtain ⟨rfl, rfl⟩ := h0
    simpa [calledFrames, callFrames, callByte] using hat
  · have hframes : calledFrames p (⟨p, i⟩ :: callFrames q k) = ⟨p, i⟩ :: callFrames q k := by
      by_cases hk0 : k = 0
      · simp [calledFrames, callFrames, hk0, show i ≠ 0 from fun hi0 => h0 ⟨hi0, hk0⟩]
      · simp [calledFrames, callFrames, hk0]
    rw [hframes, callByte, if_pos rfl]
    exact hat

/-- A micro-step of RBYTE at its call, `f` being what SAMPLE does with the byte. -/
theorem exec_read_micro {f : Ctx → Ctx} {i j k : Nat}
    (hbody : ∀ inner, sampleBody j inner s = sampleCall (callRbyte inner s) (State.mapMe · f) j)
    (hi : i < 8) (hk : k < 6) (hat : s.At (calledPos .rbyte j (bitPos .rbyte .rbit 6 i k))) :
    exec .sample s =
      .next ((storingMicro f i k s).setPos (calledPos .rbyte j (bitPos .rbyte .rbit 6 i (k + 1)))) := by
  rw [calledPos, if_neg (bitPos_ne_end _ _ hi hk)] at hat
  obtain ⟨hl, hb, hpos⟩ := hat
  have hexec : exec .sample s = sampleBody j _ s := request_running hl hb hpos rfl ..
  rw [hexec, hbody, callRbyte, callByte_calledFrames hi hk, sampleCall_some, storingMicro, calledPos,
    calledFrames_bitPos_succ]
  simp only [bitPos_succ_eq_end_iff]
  by_cases hlast : i = 7 ∧ k = 5
  · simp only [if_pos hlast]
    rfl
  · simp only [if_neg hlast, bitPos_succ_ne_nil, if_false]
    rfl

/-- SAMPLE's call of RBYTE, `f` being what it does with the byte. -/
theorem execTimes_sample_read {f : Ctx → Ctx} (hf : RegsOnly f) {j : Nat} (hat : s.At [⟨.sample, j⟩])
    (hbody : ∀ u inner, u.cfg = s.cfg → sampleBody j inner u = sampleCall (callRbyte inner u) (State.mapMe · f) j) :
    execTimes .sample 48 s = .next { s with
      lineDir := .input
      lineOut := 0
      env := s.env.afterDraws 8
      trace := s.trace ++ rbyteEvents s.cfg.timing s.cur s.env 0
      ctx := s.ctx.modify s.cur fun x => { f (readBits s.env 8 x) with pos := [⟨.sample, j + 1⟩] } } := by
  obtain ⟨v, hrun, hread⟩ := execTimes_read hf (instr := .sample)
    (P := fun i k => calledPos .rbyte j (bitPos .rbyte .rbit 6 i k)) hat
    (fun i _ => congrArg _ (bitPos_last .rbyte .rbit (by omega) i))
    fun i k u hi hk hcfg hu => exec_read_micro (fun inner => hbody u inner hcfg) hi hk hu
  rw [hrun, hread.acts.eq hat.1.2 (f := fun x => { f (readBits s.env 8 x) with pos := [⟨.sample, j + 1⟩] }) hread.me,
    rbyteEvents_zero, ← foldl_envOf_readEvents s.cfg.timing s.cur]
  rfl

/-- `LO <-` the byte. -/
def keepLow (x : Ctx) : Ctx := { x with lo := x.acc }

/-- `HI <-` the byte, `RAW <- HI ++ LO`. -/
def keepHigh (x : Ctx) : Ctx := { x with hi := x.acc, raw := rawOf x.acc x.lo }

theorem regsOnly_keepLow : RegsOnly keepLow := by constructor <;> intros <;> rfl

theorem regsOnly_keepHigh : RegsOnly keepHigh := by constructor <;> intros <;> rfl

theorem sampleBody_readLow {j : Nat} (hj : (samplePlan s.cfg.holdLock)[j]? = some .readLow) (inner : List Frame) :
    sampleBody j inner s = sampleCall (callRbyte inner s) (State.mapMe · keepLow) j := by
  rw [sampleBody, hj]
  cases inner <;> rfl

theorem sampleBody_readHigh {j : Nat} (hj : (samplePlan s.cfg.holdLock)[j]? = some .readHigh) (inner : List Frame) :
    sampleBody j inner s = sampleCall (callRbyte inner s) (State.mapMe · keepHigh) j := by
  rw [sampleBody, hj]
  cases inner <;> rfl

theorem rawOf_eq_append (hi lo : Byte) : rawOf hi lo = hi ++ lo := by
  have h := BitVec.setWidth_append_eq_shiftLeft_setWidth_or (b := hi) (b' := lo) (w'' := 16)
  rw [rawOf, ← h, BitVec.setWidth_eq]

/-! ## The registers a micro-step of RBYTE writes -/

theorem readRegs_acc (v : Level) (i k : Nat) (x : Ctx) : (readRegs v i k x).acc =
    if i = 0 ∧ k = 0 then 0 else if k = 4 then x.acc ||| (v.setWidth 8 <<< i) else x.acc := by
  by_cases hk : k = 0
  · simp [readRegs, hk, apply_ite Ctx.acc]
  · by_cases h5 : k = 5 <;> simp [readRegs, hk, h5, apply_ite Ctx.acc, orBit]

theorem readRegs_idx (v : Level) (i k : Nat) (x : Ctx) :
    (readRegs v i k x).idx = if k = 5 then i + 1 else if i = 0 ∧ k = 0 then 0 else x.idx := by
  by_cases hk : k = 0 <;> simp [readRegs, hk, apply_ite Ctx.idx]

/-- Settles O26: request and procedure are the run of the 48 micro-steps at their own positions, the last of which keeps
the byte for SAMPLE; a micro-step's registers are those of `readRegs`. -/
theorem rbyteRule : Obligations.RbyteRule := by
  refine ⟨decodeRequest_eq_ok_iff.mpr ⟨rfl, rfl⟩, fun w hop himm => ?illegal,
    fun s hr => ⟨fun hfree => ?fault, execTimes_rbyte hr⟩, fun s i k hi hk hat => ?micro,
    fun s j hat => ⟨fun hlow => ?low, fun hhigh => ?high⟩⟩
  case illegal => exact isIllegal_of_operand hop (by decide) himm
  case fault => exact request_not_held hr hfree ..
  case micro =>
    have hat' : s.At (bitPos .rbyte .rbit 6 i k) := (bitPos_of_lt .rbyte .rbit i hk).symm ▸ hat
    have hdraw : k = 4 → s.drawLevel = s.env.level 0 := fun _ => s.drawLevel_eq_level
    obtain ⟨e, hact, -⟩ := rbyteMicro_act s hat.1.2 hi hk
    refine ⟨_, request_byte_next hi hk hat' .., ?_⟩
    rw [State.setPos_me _ _ (hact.own.bound hat.1.2), rbyteMicro_me hat.1.2 i hk hdraw]
    exact ⟨bitPos_succ .., rbyteMicro_trace i hk hdraw, readRegs_acc .., readRegs_idx ..⟩
  case low =>
    rw [s.env.byte_zero]
    exact execTimes_sample_read regsOnly_keepLow hat fun u inner hcfg => sampleBody_readLow (hcfg ▸ hlow) inner
  case high =>
    rw [s.env.byte_zero]
    simp only [← rawOf_eq_append]
    exact execTimes_sample_read regsOnly_keepHigh hat fun u inner hcfg => sampleBody_readHigh (hcfg ▸ hhigh) inner

/-! ## The round trip -/

/-- A level moved to bit `n` of a byte. -/
theorem getLsbD_level_shiftLeft (v : Level) {n : Nat} (hn : n < 8) (j : Nat) :
    (v.setWidth 8 <<< n).getLsbD j = (decide (j = n) && v.getLsbD 0) := by
  rcases Nat.lt_trichotomy j n with h | rfl | h
  · simp [h, h.ne]
  · simp [hn]
  · simp [h.ne', show 1 ≤ j - n by omega]

/-- Bit `j` of the byte is draw `j`. -/
theorem Env.getLsbD_bits (e : Env) {n : Nat} (hn : n ≤ 8) (j : Nat) :
    (e.bits n).getLsbD j = (decide (j < n) && (e.level j).getLsbD 0) := by
  induction n with
  | zero => simp [Env.bits]
  | succ n ih =>
    rw [e.bits_succ, BitVec.getLsbD_or, ih (by omega), getLsbD_level_shiftLeft _ hn]
    rcases Nat.lt_trichotomy j n with h | rfl | h
    · simp [h, h.ne, show j < n + 1 by omega]
    · simp
    · simp [h.ne', show ¬ j < n by omega, show ¬ j < n + 1 by omega]

/-- The response the host finds when a request has been answered. -/
theorem me_resp_of_completed {t : State} {w resp : Word} {es : List Event} {regs : Ctx → Ctx}
    (hs : s.cur < s.ctx.length) (hcur : t.cur = s.cur) (hctx : t.ctx = (s.completed w resp es regs).ctx) :
    t.me.resp = some resp :=
  congrArg Ctx.resp (s.me_of_modify hs hcur hctx)

/-- Settles O27: the byte RBYTE answers has draw `j` as its bit `j`. -/
theorem byteRoundTrip : Obligations.ByteRoundTrip := by
  intro s b hr hheld hdraws
  have hbyte : s.env.byte 0 = b := by
    rw [s.env.byte_zero]
    refine BitVec.eq_of_getLsbD_eq fun j hj => ?_
    rw [s.env.getLsbD_bits (Nat.le_refl 8), hdraws j hj]
    simp [hj]
  refine ⟨_, execTimes_rbyte hr hheld, ?_⟩
  rw [hbyte]
  exact me_resp_of_completed (es := rbyteEvents s.cfg.timing s.cur s.env 0) hr.1.2 rfl rfl

end Sys2Proof.Machine
end

section
/-! SUPPORT. Runs of SAMPLE across its items (43_transaction.md R160): the state is known by the events the steps
appended, the levels drawn and the caller's registers (`State.afterEvents`), so the steps of an item take a run on to the
next (`SampleReaches.extend`), and the answer ends it (`SampleReaches.answer`). -/

namespace Sys2Proof.Machine

variable {s : State}

/-! ## The state after events -/

/-- The state when the stepping caller's events `es` have happened, `d` levels were drawn, and `f` changed the caller's
context. -/
def State.afterEvents (s : State) (es : List Event) (d : Nat) (f : Ctx → Ctx) : State :=
  { s with
    lineDir := es.foldl (fun l e => e.dirOf l) s.lineDir
    lineOut := es.foldl (fun v e => e.outOf v) s.lineOut
    lock := es.foldl (fun l e => e.lockOf l) s.lock
    trace := s.trace ++ es
    env := s.env.afterDraws d
    ctx := s.ctx.modify s.cur f }

theorem Env.afterDraws_afterDraws (e : Env) (d k : Nat) : (e.afterDraws d).afterDraws k = e.afterDraws (d + k) := by
  simp [Env.afterDraws, Nat.add_assoc]

theorem State.afterEvents_afterEvents (s : State) (es fs : List Event) (d k : Nat) (f g : Ctx → Ctx) :
    (s.afterEvents es d f).afterEvents fs k g = s.afterEvents (es ++ fs) (d + k) (g ∘ f) := by
  simp [State.afterEvents, Env.afterDraws_afterDraws, List.modify_modify_eq]

theorem State.afterEvents_me (hs : s.cur < s.ctx.length) (es : List Event) (d : Nat) (f : Ctx → Ctx) :
    (s.afterEvents es d f).me = f s.me := s.me_of_modify hs rfl rfl

/-- Of a change of the caller's context only its value at that context matters. -/
theorem State.modify_congr (hs : s.cur < s.ctx.length) {f g : Ctx → Ctx} (h : f s.me = g s.me) :
    s.ctx.modify s.cur f = s.ctx.modify s.cur g := by
  simp [List.modify_eq_set_getElem?, s.getElem?_me hs, h]

theorem State.afterEvents_congr (hs : s.cur < s.ctx.length) (es : List Event) (d : Nat) {f g : Ctx → Ctx}
    (h : f s.me = g s.me) : s.afterEvents es d f = s.afterEvents es d g := by
  simp only [State.afterEvents, State.modify_congr hs h]

theorem State.afterEvents_nil (s : State) (f : Ctx → Ctx) : s.afterEvents [] 0 f = s.mapMe f := by
  simp [State.afterEvents, State.mapMe, State.mapCtx, Env.afterDraws]

/-! ## Runs between the items -/

/-- The state when SAMPLE's caller has come to index `j` with the registers of `x`. -/
def State.atItem (s : State) (es : List Event) (d : Nat) (x : Ctx) (j : Nat) : State :=
  s.afterEvents es d fun _ => { x with status := .busy, pos := [⟨.sample, j⟩] }

theorem State.atItem_level (s : State) (es : List Event) (d : Nat) (x : Ctx) (j k : Nat) :
    (s.atItem es d x j).env.level k = s.env.level (d + k) := s.env.level_afterDraws d k

theorem State.atItem_byte (s : State) (es : List Event) (d : Nat) (x : Ctx) (j : Nat) :
    (s.atItem es d x j).env.byte 0 = s.env.byte d := by
  simp only [Env.byte, State.atItem_level, Nat.zero_add]

theorem State.atItem_rbyteEvents (s : State) (es : List Event) (d : Nat) (x : Ctx) (j : Nat) (t : Timing) (c : Nat) :
    rbyteEvents t c (s.atItem es d x j).env 0 = rbyteEvents t c s.env d := by
  simp only [rbyteEvents, State.atItem_level, Nat.zero_add]

/-- From `s`, `n` steps append the events `es`, draw `d` levels and bring SAMPLE's caller to index `j` with the
registers of `x`. -/
structure SampleReaches (s : State) (n : Nat) (es : List Event) (d : Nat) (x : Ctx) (j : Nat) : Prop where
  live : s.Live
  run : execTimes .sample n s = .next (s.atItem es d x j)

variable {n m d k i j : Nat} {es fs : List Event} {x y : Ctx}

theorem SampleReaches.standsAt (h : SampleReaches s n es d x j) : (s.atItem es d x j).At [⟨.sample, j⟩] := by
  have hlen : (s.atItem es d x j).ctx.length = s.ctx.length := List.length_modify ..
  rw [State.At, State.atItem, State.afterEvents_me h.live.2]
  exact ⟨⟨h.live.1, hlen ▸ h.live.2⟩, rfl, rfl⟩

/-- A run, then the steps of an item. -/
theorem SampleReaches.extend {g : Ctx → Ctx} (h : SampleReaches s n es d x i)
    (hrun : execTimes .sample m (s.atItem es d x i) = .next ((s.atItem es d x i).afterEvents fs k g))
    (hg : g { x with status := .busy, pos := [⟨.sample, i⟩] } = { y with status := .busy, pos := [⟨.sample, j⟩] }) :
    SampleReaches s (n + m) (es ++ fs) (d + k) y j := by
  refine ⟨h.live, ?_⟩
  rw [execTimes_add .sample n m h.run, hrun, State.atItem, State.afterEvents_afterEvents]
  exact congrArg _ (congrArg (s.afterEvents _ _) (funext fun _ => hg))

/-- A run, then one step of SAMPLE's own frame. -/
theorem SampleReaches.extend_one {e : Event} (h : SampleReaches s n es d x i)
    (hexec : exec .sample (s.atItem es d x i) =
      .next ((s.atItem es d x i).afterEvents [e] 0 fun y => { y with pos := [⟨.sample, j⟩] })) :
    SampleReaches s (n + 1) (es ++ [e]) d x j := h.extend (execTimes_one hexec) rfl

/-- A caller at an index of SAMPLE has run no step. -/
theorem sampleReaches_at (hat : s.At [⟨.sample, j⟩]) : SampleReaches s 0 [] 0 s.me j := by
  obtain ⟨hl, hbusy, hpos⟩ := hat
  have hid : s.atItem [] 0 s.me j = s.afterEvents [] 0 id :=
    s.afterEvents_congr hl.2 [] 0 (by rw [← hbusy, ← hpos]; rfl)
  refine ⟨hl, ?_⟩
  rw [hid, State.afterEvents_nil, execTimes_zero]
  simp [State.mapMe, State.mapCtx]

/-- SAMPLE starts if the caller does not hold the lock. -/
theorem sampleReaches_start (hr : s.AtRest) (hlock : s.lock ≠ .held s.cur) :
    SampleReaches s 1 [] 0 { s.me with req := 0x0F000000 } 0 := by
  have hchk : mustNotHold s = none := by simp [mustNotHold, State.holds, hlock]
  have hstart : exec .sample s = .next (s.begun 0x0F000000 .sample) := by
    refine (request_idle hr ..).trans ?_
    rw [hchk, start_eq]
    rfl
  refine ⟨hr.1, ?_⟩
  rw [execTimes_one hstart, State.atItem, s.afterEvents_congr hr.1.2 [] 0
    (g := fun x => { x with status := .busy, req := 0x0F000000, pos := [⟨.sample, 0⟩] }) rfl, State.afterEvents_nil]
  rfl

/-- A run, then the answer. -/
theorem SampleReaches.answer {r : ResultCode} {v : BitVec 17} {w : Word} {regs : Ctx → Ctx} {dir : LineDir}
    {out : Level} {lock : Lock} (h : SampleReaches s n es d x j)
    (hexec : exec .sample (s.atItem es d x j) = .next ((s.atItem es d x j).respond r v))
    (hregs : { x with status := .idle, pos := [] } = { regs s.me with status := .idle, req := w, pos := [] })
    (hdir : es.foldl (fun l e => e.dirOf l) s.lineDir = dir) (hout : es.foldl (fun v e => e.outOf v) s.lineOut = out)
    (hlock : es.foldl (fun l e => e.lockOf l) s.lock = lock) :
    execTimes .sample (n + 1) s = .next { s.completed w (responseWord r v) es regs with
      lineDir := dir, lineOut := out, lock := lock, env := s.env.afterDraws d } := by
  let resp := responseWord r v
  have hrespond : (s.atItem es d x j).respond r v = (s.atItem es d x j).afterEvents [.respond s.cur resp] 0
      fun y => { y with status := .idle, pos := [], resp := some resp, ready := true } := rfl
  have hctx : { x with status := .idle, pos := [], resp := some resp, ready := true } =
      { regs s.me with status := .idle, req := w, pos := [], resp := some resp, ready := true } :=
    congrArg (fun y : Ctx => { y with resp := some resp, ready := true }) hregs
  rw [execTimes_add .sample n 1 h.run, execTimes_one hexec, hrespond, State.atItem, State.afterEvents_afterEvents,
    s.afterEvents_congr h.live.2 _ _ (g := fun y =>
      { regs y with status := .idle, req := w, pos := [], resp := some resp, ready := true }) hctx]
  simp only [State.afterEvents, List.foldl_append, ← List.append_assoc, hdir, hout, hlock]
  rfl

/-! ## The items -/

/-- A step of SAMPLE's own frame is a step of the item it stands at. -/
theorem exec_sample_item {item : SampleItem} (hat : s.At [⟨.sample, j⟩])
    (hj : (samplePlan s.cfg.holdLock)[j]? = some item) : exec .sample s = sampleItem item j [] s := by
  obtain ⟨hl, hbusy, hpos⟩ := hat
  have hbody : exec .sample s = sampleBody j [] s := request_running hl hbusy hpos rfl ..
  rw [hbody, sampleBody, hj]

theorem State.grab_of_free (h : s.lock = .free) (bounded : Bool) : s.grab bounded = .got s.acquire := by
  simp [State.grab, h]

theorem State.grab_of_held_by_other {c : Nat} (h : s.lock = .held c) (hc : c ≠ s.cur) :
    s.grab true = .late s.timeOut := by
  simp [State.grab, h, hc]

/-- Phases 1 and 5 with the lock free. -/
theorem SampleReaches.acquire (h : SampleReaches s n es d x j)
    (hj : (samplePlan s.cfg.holdLock)[j]? = some .acquire)
    (hfree : es.foldl (fun l e => e.lockOf l) s.lock = .free) :
    SampleReaches s (n + 1) (es ++ [.acquire s.cur]) d x (j + 1) := by
  refine h.extend_one ?_
  rw [exec_sample_item h.standsAt hj, sampleItem, sampleAcquire, State.grab_of_free hfree]
  rfl

/-- A time-out of phase 1 or 5 (R172). -/
theorem SampleReaches.timeOut {b c : Nat} (h : SampleReaches s n es d x j)
    (hj : (samplePlan s.cfg.holdLock)[j]? = some .acquire) (hbound : s.cfg.acquireBound = some b)
    (hheld : es.foldl (fun l e => e.lockOf l) s.lock = .held c) (hc : c ≠ s.cur) :
    SampleReaches s (n + 1) (es ++ [.busy s.cur]) d x (busyExit s.cfg.holdLock) := by
  refine h.extend_one ?_
  have hbounded : (s.atItem es d x j).cfg.acquireBound.isSome = true := congrArg Option.isSome hbound
  have hlate : (s.atItem es d x j).grab true = .late (s.atItem es d x j).timeOut := State.grab_of_held_by_other hheld hc
  rw [exec_sample_item h.standsAt hj, sampleItem, sampleAcquire, hbounded, hlate]
  rfl

/-- Phases 4 and 9. -/
theorem SampleReaches.release (h : SampleReaches s n es d x j)
    (hj : (samplePlan s.cfg.holdLock)[j]? = some .release) :
    SampleReaches s (n + 1) (es ++ [.release s.cur]) d x (j + 1) := by
  refine h.extend_one ?_
  rw [exec_sample_item h.standsAt hj]
  rfl

/-- The sleep of phase 4. -/
theorem SampleReaches.sleep (h : SampleReaches s n es d x j) (hj : (samplePlan s.cfg.holdLock)[j]? = some .sleep) :
    SampleReaches s (n + 1) (es ++ [.sleepMs s.cur s.cfg.timing.convMs]) d x (j + 1) := by
  refine h.extend_one ?_
  rw [exec_sample_item h.standsAt hj]
  rfl

/-- Phases 2 and 6: the branch is by the level drawn. -/
theorem SampleReaches.reset (h : SampleReaches s n es d x j) (hj : (samplePlan s.cfg.holdLock)[j]? = some .presence) :
    let v := s.env.level d
    SampleReaches s (n + 8) (es ++ rstpdEvents s.cfg.timing s.cur v) (d + 1)
      { x with smp := v, present := if v = 0 then 1 else 0 }
      (if v = 0 then j + 1 else presenceExit s.cfg.holdLock) := by
  obtain ⟨-, -, -, -, hcall⟩ := rstpdRule
  have hrun := hcall _ j h.standsAt hj
  simp only [State.atItem_level] at hrun
  exact h.extend hrun rfl

theorem SampleReaches.presence (h : SampleReaches s n es d x j)
    (hj : (samplePlan s.cfg.holdLock)[j]? = some .presence) (hv : s.env.level d = 0) :
    SampleReaches s (n + 8) (es ++ rstpdEvents s.cfg.timing s.cur 0) (d + 1) { x with smp := 0, present := 1 }
      (j + 1) := by
  have hreset := h.reset hj
  rwa [hv] at hreset

theorem SampleReaches.absence (h : SampleReaches s n es d x j)
    (hj : (samplePlan s.cfg.holdLock)[j]? = some .presence) (hv : s.env.level d = 1) :
    SampleReaches s (n + 8) (es ++ rstpdEvents s.cfg.timing s.cur 1) (d + 1) { x with smp := 1, present := 0 }
      (presenceExit s.cfg.holdLock) := by
  have hreset := h.reset hj
  rwa [hv] at hreset

/-- Phases 3 and 7: a wire command. -/
theorem SampleReaches.command {c : WireCmd} (h : SampleReaches s n es d x j)
    (hj : (samplePlan s.cfg.holdLock)[j]? = some (.command c)) :
    SampleReaches s (n + 64) (es ++ wbyteEvents s.cfg.timing s.cur (c.byte s.cfg.commands)) d
      { x with acc := c.byte s.cfg.commands, idx := 8, bitv := (c.byte s.cfg.commands).extractLsb' 7 1 } (j + 1) := by
  obtain ⟨-, -, -, -, hcall⟩ := wbyteRule
  exact h.extend (k := 0) (hcall _ j c h.standsAt hj) rfl

/-- Phase 8, the low byte. -/
theorem SampleReaches.readLow (h : SampleReaches s n es d x j) (hj : (samplePlan s.cfg.holdLock)[j]? = some .readLow) :
    SampleReaches s (n + 48) (es ++ rbyteEvents s.cfg.timing s.cur s.env d) (d + 8)
      { x with lo := s.env.byte d, acc := s.env.byte d, idx := 8, smp := s.env.level (d + 7) } (j + 1) := by
  obtain ⟨-, -, -, -, hcall⟩ := rbyteRule
  obtain ⟨hlow, -⟩ := hcall _ j h.standsAt
  simp only [State.atItem_level, State.atItem_byte, State.atItem_rbyteEvents] at hlow
  exact h.extend (hlow hj) rfl

/-- Phase 8, the high byte. -/
theorem SampleReaches.readHigh (h : SampleReaches s n es d x j)
    (hj : (samplePlan s.cfg.holdLock)[j]? = some .readHigh) :
    SampleReaches s (n + 48) (es ++ rbyteEvents s.cfg.timing s.cur s.env d) (d + 8)
      { x with
        hi := s.env.byte d, raw := s.env.byte d ++ x.lo, acc := s.env.byte d, idx := 8, smp := s.env.level (d + 7) }
      (j + 1) := by
  obtain ⟨-, -, -, -, hcall⟩ := rbyteRule
  obtain ⟨-, hhigh⟩ := hcall _ j h.standsAt
  simp only [State.atItem_level, State.atItem_byte, State.atItem_rbyteEvents] at hhigh
  exact h.extend (hhigh hj) rfl

end Sys2Proof.Machine
end

section
/-! SUPPORT. The transaction (43_transaction.md): its phases, its exits and its runs from the start. O31 to O34. -/

namespace Sys2Proof.Machine

variable {s : State} {n d j : Nat} {es : List Event} {x : Ctx}

/-! ## Where the items stand (log 13) -/

/-- The index at which phase 6 stands. -/
def secondReset (hold : Bool) : Nat := if hold then 5 else 7

theorem samplePlan_first (hold : Bool) :
    (samplePlan hold)[0]? = some .acquire ∧ (samplePlan hold)[1]? = some .presence
      ∧ (samplePlan hold)[2]? = some (.command .skipRom) ∧ (samplePlan hold)[3]? = some (.command .convertT) := by
  cases hold <;> exact ⟨rfl, rfl, rfl, rfl⟩

theorem samplePlan_second (hold : Bool) :
    (samplePlan hold)[secondReset hold]? = some .presence
      ∧ (samplePlan hold)[secondReset hold + 1]? = some (.command .skipRom)
      ∧ (samplePlan hold)[secondReset hold + 2]? = some (.command .readScratchpad)
      ∧ (samplePlan hold)[secondReset hold + 3]? = some .readLow
      ∧ (samplePlan hold)[secondReset hold + 4]? = some .readHigh
      ∧ (samplePlan hold)[secondReset hold + 5]? = some .release
      ∧ (samplePlan hold)[secondReset hold + 6]? = some .respondRaw := by
  cases hold <;> exact ⟨rfl, rfl, rfl, rfl, rfl, rfl, rfl⟩

theorem samplePlan_after_presenceExit (hold : Bool) :
    (samplePlan hold)[presenceExit hold + 1]? = some .respondNoResponse := by
  cases hold <;> rfl

/-! ## Exits -/

/-- A failed presence check: the lock is released and `NO_RESPONSE` answered (R162, R166). -/
theorem SampleReaches.noResponse {w : Word} {regs : Ctx → Ctx} {lock : Lock} (h : SampleReaches s n es d x j)
    (hj : (samplePlan s.cfg.holdLock)[j]? = some .presence) (hv : s.env.level d = 1)
    (hregs : { x with smp := 1, present := 0, status := .idle, pos := [] } =
      { regs s.me with status := .idle, req := w, pos := [] })
    (hlock : lock = .free) :
    execTimes .sample (n + 10) s = .next
      { s.completed w 0x10000000 (es ++ rstpdEvents s.cfg.timing s.cur 1 ++ [.release s.cur]) regs with
        lock := lock, lineDir := .output, lineOut := 1, env := s.env.afterDraws (d + 1) } := by
  obtain ⟨hexit, -⟩ := samplePlan_exits s.cfg.holdLock
  have hrelease := (h.absence hj hv).release hexit
  refine hrelease.answer (r := .noResponse) (v := 0)
    (exec_sample_item hrelease.standsAt (samplePlan_after_presenceExit s.cfg.holdLock)) hregs ?dir ?out ?lock
  case dir => simp [List.foldl_append, rstpdEvents, Event.dirOf]
  case out => simp [List.foldl_append, rstpdEvents, Event.outOf]
  case lock => simp [List.foldl_append, Event.lockOf, hlock]

/-- A time-out: `BUS_BUSY` is answered (R172). -/
theorem SampleReaches.busBusy {b c : Nat} {w : Word} {regs : Ctx → Ctx} (h : SampleReaches s n [] 0 x j)
    (hj : (samplePlan s.cfg.holdLock)[j]? = some .acquire) (hbound : s.cfg.acquireBound = some b)
    (hheld : s.lock = .held c) (hc : c ≠ s.cur)
    (hregs : { x with status := .idle, pos := [] } = { regs s.me with status := .idle, req := w, pos := [] }) :
    execTimes .sample (n + 2) s = .next (s.completed w 0x20000000 [.busy s.cur] regs) := by
  obtain ⟨-, hresp⟩ := samplePlan_exits s.cfg.holdLock
  have hlate := h.timeOut hj hbound hheld hc
  exact hlate.answer (r := .busBusy) (v := 0) (exec_sample_item hlate.standsAt hresp) hregs rfl rfl rfl

/-! ## Phases -/

/-- The start and phase 1. -/
theorem sampleReaches_locked (hr : s.AtRest) (hfree : s.lock = .free) :
    SampleReaches s 2 [.acquire s.cur] 0 { s.me with req := 0x0F000000 } 1 := by
  obtain ⟨hacquire, -⟩ := samplePlan_first s.cfg.holdLock
  exact (sampleReaches_start hr (by simp [hfree])).acquire hacquire hfree

/-- Phases 1 to 3. -/
theorem sampleReaches_converting (hr : s.AtRest) (hfree : s.lock = .free) (hv : s.env.level 0 = 0) :
    SampleReaches s 138 (sampleFirstEvents s.cfg s.cur) 1
      { s.me with
        req := 0x0F000000, smp := 0, present := 1
        acc := s.cfg.commands.convertT, idx := 8, bitv := s.cfg.commands.convertT.extractLsb' 7 1 } 4 := by
  obtain ⟨-, hpresence, hskip, hconvert⟩ := samplePlan_first s.cfg.holdLock
  have hskipped := ((sampleReaches_locked hr hfree).presence hpresence hv).command hskip
  exact hskipped.command (c := .convertT) hconvert

/-- Phases 4 and 5. -/
theorem SampleReaches.wait (h : SampleReaches s n es d x 4) :
    SampleReaches s (n + if s.cfg.holdLock then 1 else 3) (es ++ sampleWaitEvents s.cfg s.cur) d x
      (secondReset s.cfg.holdLock) := by
  cases hhold : s.cfg.holdLock with
  | true =>
    have hsleep := h.sleep (by rw [hhold]; rfl)
    simpa [sampleWaitEvents, hhold, secondReset] using hsleep
  | false =>
    have hsleep := (h.release (by rw [hhold]; rfl)).sleep (by rw [hhold]; rfl)
    have hacquire := hsleep.acquire (by rw [hhold]; rfl) (by simp [List.foldl_append, Event.lockOf])
    simpa [sampleWaitEvents, hhold, secondReset] using hacquire

/-- Phases 6 to 9, the scratchpad read. -/
theorem SampleReaches.readout (h : SampleReaches s n es 1 x (secondReset s.cfg.holdLock)) (hv : s.env.level 1 = 0) :
    SampleReaches s (n + 233) (es ++ sampleSecondEvents s.cfg s.cur s.env) 18
      { x with
        bitv := s.cfg.commands.readScratchpad.extractLsb' 7 1, smp := s.env.level 17, present := 1
        acc := s.env.byte 10, idx := 8, lo := s.env.byte 2, hi := s.env.byte 10
        raw := s.env.byte 10 ++ s.env.byte 2 }
      (secondReset s.cfg.holdLock + 6) := by
  obtain ⟨hpresence, hskip, hread, hlow, hhigh, hrelease, -⟩ := samplePlan_second s.cfg.holdLock
  have hsent := ((h.presence hpresence hv).command hskip).command hread
  have hall := ((hsent.readLow hlow).readHigh hhigh).release hrelease
  simp only [List.append_assoc] at hall
  simp only [sampleSecondEvents, List.append_assoc]
  exact hall

theorem wbyteEvents_length (t : Timing) (c : Nat) (b : Byte) : (wbyteEvents t c b).length = 64 := rfl

theorem rbyteEvents_length (t : Timing) (c : Nat) (e : Env) (k : Nat) : (rbyteEvents t c e k).length = 48 := rfl

theorem rstpdEvents_length (t : Timing) (c : Nat) (v : Level) : (rstpdEvents t c v).length = 8 := rfl

/-! ## The rules -/

/-- Settles O34: at an acquisition, from the start at the first, the time-out's step and the answer `BUS_BUSY`. -/
theorem sampleTimesOut : Obligations.SampleTimesOut := by
  refine ⟨fun s c b hr hheld hc hbound => ?start, fun s j c b hat hj hheld hc hbound => ?acquisition⟩
  case start =>
    obtain ⟨hacquire, -⟩ := samplePlan_first s.cfg.holdLock
    exact (sampleReaches_start hr (by simp [hheld, hc])).busBusy hacquire hbound hheld hc rfl
  case acquisition => exact (sampleReaches_at hat).busBusy hj hbound hheld hc rfl

/-- Settles O32: at the first presence check, from the start after phase 1, the failed check's exit. -/
theorem sampleFailsAtTheFirstReset : Obligations.SampleFailsAtTheFirstReset := by
  refine ⟨fun s hat hv => ?check, fun s hr hfree hv => ?start⟩
  case check =>
    obtain ⟨-, hpresence, -⟩ := samplePlan_first s.cfg.holdLock
    exact (sampleReaches_at hat).noResponse hpresence hv rfl rfl
  case start =>
    obtain ⟨-, hpresence, -⟩ := samplePlan_first s.cfg.holdLock
    exact (sampleReaches_locked hr hfree).noResponse hpresence hv rfl hfree

/-- Settles O33: at the second presence check, from the start after phases 1 to 5, the failed check's exit. -/
theorem sampleFailsAtTheSecondReset : Obligations.SampleFailsAtTheSecondReset := by
  refine ⟨fun s hat hv => ?check, fun s hr hfree hfirst hv => ?start⟩
  case check =>
    obtain ⟨hpresence, -⟩ := samplePlan_second s.cfg.holdLock
    exact (sampleReaches_at hat).noResponse hpresence hv rfl rfl
  case start =>
    obtain ⟨hpresence, -⟩ := samplePlan_second s.cfg.holdLock
    have hsteps : 138 + (if s.cfg.holdLock then 1 else 3) + 10 = if s.cfg.holdLock then 149 else 151 := by split <;> rfl
    rw [← hsteps]
    exact (sampleReaches_converting hr hfree hfirst).wait.noResponse hpresence hv rfl hfree

/-- Settles O31: phases 1 to 3, 4 and 5, 6 to 9, and the answer of the raw register; each phase's events are counted. -/
theorem sampleSucceeds : Obligations.SampleSucceeds := by
  refine ⟨fun g c e => ?length, fun s hr hfree hfirst hsecond => ?run⟩
  case length =>
    cases hhold : g.holdLock <;>
      simp [sampleFirstEvents, sampleWaitEvents, sampleSecondEvents, hhold, wbyteEvents_length, rbyteEvents_length,
        rstpdEvents_length]
  case run =>
    intro lo hi
    obtain ⟨-, -, -, -, -, -, hanswer⟩ := samplePlan_second s.cfg.holdLock
    have hall := (sampleReaches_converting hr hfree hfirst).wait.readout hsecond
    have hexec := exec_sample_item hall.standsAt hanswer
    have hsteps : 138 + (if s.cfg.holdLock then 1 else 3) + 233 + 1 = if s.cfg.holdLock then 373 else 375 := by
      split <;> rfl
    have hword : responseWord .ok ((hi ++ lo : BitVec 16).setWidth 17) = (hi ++ lo : BitVec 16).setWidth 32 := by
      rw [responseWord_ok, BitVec.setWidth_setWidth (by omega)]
    rw [← hsteps, ← hword]
    refine hall.answer (hexec.trans ?exec) rfl ?dir ?out ?lock
    case exec => rw [sampleItem, State.atItem, State.afterEvents_me hr.1.2]
    case dir => simp only [sampleSecondEvents, List.foldl_append]; rfl
    case out => simp only [sampleSecondEvents, List.foldl_append]; rfl
    case lock => simp [sampleSecondEvents, List.foldl_append, Event.lockOf, hfree, State.completed]

end Sys2Proof.Machine
end

section
/-! SUPPORT. The lock's discipline in `TRACE` (44_lock.md R190 to R194, R197): what one event, and then a whole trace, says
of who holds the lock. O47. -/

namespace Sys2Proof.Machine

variable {l l' : Lock} {e : Event} {es : List Event} {c d : Nat}

/-! ## One event -/

/-- What an admitted event is to the lock: an Acquire of a free lock, the holder's Release, or an event that leaves the lock,
which is the holder's if it is a line event. -/
theorem lockStep_cases (h : lockStep (some l) e = some l') :
    (e = .acquire e.caller ∧ l = .free ∧ l' = .held e.caller)
      ∨ (e = .release e.caller ∧ l = .held e.caller ∧ l' = .free)
      ∨ ((∀ d, e ≠ .acquire d ∧ e ≠ .release d) ∧ (e.isLine = true → l = .held e.caller) ∧ l' = l) := by
  cases e with
  | acquire c =>
    obtain ⟨hfree, hl⟩ := Option.ite_none_right_eq_some.mp h
    exact .inl ⟨rfl, hfree, (Option.some.inj hl).symm⟩
  | release c =>
    obtain ⟨hheld, hl⟩ := Option.ite_none_right_eq_some.mp h
    exact .inr (.inl ⟨rfl, hheld, (Option.some.inj hl).symm⟩)
  | setOut | writeLvl | setIn | sample =>
    obtain ⟨hheld, hl⟩ := Option.ite_none_right_eq_some.mp h
    exact .inr (.inr ⟨by simp, fun _ => hheld, (Option.some.inj hl).symm⟩)
  | busy =>
    obtain ⟨-, hl⟩ := Option.ite_none_left_eq_some.mp h
    exact .inr (.inr ⟨by simp, by simp [Event.isLine], (Option.some.inj hl).symm⟩)
  | delayUs | sleepMs | respond => exact .inr (.inr ⟨by simp, by simp [Event.isLine], (Option.some.inj h).symm⟩)

/-- An event of another caller neither gives a caller the lock nor takes it away. -/
theorem lockStep_held_iff (h : lockStep (some l) e = some l') (hd : d ≠ e.caller) : l' = .held d ↔ l = .held d := by
  obtain ⟨-, rfl, rfl⟩ | ⟨-, rfl, rfl⟩ | ⟨-, -, rfl⟩ := lockStep_cases h
  · simpa using hd.symm
  · simpa using hd.symm
  · exact Iff.rfl

/-- A line event is the lock holder's. -/
theorem lock_eq_held_of_isLine (h : lockStep (some l) e = some l') (he : e.isLine = true) : l = .held e.caller := by
  obtain ⟨hacquire, -, -⟩ | ⟨hrelease, -, -⟩ | ⟨-, hline, -⟩ := lockStep_cases h
  · rw [hacquire] at he; cases he
  · rw [hrelease] at he; cases he
  · exact hline he

/-- After an event of the lock's holder it holds the lock still, or the event is its Release. -/
theorem lockStep_of_holder (h : lockStep (some l) e = some l') (hl : l = .held e.caller) :
    l' = .held e.caller ∨ l' = .free ∧ e = .release e.caller := by
  obtain ⟨-, -, hheld⟩ | ⟨hrelease, -, hfree⟩ | ⟨-, -, heq⟩ := lockStep_cases h
  · exact .inl hheld
  · exact .inr ⟨hfree, hrelease⟩
  · exact .inl (heq.trans hl)

/-- A caller that holds the lock after an event took it with that event, or held it before, the event being no Acquire and no
Release. -/
theorem lockStep_eq_held (h : lockStep (some l) e = some (.held c)) :
    e = .acquire c ∨ l = .held c ∧ ∀ d, e ≠ .acquire d ∧ e ≠ .release d := by
  obtain ⟨hacquire, -, hheld⟩ | ⟨-, -, hfree⟩ | ⟨hneither, -, heq⟩ := lockStep_cases h
  · exact .inl (Lock.held.inj hheld ▸ hacquire)
  · cases hfree
  · exact .inr ⟨heq.symm, hneither⟩

/-! ## A trace -/

theorem lockAfter_append (es fs : List Event) : lockAfter (es ++ fs) = fs.foldl lockStep (lockAfter es) :=
  List.foldl_append

theorem lockAfter_concat (es : List Event) (e : Event) : lockAfter (es ++ [e]) = lockStep (lockAfter es) e :=
  lockAfter_append es [e]

/-- A broken discipline is not mended. -/
theorem foldl_lockStep_none (es : List Event) : es.foldl lockStep none = none := by
  induction es with
  | nil => rfl
  | cons e es ih => exact ih

/-- A trace that keeps the discipline kept it before each of its events. -/
theorem lockAfter_before {fs : List Event} (h : lockAfter (es ++ e :: fs) = some l) :
    ∃ k k', lockAfter es = some k ∧ lockStep (some k) e = some k' := by
  rw [lockAfter_append, List.foldl_cons] at h
  cases hk : lockAfter es with
  | none => rw [hk, show lockStep none e = none from rfl, foldl_lockStep_none] at h; cases h
  | some k =>
    rw [hk] at h
    cases hk' : lockStep (some k) e with
    | none => rw [hk', foldl_lockStep_none] at h; cases h
    | some k' => exact ⟨k, k', rfl, hk'⟩

/-- A line event stands where its caller holds the lock. -/
theorem lockAfter_before_line {fs : List Event} (h : lockAfter (es ++ e :: fs) = some l) (he : e.isLine = true) :
    lockAfter es = some (.held e.caller) := by
  obtain ⟨k, k', hk, hstep⟩ := lockAfter_before h
  rw [hk, lock_eq_held_of_isLine hstep he]

/-- A caller that holds the lock after a trace took it in that trace, and since then no lock was taken or released. -/
theorem exists_acquire_of_held (h : lockAfter es = some (.held c)) :
    ∃ earlier held, es = earlier ++ .acquire c :: held ∧ ∀ d, Event.acquire d ∉ held ∧ Event.release d ∉ held := by
  induction es using List.reverseRecOn with
  | nil => cases h
  | append_singleton es e ih =>
    rw [lockAfter_concat] at h
    cases hl : lockAfter es with
    | none => rw [hl] at h; cases h
    | some l =>
      rw [hl] at h
      obtain rfl | ⟨rfl, hne⟩ := lockStep_eq_held h
      · exact ⟨es, [], rfl, by simp⟩
      · obtain ⟨earlier, held, rfl, hheld⟩ := ih hl
        refine ⟨earlier, held ++ [e], by simp, fun d => ?_⟩
        simp [hheld d, (hne d).1.symm, (hne d).2.symm]

/-- Settles O47: at a line event the trace before it leaves the lock with the event's caller, who therefore took it there. -/
theorem lineEventsAreTheHolders : Obligations.LineEventsAreTheHolders := by
  intro before after e l h he
  have hheld := lockAfter_before_line h he
  exact ⟨hheld, exists_acquire_of_held hheld⟩

end Sys2Proof.Machine
end

section
/-! SUPPORT. THE INVARIANT, kept by every step (O45): what a context must be (`ctxWell_iff`), which changes of the state keep it
(of one context, of `FAULT`, and the step of a running request), and then one lemma for each move of the machine. What it says
of the lock: O48 and O58. -/

namespace Sys2Proof.Machine

variable {s t : State} {c : Nat} {x : Ctx}

/-! ## A consistent context -/

theorem ctxWell_iff : ctxWell s c x = true ↔ x.idx ≤ 8 ∧ (x.status = .idle → x.pos = []) ∧
    (x.status = .busy → x.pos ≠ [] ∧ x.port = none ∧ (s.faulted = false → standsWell s.cfg s.lock c x = true)) := by
  unfold ctxWell
  cases hx : x.status <;> cases hf : s.faulted <;> simp [and_assoc]

theorem standsWell_of_need {g : Config} {l : Lock} {i : Instr} {need : LockNeed} (hi : decodeRequest x.req = .ok i)
    (hneed : positionNeed g i x.pos = some need) (hmet : needMet need l c = true) : standsWell g l c x = true := by
  simp only [standsWell, hi, hneed, hmet]

/-- What a position asks of the lock is that its caller holds it, or that it does not. -/
theorem needMet_congr {l l' : Lock} (h : l' = .held c ↔ l = .held c) (n : LockNeed) : needMet n l' c = needMet n l c := by
  cases n <;> simp [needMet, h]

theorem standsWell_congr {g : Config} {l l' : Lock} (h : l' = .held c ↔ l = .held c) (x : Ctx) :
    standsWell g l' c x = standsWell g l c x := by
  simp only [standsWell, needMet_congr h]

/-- A context stays consistent while its caller holds the lock just as before, and once the engine has halted. -/
theorem ctxWell_of_ctxWell (h : ctxWell s c x = true) (hcfg : t.cfg = s.cfg)
    (hlock : t.faulted = false → s.faulted = false ∧ (t.lock = .held c ↔ s.lock = .held c)) : ctxWell t c x = true := by
  obtain ⟨hidx, hidle, hbusy⟩ := ctxWell_iff.mp h
  refine ctxWell_iff.mpr ⟨hidx, hidle, fun hb => ?_⟩
  obtain ⟨hpos, hport, hwell⟩ := hbusy hb
  refine ⟨hpos, hport, fun hf => ?_⟩
  obtain ⟨hfs, hheld⟩ := hlock hf
  rw [hcfg, standsWell_congr hheld]
  exact hwell hfs

/-! ## Changes that keep the invariant -/

theorem State.Inv.ctxWell (h : s.Inv) (hx : s.ctx[c]? = some x) : Machine.ctxWell s c x = true :=
  have ⟨_, _, _, hctx⟩ := h
  hctx c x hx

/-- A change of one context that keeps it consistent. -/
theorem State.Inv.mapCtx (h : s.Inv) (c : Nat) {f : Ctx → Ctx}
    (hf : ∀ x, s.ctx[c]? = some x → Machine.ctxWell s c x = true → Machine.ctxWell s c (f x) = true) :
    (s.mapCtx c f).Inv := by
  obtain ⟨hlen, hheld, htrace, hctx⟩ := h
  refine ⟨by simpa using hlen, by simpa using hheld, htrace, fun d y hy => ?_⟩
  rw [State.mapCtx_ctx, List.getElem?_modify] at hy
  obtain ⟨x, hx, rfl⟩ := Option.map_eq_some_iff.mp hy
  split
  next hd => subst hd; exact hf x hx (hctx _ _ hx)
  next => exact hctx d x hx

/-- Recording a fault halts the engine, so no caller need stand well. -/
theorem State.Inv.raise (h : s.Inv) {cause : FaultCause} (hc : cause ≠ .none) (w : Word) : (s.raise cause w).Inv := by
  obtain ⟨hlen, hheld, htrace, hctx⟩ := h
  exact ⟨hlen, hheld, htrace, fun c x hx => ctxWell_of_ctxWell (hctx c x hx) rfl (by simp [State.faulted, hc])⟩

theorem resetWith_inv (cfg : Config) (env : Env) : (State.resetWith cfg env).Inv := by
  refine ⟨by simp [State.resetWith], by simp [State.resetWith], rfl, fun c x hx => ?_⟩
  obtain ⟨-, rfl⟩ := List.mem_replicate.mp (List.mem_of_getElem? hx)
  rfl

/-! ## The start step -/

/-- What the start step of a word must find: a cause that halts the engine, or that the word is a request whose first position
asks of the lock what it is. -/
def StartsWell (s : State) (w : Word) (p : Proc) : Option FaultCause → Prop
  | some cause => cause ≠ .none
  | none => ∃ i need, decodeRequest w = .ok i ∧ positionNeed s.cfg i [⟨p, 0⟩] = some need
      ∧ needMet need s.lock s.cur = true

theorem mustNotHold_of_held (h : s.lock = .held s.cur) : mustNotHold s = some .recursiveAcquire := by
  simp [mustNotHold, State.holds, h]

theorem mustNotHold_of_not_held (h : s.lock ≠ .held s.cur) : mustNotHold s = none := by
  simp [mustNotHold, State.holds, h]

theorem startsWell_mustHold {w : Word} {i : Instr} {p : Proc} {cause : FaultCause} (hw : decodeRequest w = .ok i)
    (hneed : positionNeed s.cfg i [⟨p, 0⟩] = some .hold) (hc : cause ≠ .none) :
    StartsWell s w p (mustHold cause s) := by
  by_cases hl : s.lock = .held s.cur
  · rw [mustHold_of_held hl]
    exact ⟨i, .hold, hw, hneed, by simp [needMet, hl]⟩
  · rw [mustHold_of_not_held hl]
    exact hc

theorem startsWell_mustNotHold {w : Word} {i : Instr} {p : Proc} (hw : decodeRequest w = .ok i)
    (hneed : positionNeed s.cfg i [⟨p, 0⟩] = some .notHold) : StartsWell s w p (mustNotHold s) := by
  by_cases hl : s.lock = .held s.cur
  · rw [mustNotHold_of_held hl]
    simp [StartsWell]
  · rw [mustNotHold_of_not_held hl]
    exact ⟨i, .notHold, hw, hneed, by simp [needMet, hl]⟩

theorem sampleNeed_start (hold : Bool) : sampleNeed hold [⟨.sample, 0⟩] = some .notHold := by
  cases hold <;> rfl

/-- The lock check of every request is the one its first position needs. -/
theorem exec_start (hr : s.AtRest) {i : Instr} (hi : i.isRequest = true) :
    ∃ p cause, exec i s = .next (s.start (requestWord i) p cause) ∧ StartsWell s (requestWord i) p cause := by
  have hw : decodeRequest (requestWord i) = .ok i := decodeRequest_eq_ok_iff.mpr ⟨rfl, hi⟩
  cases i with
  | lsetout | lwrite | lsetin | lread | rstpd | wbit | rbit | wbyte | rbyte | rel =>
    exact ⟨_, _, request_idle hr .., startsWell_mustHold hw rfl (by simp)⟩
  | acq | tryacq => exact ⟨_, _, request_idle hr .., startsWell_mustNotHold hw rfl⟩
  | sample => exact ⟨_, _, request_idle hr .., startsWell_mustNotHold hw (sampleNeed_start s.cfg.holdLock)⟩
  | delayus | sleepms | decode => exact ⟨_, _, request_idle hr .., _, .any, hw, rfl, rfl⟩
  | cmdSkipRom | cmdConvertT | cmdReadScratchpad => cases hi

theorem State.Inv.begun {w : Word} {p : Proc} (h : s.Inv) (hs : s.cur < s.ctx.length) (hport : s.me.port = none)
    (hwell : ∀ x : Ctx, x.req = w → x.pos = [⟨p, 0⟩] → s.faulted = false →
      Machine.standsWell s.cfg s.lock s.cur x = true) : (s.begun w p).Inv := by
  refine h.mapCtx s.cur (f := fun x => { x with status := .busy, req := w, pos := [⟨p, 0⟩] }) fun x hx hxwell => ?_
  obtain rfl := Option.some.inj ((s.getElem?_me hs).symm.trans hx)
  obtain ⟨hidx, -, -⟩ := ctxWell_iff.mp hxwell
  exact ctxWell_iff.mpr ⟨hidx, by simp, fun _ => ⟨by simp, hport, hwell _ rfl rfl⟩⟩

theorem State.Inv.start {w : Word} {p : Proc} {cause : Option FaultCause} (h : s.Inv) (hs : s.cur < s.ctx.length)
    (hport : s.me.port = none) (hwell : StartsWell s w p cause) : (s.start w p cause).Inv := by
  rw [start_eq]
  cases cause with
  | some f =>
    have hf : f ≠ .none := hwell
    exact (h.raise hf w).begun hs hport fun _ _ _ => by simp [State.faulted, hf]
  | none =>
    obtain ⟨i, need, hw, hneed, hmet⟩ := hwell
    refine h.begun hs hport ?_
    rintro x rfl hpos -
    exact standsWell_of_need hw (hpos ▸ hneed) hmet

/-- The start step of a waiting word, which has left the port. -/
theorem startWord_keeps_inv {w : Word} (h : s.Inv) (hr : s.AtRest) (ht : startWord w s = .next t) : t.Inv := by
  obtain ⟨⟨hf, hs⟩, hidle⟩ := hr
  have hlen : s.fetched.cur < s.fetched.ctx.length := by simpa using hs
  have hme : s.fetched.me = { s.me with port := none } := State.fetched_me _ hs
  have hport : s.fetched.me.port = none := by rw [hme]
  have hfetched : s.fetched.Inv := h.mapCtx s.cur fun x _ hx => by
    obtain ⟨hidx, hpos, hbusy⟩ := ctxWell_iff.mp hx
    exact ctxWell_iff.mpr ⟨hidx, hpos, fun hb => have ⟨hne, _, hwell⟩ := hbusy hb; ⟨hne, rfl, hwell⟩⟩
  unfold startWord at ht
  split at ht
  next i hi =>
    obtain ⟨hw, hreq⟩ := decodeRequest_eq_ok_iff.mp hi
    obtain ⟨p, cause, hexec, hwell⟩ := exec_start (s := s.fetched) ⟨⟨hf, hlen⟩, by rwa [hme]⟩ hreq
    cases hexec.symm.trans ht
    exact hfetched.start hlen hport hwell
  next =>
    cases ht
    exact hfetched.start hlen hport (by simp [StartsWell])

/-! ## A running request -/

theorem positionNeed_nil (g : Config) (i : Instr) : positionNeed g i [] = none := by
  cases i <;> rfl

/-- The step of a running caller that stands well is a step of its request, whatever name it runs under (log 15). -/
theorem running_proceeds (hl : s.Live) (hb : s.me.status = .busy)
    (hwell : standsWell s.cfg s.lock s.cur s.me = true) :
    ∃ i k, decodeRequest s.me.req = .ok i ∧ s.running = some k ∧ Proceeds (positionNeed s.cfg i) s (exec k s) := by
  obtain ⟨i, need, hi, hneed, hmet⟩ := standsWell_cases hwell
  have hproceeds := exec_proceeds hl hb i hneed hmet
  cases hc : commandAt s.cfg s.me.pos with
  | none => exact ⟨i, i, hi, running_of_commandAt_none hc hi, hproceeds⟩
  | some w =>
    obtain ⟨f, inner, hpos, hf, -⟩ := commandAt_eq_some hc
    obtain rfl := eq_sample_of_positionNeed (hpos ▸ hneed) hf
    exact ⟨.sample, w.instr, hi, running_of_commandAt_some hc, exec_command_eq_sample hb hc ▸ hproceeds⟩

/-- The caller that advances is answered, or stands at a position of its request. -/
theorem Advances.ctxWell_me {i : Instr} (hadv : Advances (positionNeed s.cfg i) s t)
    (hi : decodeRequest s.me.req = .ok i) (hidx : s.me.idx ≤ 8) (hport : s.me.port = none) :
    ctxWell t s.cur t.me = true := by
  obtain ⟨e, hact, -, hstands⟩ := hadv
  refine ctxWell_iff.mpr ⟨hact.own.idx hidx, ?_⟩
  obtain ⟨hidle, hpos⟩ | ⟨hbusy, hreq, -, n, hneed, hmet⟩ := hstands
  · exact ⟨fun _ => hpos, by simp [hidle]⟩
  · refine ⟨by simp [hbusy], fun _ => ⟨fun hnil => ?_, hact.own.port.trans hport, fun _ => ?_⟩⟩
    · rw [hnil, positionNeed_nil] at hneed
      cases hneed
    · exact standsWell_of_need (hreq ▸ hi) (hact.own.cfg ▸ hneed) hmet

/-- A step that advances keeps the invariant: its event is admitted, so every other caller holds the lock just as before. -/
theorem State.Inv.advances {i : Instr} (h : s.Inv) (hl : s.Live) (hb : s.me.status = .busy)
    (hi : decodeRequest s.me.req = .ok i) (hadv : Advances (positionNeed s.cfg i) s t) : t.Inv := by
  obtain ⟨hidx, -, hbusy⟩ := ctxWell_iff.mp (h.ctxWell (s.getElem?_me hl.2))
  obtain ⟨-, hport, -⟩ := hbusy hb
  have hself := hadv.ctxWell_me hi hidx hport
  obtain ⟨e, hact, hstep, -⟩ := hadv
  obtain ⟨hlen, hheld, htrace, hctx⟩ := h
  have hother : ∀ d, d ≠ s.cur → (t.lock = .held d ↔ s.lock = .held d) := fun d hd =>
    lockStep_held_iff hstep (hact.caller ▸ hd)
  refine ⟨?len, fun d hd => ?held, ?trace, fun d x hx => ?ctx⟩
  case len => rw [hact.own.len, hact.own.cfg, hlen]
  case held =>
    rw [hact.own.len]
    by_cases hc : d = s.cur
    · exact hc ▸ hl.2
    · exact hheld d ((hother d hc).mp hd)
  case trace => rw [hact.trace, lockAfter_concat, htrace, hstep]
  case ctx =>
    by_cases hc : d = s.cur
    · have hme := t.getElem?_me (hact.own.bound hl.2)
      rw [hact.own.cur, ← hc, hx] at hme
      rw [Option.some.inj hme, hc]
      exact hself
    · rw [hact.own.others d hc] at hx
      refine ctxWell_of_ctxWell (hctx d x hx) hact.own.cfg fun hf => ⟨?_, hother d hc⟩
      rw [← hf, State.faulted, State.faulted, hact.fault]

/-! ## The moves -/

theorem runTurn_keeps_inv (h : s.Inv) (ht : runTurn c s = .next t) : t.Inv := by
  have has : (s.as c).Inv := h
  by_cases hf : s.fault.cause = .none
  · cases hx : s.ctx[c]? with
    | none =>
      have hf' : (s.as c).faulted = false := by simp [State.faulted, hf]
      simp only [runTurn, hf', State.as_ctx, List.getElem?_eq_none_iff.mp hx, if_true, Bool.false_eq_true, if_false] at ht
      cases ht
      exact has
    | some x =>
      obtain ⟨hl, -⟩ := as_live hf hx
      cases hst : (s.as c).me.status with
      | idle =>
        cases hp : (s.as c).me.port with
        | none =>
          cases (runTurn_pass ⟨hl, hst⟩ hp).symm.trans ht
          exact has
        | some w => exact startWord_keeps_inv has ⟨hl, hst⟩ ((runTurn_waiting ⟨hl, hst⟩ hp).symm.trans ht)
      | busy =>
        obtain ⟨i, k, hi, hk, u, hexec, hadv⟩ := running_proceeds hl hst (has.standsWell hl hst)
        cases (hexec.symm.trans (runTurn_running hl hst hk).symm).trans ht
        obtain rfl | hadv := hadv
        · exact has
        · exact has.advances hl hst hi hadv
  · have hf' : (s.as c).faulted = true := by simp [State.faulted, hf]
    simp [runTurn, hf'] at ht

/-- The host places a word only on the port of an IDLE caller. -/
theorem hostPlace_keeps_inv {w : Word} (h : s.Inv) (ht : s.hostPlace c w = .next t) : t.Inv := by
  unfold State.hostPlace at ht
  split at ht
  · cases ht
  split at ht
  · cases ht
  next x hx =>
    split at ht <;> cases ht
    next hidle =>
      refine h.mapCtx c fun y hy hwell => ?_
      obtain rfl := Option.some.inj (hx.symm.trans hy)
      obtain ⟨hidx, hpos, -⟩ := ctxWell_iff.mp hwell
      exact ctxWell_iff.mpr ⟨hidx, hpos, fun hb => by simp [hidle.1] at hb⟩

/-- Settles O45: each move keeps the invariant. -/
theorem stepKeepsTheInvariant : Obligations.StepKeepsTheInvariant := by
  intro s t h ht
  have hmove : s.afterMove.Inv := h
  unfold step runMove at ht
  split at ht
  · exact runTurn_keeps_inv hmove ht
  · exact hostPlace_keeps_inv hmove ht
  · rw [hostTake_next ht]
    exact hmove.mapCtx _ fun _ _ hwell => hwell
  · rw [hostReset_next ht]
    exact resetWith_inv _ _

/-! ## The holder and the line -/

/-- An event that is no line event leaves the line and the draws. -/
theorem Event.line_of_not_isLine {e : Event} (h : e.isLine = false) (dir : LineDir) (out : Level) (env : Env) :
    e.dirOf dir = dir ∧ e.outOf out = out ∧ e.envOf env = env := by
  cases e with
  | setOut | writeLvl | setIn | sample => cases h
  | delayUs | sleepMs | acquire | release | busy | respond => exact ⟨rfl, rfl, rfl⟩

/-- Settles O48: of the moves only a step of a running request touches the line, by a line event, which the invariant after the
step admits only of the holder. -/
theorem onlyTheHolderTouchesTheLine : Obligations.OnlyTheHolderTouchesTheLine := by
  intro s t h ht hne hline
  obtain ⟨-, -, hafter, -⟩ := stepKeepsTheInvariant s t h ht
  obtain ⟨-, -, hbefore, -⟩ := h
  cases step_moves ht with
  | reset hr => exact absurd hr hne
  | host | pass => simp at hline
  | start c w p cause => cases cause <;> simp [State.start] at hline
  | run c a t hc hr =>
    cases hr with
    | wait | answer => simp at hline
    | @micro u e hm pos =>
      have hcaller : e.caller = c := hm.act.caller
      cases he : e.isLine with
      | true =>
        rw [State.setPos_trace, hm.act.trace] at hafter
        have hheld : some s.lock = some (.held e.caller) := hbefore.symm.trans (lockAfter_before_line hafter he)
        rw [Option.some.inj hheld, State.setPos_cur, hm.act.own.cur, hcaller]
        rfl
      | false =>
        obtain ⟨hdir, hout, henv⟩ := Event.line_of_not_isLine he s.lineDir s.lineOut s.afterMove.env
        obtain hline | hline | hline := hline
        · exact absurd (hm.act.dir.trans hdir) hline
        · exact absurd (hm.act.out.trans hout) hline
        · exact absurd (congrArg Env.drawn (hm.act.env.trans henv)) hline

/-! ## The lock through the conversion -/

/-- Items 1 to 10 of the plan with the lock held during the conversion are phases 2 to 9 (log 13): each asks for the lock. -/
theorem itemNeed_phases_2_to_9 {j : Nat} (h1 : 1 ≤ j) (h10 : j ≤ 10) {inner : List Frame} {need : LockNeed}
    (h : sampleNeed true (⟨.sample, j⟩ :: inner) = some need) : need = .hold := by
  interval_cases j <;> simp [sampleNeed, samplePlan, samplePhases, itemNeed] at h <;> exact h.2.symm

/-- Settles O58: under the invariant the caller stands at a position of SAMPLE, and those of phases 2 to 9 ask for the lock. -/
theorem holdKeepsTheLockThroughTheConversion : Obligations.HoldKeepsTheLockThroughTheConversion := by
  intro s c j x inner h hf hhold hx hbusy _ hpos h1 h10
  obtain ⟨hl, rfl⟩ := as_live hf hx
  have has : (s.as c).Inv := h
  obtain ⟨i, need, hi, hneed, hmet⟩ := standsWell_cases (has.standsWell hl hbusy)
  obtain rfl := eq_sample_of_positionNeed (hpos ▸ hneed) rfl
  rw [positionNeed, hpos, State.as_cfg, hhold] at hneed
  obtain rfl := itemNeed_phases_2_to_9 h1 h10 hneed
  exact of_decide_eq_true hmet

end Sys2Proof.Machine
end

section
/-! SUPPORT. The Bus Lock's requests (44_lock.md R190, R192 to R194): the start of an acquisition, its one micro-step by what
the lock is, and its run to the answer. O28, O29 and O30. -/

namespace Sys2Proof.Machine

variable {s u : State}

/-! ## The start of an acquisition -/

theorem request_recursive (hr : s.AtRest) (h : s.lock = .held s.cur) (w : Word) (p : Proc)
    (body : Nat → List Frame → State → Out) :
    request w p mustNotHold body s = .next (s.begunFault w p .recursiveAcquire) := by
  rw [request_idle hr, mustNotHold_of_held h, start_eq]

theorem request_acquisition (hr : s.AtRest) (h : s.lock ≠ .held s.cur) (w : Word) (p : Proc)
    (body : Nat → List Frame → State → Out) : request w p mustNotHold body s = .next (s.begun w p) := by
  rw [request_idle hr, mustNotHold_of_not_held h, start_eq]

/-! ## The micro-step of an acquisition, and the answers -/

theorem State.grab_of_held_unbounded {c : Nat} (h : s.lock = .held c) : s.grab false = .wait := by
  simp [State.grab, h]

theorem State.grab_of_own (h : s.lock = .held s.cur) (bounded : Bool) : s.grab bounded = .wait := by
  simp [State.grab, h]

/-- What a caller at an index of an acquisition does. -/
theorem request_acquireBody {p : Proc} {k : Nat} (hat : s.At [⟨p, k⟩]) (w : Word) (chk : State → Option FaultCause)
    (bounded : Bool) : request w p chk (acquireBody p bounded) s = acquireBody p bounded k [] s := by
  obtain ⟨hl, hbusy, hpos⟩ := hat
  exact request_running hl hbusy hpos rfl ..

theorem acquireBody_free (h : s.lock = .free) (p : Proc) (bounded : Bool) :
    acquireBody p bounded 0 [] s = .next (s.acquire.setPos [⟨p, 1⟩]) := by
  simp only [acquireBody, State.grab_of_free h]

theorem acquireBody_late {c : Nat} (h : s.lock = .held c) (hc : c ≠ s.cur) (p : Proc) :
    acquireBody p true 0 [] s = .next (s.timeOut.setPos [⟨p, 2⟩]) := by
  simp only [acquireBody, State.grab_of_held_by_other h hc]

theorem acquireBody_wait {bounded : Bool} (h : s.grab bounded = .wait) (p : Proc) :
    acquireBody p bounded 0 [] s = .next s := by
  simp only [acquireBody, h]

/-- An acquisition from its start to its answer: its micro-step has the event `e` and leaves the caller at index `k`, where it
answers `r`. -/
theorem execTimes_acquisition {i : Instr} {w : Word} {p : Proc} {bounded : Bool} {k : Nat} {e : Event} {r : ResultCode}
    (hexec : ∀ v, exec i v = request w p mustNotHold (acquireBody p bounded) v) (hr : s.AtRest)
    (hlock : s.lock ≠ .held s.cur)
    (hmicro : acquireBody p bounded 0 [] (s.begun w p) = .next (u.setPos [⟨p, k⟩]))
    (hact : Act (s.begun w p) u e) (hme : u.me = (s.begun w p).me)
    (hanswer : ∀ v : State, acquireBody p bounded k [] v = .next (v.respond r 0)) :
    execTimes i 3 s = .next { s.completed w (responseWord r 0) [e] id with
      lineDir := e.dirOf s.lineDir, lineOut := e.outOf s.lineOut, lock := e.lockOf s.lock, env := e.envOf s.env } := by
  have hat := State.begun_at hr.1 w p
  have hacts := (hact.setPos hat.1.2 [⟨p, k⟩]).acts
  have hme' : (u.setPos [⟨p, k⟩]).me = { s.me with status := .busy, req := w, pos := [⟨p, k⟩] } := by
    rw [State.setPos_me _ _ (hact.own.bound hat.1.2), hme, State.begun_me hr.1.2]
  have hat' : (u.setPos [⟨p, k⟩]).At [⟨p, k⟩] := by
    rw [State.At, hme']
    exact ⟨hacts.live hat.1, rfl, rfl⟩
  refine execTimes_completed (n := 1) (regs := id) hr.1.2 ?start (execTimes_one ?micro) ?answer hacts hme'
  case start => rw [hexec, request_acquisition hr hlock]
  case micro => rw [hexec, request_acquireBody hat, hmicro]
  case answer => rw [hexec, request_acquireBody hat', hanswer]

/-- An acquisition of a free lock. -/
theorem execTimes_acquisition_free {i : Instr} {w : Word} {p : Proc} {bounded : Bool}
    (hexec : ∀ v, exec i v = request w p mustNotHold (acquireBody p bounded) v) (hr : s.AtRest) (h : s.lock = .free) :
    execTimes i 3 s = .next { s.completed w 0 [.acquire s.cur] id with lock := .held s.cur } :=
  execTimes_acquisition (r := .ok) hexec hr (by simp [h]) (acquireBody_free (s := s.begun w p) h p bounded)
    (State.acquire_act _) rfl fun _ => rfl

/-- A bounded acquisition of a lock another caller holds. -/
theorem execTimes_acquisition_late {i : Instr} {w : Word} {p : Proc} {c : Nat}
    (hexec : ∀ v, exec i v = request w p mustNotHold (acquireBody p true) v) (hr : s.AtRest) (h : s.lock = .held c)
    (hc : c ≠ s.cur) : execTimes i 3 s = .next (s.completed w 0x20000000 [.busy s.cur] id) :=
  execTimes_acquisition (r := .busBusy) hexec hr (by simp [h, hc]) (acquireBody_late (s := s.begun w p) h hc p)
    (State.timeOut_act _) rfl fun _ => rfl

/-! ## The rules -/

/-- Settles O28: the word, the start by the lock check, and the micro-step by what the lock is: it takes a free one, and waits
for one that is held. -/
theorem acqRule : Obligations.AcqRule := by
  refine ⟨decodeRequest_eq_ok_iff.mpr ⟨rfl, rfl⟩, fun w hop himm => isIllegal_of_operand hop (by decide) himm,
    fun s hr => ⟨fun hown => ?fault, fun hother => ?start, fun hfree => ?run⟩,
    fun s hat => ⟨fun hfree => ?take, fun d t hheld hd ht => ?blocked⟩⟩
  case fault => exact request_recursive hr hown ..
  case start => exact request_acquisition hr hother ..
  case run => exact execTimes_acquisition_free (fun _ => rfl) hr hfree
  case take => exact (request_acquireBody hat ..).trans (acquireBody_free hfree ..)
  case blocked =>
    have hwait : exec .acq s = .next s :=
      (request_acquireBody hat ..).trans (acquireBody_wait (State.grab_of_held_unbounded hheld) _)
    cases hwait.symm.trans ht
    rfl

/-- Settles O29: the words by their high bits, the start by the lock check, and the micro-step by what the lock is: Acquire,
TimeOut, or a wait for the caller's own lock. -/
theorem tryacqRule : Obligations.TryacqRule := by
  refine ⟨fun w hw => ?decode,
    fun b s hr => ⟨fun hown => ?fault, fun hfree => ?run, fun d hheld hd => ?late⟩,
    fun b s hat => ⟨fun hfree => ?take, fun d hheld hd => ?timeOut, fun t hown ht => ?wait⟩⟩
  case decode =>
    exact decodeRequest_of_high_eq (f := .tryacq) rfl (by omega) (fun _ => rfl) (fun _ => rfl)
      (fun b => (BitVec.setWidth_eq b).symm) hw
  case fault => exact request_recursive hr hown ..
  case run => exact execTimes_acquisition_free (fun _ => rfl) hr hfree
  case late => exact execTimes_acquisition_late (fun _ => rfl) hr hheld hd
  case take => exact (request_acquireBody hat ..).trans (acquireBody_free hfree ..)
  case timeOut => exact (request_acquireBody hat ..).trans (acquireBody_late hheld hd _)
  case wait =>
    have hwait : exec (.tryacq b) s = .next s :=
      (request_acquireBody hat ..).trans (acquireBody_wait (State.grab_of_own hown _) _)
    cases hwait.symm.trans ht
    rfl

/-- Settles O30: the word, the fault by the lock check, and the run as a request of the micro-step `Release`. -/
theorem relRule : Obligations.RelRule := by
  refine ⟨decodeRequest_eq_ok_iff.mpr ⟨rfl, rfl⟩, fun w hop himm => isIllegal_of_operand hop (by decide) himm,
    fun s hr => ⟨fun hother => ?fault, fun hheld => ?run⟩, fun s hat => ?micro⟩
  case fault => exact request_not_held hr hother ..
  case run =>
    exact execTimes_one_micro (micro := fun _ t => t.release) (data := fun _ => 0) (regs := id) (fun _ => rfl) hr
      (mustHold_of_held hheld _) (State.release_act _) (State.begun_me hr.1.2 ..)
  case micro => exact request_sequence_next hat Nat.zero_lt_one ..

end Sys2Proof.Machine
end

section
/-! SUPPORT. A SAMPLE that holds the lock comes nearer to its Release with each of its steps (44_lock.md R200): the steps of the
items until the next Release, less those done of the item it stands at (`stepsLeft`). O57. -/

namespace Sys2Proof.Machine

variable {s t : State} {hold : Bool} {j : Nat} {item : SampleItem} {inner fs : List Frame}

/-! ## Micro-steps done -/

/-- The micro-steps done of a called procedure, by the frames inside its caller's. -/
def microsDone : List Frame → Nat
  | [] => 0
  | f :: _ => f.index

/-- The micro-steps done of a called byte procedure whose bits have `n` micro-steps each. -/
def bitsDone (n : Nat) : List Frame → Nat
  | [] => 0
  | f :: inner => n * f.index + microsDone inner

/-- The micro-steps of an item of SAMPLE. -/
def SampleItem.steps : SampleItem → Nat
  | .presence => 8
  | .command _ => 64
  | .readLow | .readHigh => 48
  | .acquire | .release | .sleep | .respondRaw | .respondNoResponse | .respondBusBusy => 1

/-- The micro-steps done of an item. -/
def SampleItem.done : SampleItem → List Frame → Nat
  | .presence, inner => microsDone inner
  | .command _, inner => bitsDone 8 inner
  | .readLow, inner | .readHigh, inner => bitsDone 6 inner
  | .acquire, _ | .release, _ | .sleep, _ | .respondRaw, _ | .respondNoResponse, _ | .respondBusBusy, _ => 0

/-- A micro-step of a called procedure of `n` ends it or leaves one more done. -/
theorem callSeqAt_frames {p : Proc} {n k : Nat} {micro : Nat → State → State}
    (h : callSeqAt p n micro k s = some (t, fs)) : (k + 1 = n ∧ fs = []) ∨ (k + 1 < n ∧ fs = [⟨p, k + 1⟩]) := by
  unfold callSeqAt at h
  split at h
  next hk => cases h; exact .inr ⟨hk, rfl⟩
  next =>
    split at h
    next hk => cases h; exact .inl ⟨hk, rfl⟩
    next => cases h

theorem callSeq_frames {p : Proc} {n : Nat} {micro : Nat → State → State}
    (h : callSeq p n micro inner s = some (t, fs)) :
    (microsDone inner + 1 = n ∧ fs = []) ∨ (microsDone inner + 1 < n ∧ fs = [⟨p, microsDone inner + 1⟩]) := by
  unfold callSeq at h
  split at h
  · exact callSeqAt_frames h
  · split at h
    · exact callSeqAt_frames h
    · cases h
  · cases h

/-- A micro-step of bit `i` ends the bit or leaves one more done of it. -/
theorem byteBit_frames {q : Proc} {n i k : Nat} {micro : Nat → Nat → State → State}
    (h : byteBit q n micro i inner s = some (t, k, fs)) :
    i < 8 ∧ ((microsDone inner + 1 = n ∧ k = i + 1 ∧ fs = [])
      ∨ (microsDone inner + 1 < n ∧ k = i ∧ fs = [⟨q, microsDone inner + 1⟩])) := by
  unfold byteBit at h
  split at h
  next hi =>
    refine ⟨hi, ?_⟩
    split at h
    next hc =>
      cases h
      obtain ⟨hn, -⟩ | ⟨-, hfs⟩ := callSeq_frames hc
      · exact .inl ⟨hn, rfl, rfl⟩
      · cases hfs
    next hc =>
      cases h
      obtain ⟨-, hfs⟩ | ⟨hn, hfs⟩ := callSeq_frames hc
      · cases hfs
      · exact .inr ⟨hn, rfl, hfs⟩
    next => cases h
  next => cases h

/-- A micro-step of a called byte procedure ends it or leaves one more done of its `8 * n`. -/
theorem callByteAt_frames {p q : Proc} {n i : Nat} {micro : Nat → Nat → State → State}
    (h : callByteAt p q n micro i inner s = some (t, fs)) :
    n * i + microsDone inner < 8 * n ∧ (fs = [] ∨ bitsDone n fs = n * i + microsDone inner + 1) := by
  unfold callByteAt at h
  split at h
  next u k gs hbit =>
    obtain ⟨hi, hbit⟩ := byteBit_frames hbit
    have hbound : n * (i + 1) ≤ n * 8 := Nat.mul_le_mul_left n hi
    rw [Nat.mul_comm n 8, Nat.mul_succ] at hbound
    obtain ⟨hn, rfl, rfl⟩ | ⟨hn, rfl, rfl⟩ := hbit
    · refine ⟨by omega, ?_⟩
      split at h <;> cases h
      · exact .inl rfl
      · right
        change n * (i + 1) + 0 = _
        rw [Nat.mul_succ]
        omega
    · refine ⟨by omega, ?_⟩
      rw [if_neg (by omega)] at h
      cases h
      exact .inr rfl
  next => cases h

theorem callByte_frames {p q : Proc} {n : Nat} {micro : Nat → Nat → State → State}
    (h : callByte p q n micro inner s = some (t, fs)) :
    bitsDone n inner < 8 * n ∧ (fs = [] ∨ bitsDone n fs = bitsDone n inner + 1) := by
  unfold callByte at h
  split at h
  · exact callByteAt_frames h
  · split at h
    · exact callByteAt_frames h
    · cases h

/-! ## Steps to the Release -/

/-- The steps of the items up to the next Release. -/
def untilRelease : List SampleItem → Nat
  | [] => 0
  | item :: items => if item = .release then 1 else item.steps + untilRelease items

/-- The steps a SAMPLE at index `j` has to its next Release, with the frames inside. -/
def stepsLeft (hold : Bool) (j : Nat) (inner : List Frame) : Nat :=
  untilRelease ((samplePlan hold).drop j) - match (samplePlan hold)[j]? with
    | some item => item.done inner
    | none => 0

theorem SampleItem.steps_pos (item : SampleItem) : 0 < item.steps := by
  cases item <;> simp [SampleItem.steps]

theorem drop_of_getElem? {α : Type} {l : List α} {x : α} (h : l[j]? = some x) : l.drop j = x :: l.drop (j + 1) := by
  obtain ⟨hj, rfl⟩ := List.getElem?_eq_some_iff.mp h
  exact List.drop_eq_getElem_cons hj

theorem untilRelease_pos (h : (samplePlan hold)[j]? = some item) : 0 < untilRelease ((samplePlan hold).drop j) := by
  have hsteps := item.steps_pos
  rw [drop_of_getElem? h, untilRelease]
  split <;> omega

theorem stepsLeft_of_item (h : (samplePlan hold)[j]? = some item) (hne : item ≠ .release) (inner : List Frame) :
    stepsLeft hold j inner = item.steps + untilRelease ((samplePlan hold).drop (j + 1)) - item.done inner := by
  rw [stepsLeft, h, drop_of_getElem? h, untilRelease, if_neg hne]

theorem stepsLeft_release (h : (samplePlan hold)[j]? = some .release) : stepsLeft hold j inner = 1 := by
  rw [stepsLeft, h, drop_of_getElem? h]
  rfl

/-- From the first item that asks for the lock on, the next Release is at most 370 steps away: phases 2 to 9 with the lock held
during the conversion. -/
theorem stepsLeft_le (h : (samplePlan hold)[j]? ≠ some .acquire) (inner : List Frame) :
    stepsLeft hold j inner ≤ 370 := by
  have hplan : ∀ hold, ∀ j < 17, (samplePlan hold)[j]? ≠ some .acquire →
      untilRelease ((samplePlan hold).drop j) ≤ 370 := by decide
  refine (Nat.sub_le ..).trans ?_
  by_cases hj : j < 17
  · exact hplan hold j hj h
  · have hlen : (samplePlan hold).length ≤ 17 := by cases hold <;> decide
    rw [List.drop_of_length_le (by omega)]
    decide

/-- The end of an item is nearer. -/
theorem stepsLeft_next (h : (samplePlan hold)[j]? = some item) (hne : item ≠ .release)
    (hd : item.done inner < item.steps) : stepsLeft hold (j + 1) [] < stepsLeft hold j inner := by
  rw [stepsLeft_of_item h hne]
  have hle : stepsLeft hold (j + 1) [] ≤ untilRelease ((samplePlan hold).drop (j + 1)) := Nat.sub_le ..
  omega

/-- One micro-step of an item is nearer. -/
theorem stepsLeft_inside (h : (samplePlan hold)[j]? = some item) (hne : item ≠ .release)
    (hd : item.done inner < item.steps) (hfs : item.done fs = item.done inner + 1) :
    stepsLeft hold j fs < stepsLeft hold j inner := by
  rw [stepsLeft_of_item h hne, stepsLeft_of_item h hne]
  omega

/-- The exit of a failed presence check is nearer: the Release stands there. -/
theorem stepsLeft_exit (h : (samplePlan hold)[j]? = some .presence)
    (hd : SampleItem.presence.done inner < SampleItem.presence.steps) :
    stepsLeft hold (presenceExit hold) [] < stepsLeft hold j inner := by
  obtain ⟨next, hnext, -⟩ := samplePlan_next hold j _ h (by simp)
  have hnext_pos := untilRelease_pos hnext
  rw [stepsLeft_release (samplePlan_exits hold).1, stepsLeft_of_item h (by simp)]
  omega

/-! ## One step -/

/-- A step leaves SAMPLE where its Release is less than `n` steps away. -/
def Nears (hold : Bool) (n : Nat) (t : State) : Prop :=
  ∃ (u : State) (j : Nat) (fs : List Frame), t = u.setPos (⟨.sample, j⟩ :: fs) ∧ stepsLeft hold j fs < n

/-- A micro-step of a call. -/
theorem nears_of_sampleCall (hj : (samplePlan hold)[j]? = some item) (hne : item ≠ .release)
    {call : Option (State × List Frame)} {store : State → State}
    (hcall : ∀ u fs, call = some (u, fs) → item.done inner < item.steps ∧ (fs = [] ∨ item.done fs = item.done inner + 1))
    (h : sampleCall call store j = .next t) : Nears hold (stepsLeft hold j inner) t := by
  match call with
  | none => cases h
  | some (u, []) =>
    obtain ⟨hd, -⟩ := hcall u [] rfl
    cases h
    exact ⟨_, _, _, rfl, stepsLeft_next hj hne hd⟩
  | some (u, f :: fs) =>
    obtain ⟨hd, hfs⟩ := hcall u (f :: fs) rfl
    cases h
    exact ⟨_, _, _, rfl, stepsLeft_inside hj hne hd (hfs.resolve_left (by simp))⟩

theorem nears_of_samplePresence (hj : (samplePlan s.cfg.holdLock)[j]? = some .presence)
    (h : samplePresence j inner s = .next t) : Nears s.cfg.holdLock (stepsLeft s.cfg.holdLock j inner) t := by
  have hcount : ∀ u fs, callSeq .rstpd 8 rstpdMicro inner s = some (u, fs) →
      SampleItem.presence.done inner < SampleItem.presence.steps ∧
        (fs = [] ∨ SampleItem.presence.done fs = SampleItem.presence.done inner + 1) := by
    intro u fs hc
    obtain ⟨hd, hfs⟩ | ⟨hd, rfl⟩ := callSeq_frames hc
    · exact ⟨hd.le, .inl hfs⟩
    · exact ⟨Nat.lt_of_succ_lt hd, .inr rfl⟩
  unfold samplePresence at h
  split at h
  next u hc =>
    obtain ⟨hd, -⟩ := hcount u [] hc
    split at h <;> cases h
    · exact ⟨_, _, _, rfl, stepsLeft_next hj (by simp) hd⟩
    · exact ⟨_, _, _, rfl, stepsLeft_exit hj hd⟩
  next u f fs hc =>
    obtain ⟨hd, hfs⟩ := hcount u (f :: fs) hc
    cases h
    exact ⟨_, _, _, rfl, stepsLeft_inside hj (by simp) hd (hfs.resolve_left (by simp))⟩
  next => cases h

/-- A step of an item that asks for the lock is the Release, or brings it nearer. -/
theorem sampleBody_nears (hj : (samplePlan s.cfg.holdLock)[j]? = some item)
    (hneed : itemNeed s.cfg.holdLock item inner = some .hold) (h : sampleBody j inner s = .next t) :
    (item = .release ∧ ∃ pos, t = s.release.setPos pos) ∨ Nears s.cfg.holdLock (stepsLeft s.cfg.holdLock j inner) t := by
  simp only [sampleBody, hj] at h
  cases item with
  | presence => exact .inr (nears_of_samplePresence hj h)
  | command | readLow | readHigh => exact .inr (nears_of_sampleCall hj (by simp) (fun _ _ => callByte_frames) h)
  | release =>
    obtain ⟨rfl, -⟩ := Option.ite_none_right_eq_some.mp hneed
    cases h
    exact .inl ⟨rfl, _, rfl⟩
  | sleep =>
    obtain ⟨rfl, -⟩ := Option.ite_none_right_eq_some.mp hneed
    cases h
    exact .inr ⟨_, _, _, rfl, stepsLeft_next hj (by simp) (by decide)⟩
  | acquire | respondRaw | respondNoResponse | respondBusBusy => simp [itemNeed] at hneed

/-! ## SAMPLE with the lock -/

/-- The stepping caller's SAMPLE holds the lock, and its Release is at most `n` steps away. -/
structure HoldsWithin (s : State) (n : Nat) : Prop where
  live : s.Live
  busy : s.me.status = .busy
  held : s.lock = .held s.cur
  need : sampleNeed s.cfg.holdLock s.me.pos = some .hold
  left : ∀ f inner, s.me.pos = f :: inner → stepsLeft s.cfg.holdLock f.index inner ≤ n

/-- A position of SAMPLE is one of an item of its plan. -/
theorem sampleNeed_eq_some {pos : List Frame} {need : LockNeed} (h : sampleNeed hold pos = some need) :
    ∃ f inner item, pos = f :: inner ∧ f.proc = .sample ∧ (samplePlan hold)[f.index]? = some item ∧
      itemNeed hold item inner = some need := by
  unfold sampleNeed at h
  split at h
  next f inner =>
    obtain ⟨hf, h⟩ := Option.ite_none_right_eq_some.mp h
    split at h
    next item hitem => exact ⟨f, inner, item, rfl, hf, hitem, h⟩
    next => cases h
  next => cases h

theorem itemNeed_ne_any (hold : Bool) (item : SampleItem) (inner : List Frame) :
    itemNeed hold item inner ≠ some .any := by
  cases item <;> cases hold <;> simp [itemNeed]

/-- The positions of SAMPLE at which its caller can hold the lock are those that ask for it. -/
theorem sampleNeed_of_held {pos : List Frame} {need : LockNeed} {c : Nat} (h : sampleNeed hold pos = some need)
    (hmet : needMet need (.held c) c = true) : need = .hold := by
  obtain ⟨f, inner, item, -, -, -, hitem⟩ := sampleNeed_eq_some h
  cases need with
  | hold => rfl
  | notHold => simp [needMet] at hmet
  | any => exact absurd hitem (itemNeed_ne_any hold item inner)

theorem State.setPos_me_pos (u : State) {pos : List Frame} (hs : (u.setPos pos).cur < (u.setPos pos).ctx.length) :
    (u.setPos pos).me.pos = pos := by
  rw [State.setPos_me _ _ (by simpa using hs)]

/-- An event of the holder that leaves it in SAMPLE is its Release, or leaves it holding the lock. -/
theorem holdsWithin_of_event {e : Event} {need : LockNeed} (hl : s.Live) (hheld : s.lock = .held s.cur)
    (hact : Act s t e) (hstep : lockStep (some s.lock) e = some t.lock) (hb : t.me.status = .busy)
    (hpos : t.me.pos = ⟨.sample, j⟩ :: fs) (hneed : sampleNeed s.cfg.holdLock t.me.pos = some need)
    (hmet : needMet need t.lock s.cur = true) :
    (t.lock = .free ∧ e = .release s.cur) ∨ HoldsWithin t (stepsLeft s.cfg.holdLock j fs) := by
  have hlock := lockStep_of_holder hstep (hact.caller ▸ hheld)
  rw [hact.caller] at hlock
  obtain hheld' | hreleased := hlock
  · rw [hheld'] at hmet
    obtain rfl := sampleNeed_of_held hneed hmet
    rw [← hact.own.cfg] at hneed ⊢
    rw [← hact.own.cur] at hheld'
    refine .inr ⟨hact.acts.live hl, hb, hheld', hneed, fun f inner hf => ?_⟩
    cases hpos.symm.trans hf
    exact le_refl _
  · exact .inl hreleased

/-- A step of such a SAMPLE appends an event: its Release, or one that brings it nearer. -/
theorem HoldsWithin.step {n : Nat} (h : HoldsWithin s n) : ∃ t e, exec .sample s = .next t ∧ t.trace = s.trace ++ [e] ∧
    ((0 < n ∧ t.lock = .free ∧ e = .release s.cur) ∨ ∃ m < n, HoldsWithin t m ∧ t.cur = s.cur) := by
  obtain ⟨hl, hb, hheld, hneed, hleft⟩ := h
  obtain ⟨f, inner, item, hpos, hf, hj, hitem⟩ := sampleNeed_eq_some hneed
  replace hleft := hleft f inner hpos
  have hbody : exec .sample s = sampleBody f.index inner s := request_running hl hb hpos hf ..
  obtain ⟨t, ht, hadv⟩ := exec_proceeds hl hb .sample hneed (by simp [needMet, hheld])
  obtain ⟨rfl, pos, rfl⟩ | ⟨u, j, fs, htu, hlt⟩ := sampleBody_nears hj hitem (hbody.symm.trans ht)
  · rw [stepsLeft_release hj] at hleft
    exact ⟨_, _, ht, rfl, .inl ⟨hleft, rfl, rfl⟩⟩
  · have hstands : t.cur < t.ctx.length → t.me.pos = ⟨.sample, j⟩ :: fs := fun hs => by
      rw [htu] at hs ⊢
      exact u.setPos_me_pos hs
    obtain rfl | ⟨e, hact, hstep, hafter⟩ := hadv
    · cases hpos.symm.trans (hstands hl.2)
      exact absurd hlt (lt_irrefl _)
    · have hpos' := hstands (hact.own.bound hl.2)
      obtain ⟨-, hnil⟩ | ⟨hb', -, -, need, hneed', hmet⟩ := hafter
      · cases hpos'.symm.trans hnil
      · refine ⟨t, e, ht, hact.trace, ?_⟩
        obtain ⟨hfree, hrelease⟩ | hnext := holdsWithin_of_event hl hheld hact hstep hb' hpos' hneed' hmet
        · exact .inl ⟨by omega, hfree, hrelease⟩
        · exact .inr ⟨_, by omega, hnext, hact.own.cur⟩

/-- A SAMPLE that holds the lock reaches its Release. -/
theorem HoldsWithin.releases {n : Nat} (h : HoldsWithin s n) : ∃ k t, k ≤ n ∧ execTimes .sample k s = .next t ∧
    t.lock = .free ∧ t.trace.getLast? = some (.release s.cur) := by
  induction n using Nat.strongRecOn generalizing s with
  | ind n ih =>
    obtain ⟨t, e, ht, htrace, ⟨hn, hfree, rfl⟩ | ⟨m, hm, hnext, hcur⟩⟩ := h.step
    · exact ⟨1, t, hn, execTimes_one ht, hfree, by simp [htrace]⟩
    · obtain ⟨k, u, hk, hrun, hfree, hlast⟩ := ih m hm hnext
      exact ⟨k + 1, u, by omega, (execTimes_succ .sample k ht).trans hrun, hfree, hcur ▸ hlast⟩

/-- A caller of SAMPLE that holds the lock at a position of it. -/
theorem holdsWithin_of_need {need : LockNeed} (hl : s.Live) (hb : s.me.status = .busy) (hheld : s.lock = .held s.cur)
    (hneed : sampleNeed s.cfg.holdLock s.me.pos = some need) (hmet : needMet need s.lock s.cur = true) :
    HoldsWithin s 370 := by
  rw [hheld] at hmet
  obtain rfl := sampleNeed_of_held hneed hmet
  refine ⟨hl, hb, hheld, hneed, fun f inner hpos => stepsLeft_le ?_ inner⟩
  intro hacq
  obtain ⟨g, gs, item, hpos', -, hj, hitem⟩ := sampleNeed_eq_some hneed
  cases hpos.symm.trans hpos'
  cases hj.symm.trans hacq
  simp [itemNeed] at hitem

/-- Settles O57: under the invariant SAMPLE stands at a position of its own that asks for the lock, and each step from there
brings the Release nearer. -/
theorem sampleHolderReleases : Obligations.SampleHolderReleases := by
  intro s h hl hb hreq hheld
  obtain ⟨i, need, hi, hneed, hmet⟩ := standsWell_cases (h.standsWell hl hb)
  have hsample : decodeRequest s.me.req = .ok .sample := hreq ▸ decodeRequest_eq_ok_iff.mpr ⟨rfl, rfl⟩
  cases hsample.symm.trans hi
  exact (holdsWithin_of_need hl hb hheld hneed hmet).releases

end Sys2Proof.Machine
end

section
/-! SUPPORT. A running request waits only at an acquisition (44_lock.md R190, R192, R200): one lemma for each shape of request,
and so a lock holder always steps. O56. -/

namespace Sys2Proof.Machine

variable {s t : State}

/-! ## No shape of request waits but at an acquisition -/

theorem ne_of_trace_append {e : Event} (h : t.trace = s.trace ++ [e]) : t ≠ s := by
  rintro rfl
  simp at h

theorem request_ne_wait {w : Word} {p : Proc} {check : State → Option FaultCause}
    {body : Nat → List Frame → State → Out} (hb : s.me.status = .busy)
    (hbody : ∀ f inner, s.me.pos = f :: inner → f.proc = p → body f.index inner s ≠ .next s) :
    request w p check body s ≠ .next s := by
  intro h
  obtain ⟨-, ⟨hidle, -⟩ | ⟨-, f, inner, hpos, hf, hnext⟩⟩ := request_next h
  · cases hb.symm.trans hidle
  · exact hbody f inner hpos hf hnext

/-- A sequence moves on or answers. -/
theorem sequence_ne_wait {p : Proc} {n : Nat} {f : Frame} {inner : List Frame} {micro : Nat → State → State}
    {r : State → ResultCode} {d : State → BitVec 17} (hs : s.cur < s.ctx.length) (hpos : s.me.pos = f :: inner) :
    sequence p n micro (fun u => u.respond (r u) (d u)) f.index inner s ≠ .next s := by
  intro h
  obtain ⟨rfl, ⟨-, hmoved⟩ | ⟨-, hanswer⟩⟩ := sequence_next h
  · have hnext := (micro f.index s).setPos_me_pos (pos := [⟨p, f.index + 1⟩]) (by rwa [← hmoved])
    rw [← hmoved, hpos] at hnext
    exact absurd (congrArg Frame.index (List.singleton_inj.mp hnext)) (by simp)
  · exact ne_of_trace_append (s.respond_trace _ _) hanswer.symm

/-- A byte request takes a micro-step of a bit or answers. -/
theorem byteRequest_ne_wait {p q : Proc} {n i : Nat} {inner : List Frame} {micro : Nat → Nat → State → State}
    {r : State → ResultCode} {d : State → BitVec 17} (hs : s.cur < s.ctx.length)
    (hm : ∀ i k, i < 8 → k < n → ∃ e, Act s (micro i k s) e ∧ e.isCodec = true ∧ Stays s (micro i k s)) :
    byteRequest p q n micro (fun u => u.respond (r u) (d u)) i inner s ≠ .next s := by
  intro h
  obtain ⟨e, he⟩ := byteRequest_act hs (fun i k hi hk => (hm i k hi hk).imp fun _ h => h.1) h
  exact ne_of_trace_append he.trace rfl

/-- An acquisition by the lock's holder has been made: it answers. -/
theorem acquireBody_ne_wait {p : Proc} {bounded : Bool} {f : Frame} {inner : List Frame} {need : LockNeed}
    (hneed : acquireNeed p bounded (f :: inner) = some need) (hmet : needMet need s.lock s.cur = true)
    (hheld : s.lock = .held s.cur) : acquireBody p bounded f.index inner s ≠ .next s := by
  match inner with
  | _ :: _ => simp [acquireNeed] at hneed
  | [] =>
    obtain ⟨-, hneed⟩ := Option.ite_none_right_eq_some.mp hneed
    match hk : f.index with
    | 0 =>
      rw [hk] at hneed
      cases hneed
      simp [needMet, hheld] at hmet
    | 1 => exact fun h => ne_of_trace_append (s.respond_trace .ok 0) (Host.Outcome.next.inj h)
    | 2 =>
      cases bounded with
      | true => exact fun h => ne_of_trace_append (s.respond_trace .busBusy 0) (Host.Outcome.next.inj h)
      | false => simp [hk] at hneed
    | _ + 3 => simp [hk] at hneed

/-! ## Every request -/

/-- A caller that holds the lock as its position asks does not wait. -/
theorem exec_ne_wait {i : Instr} {need : LockNeed} (hl : s.Live) (hb : s.me.status = .busy) (hheld : s.lock = .held s.cur)
    (hneed : positionNeed s.cfg i s.me.pos = some need) (hmet : needMet need s.lock s.cur = true) :
    exec i s ≠ .next s := by
  cases i with
  | lsetout | lwrite | lsetin | lread | delayus | sleepms | rstpd | wbit | rbit | rel | decode =>
    exact request_ne_wait hb fun _ _ hpos _ => sequence_ne_wait hl.2 hpos
  | wbyte => exact request_ne_wait hb fun _ _ _ _ => byteRequest_ne_wait hl.2 fun _ _ => wbyteMicro_act s hl.2
  | rbyte => exact request_ne_wait hb fun _ _ _ _ => byteRequest_ne_wait hl.2 fun _ _ => rbyteMicro_act s hl.2
  | acq | tryacq => exact request_ne_wait hb fun _ _ hpos _ => acquireBody_ne_wait (hpos ▸ hneed) hmet hheld
  | sample =>
    obtain ⟨t, e, ht, htrace, -⟩ := (holdsWithin_of_need hl hb hheld hneed hmet).step
    intro h
    exact ne_of_trace_append htrace (Host.Outcome.next.inj (ht.symm.trans h))
  | cmdSkipRom | cmdConvertT | cmdReadScratchpad => cases hneed

/-- Settles O56: under the invariant the step is a next state, and a holder's is no wait, so it appends an event. -/
theorem holderAlwaysSteps : Obligations.HolderAlwaysSteps := by
  intro s i h hl hb hheld hi
  obtain ⟨j, need, hj, hneed, hmet⟩ := standsWell_cases (h.standsWell hl hb)
  cases hi.symm.trans hj
  obtain ⟨t, ht, rfl | ⟨e, hact, -⟩⟩ := exec_proceeds hl hb i hneed hmet
  · exact absurd ht (exec_ne_wait hl hb hheld hneed hmet)
  · exact ⟨t, e, ht, hact.trace⟩

end Sys2Proof.Machine
end

section
/-! SUPPORT. DECODE (45_temperature.md R210): its word, its run and its answer; the value its sign and magnitude give (R212), and
the text forms of the examples (R216). O38 to O40. -/

namespace Sys2Proof.Machine

variable {s : State}

/-! ## The answer -/

/-- `DATA` of DECODE's answer as a response word: `NEG` in bit 16 and `MAG` below it. -/
theorem responseWord_decodeData (r : Half) :
    responseWord .ok (decodeData r) = ((negOf r).setWidth 32 <<< 16) ||| (magOf r).setWidth 32 := by
  rw [responseWord_ok, decodeData]
  ext j hj
  by_cases h : j < 17
  · simp [h]
  · have hneg : (negOf r).getLsbD (j - 16) = false := BitVec.getLsbD_of_ge _ _ (by omega)
    have hmag : (magOf r).getLsbD j = false := BitVec.getLsbD_of_ge _ _ (by omega)
    simp [h, hneg, hmag]

/-- A caller running DECODE answers. -/
theorem exec_decode_answer (h : s.At [⟨.decode, 0⟩]) (r : Half) :
    exec (.decode r) s = .next (s.respond .ok (decodeData r)) :=
  request_sequence_answer h ..

/-- A DECODE end to end: it starts and answers. -/
theorem execTimes_decode (hr : s.AtRest) (r : Half) :
    execTimes (.decode r) 2 s = .next
      (s.completed (requestWord (.decode r)) (((negOf r).setWidth 32 <<< 16) ||| (magOf r).setWidth 32) [] id) := by
  rw [← responseWord_decodeData]
  exact execTimes_completed (i := .decode r) (n := 0) (es := []) (regs := id) hr.1.2 (request_idle hr ..) rfl
    (exec_decode_answer (State.begun_at hr.1 ..) r) (Acts.rfl _) (State.begun_me hr.1.2 ..)

/-- Settles O38: the words by their high bits, the run as a start and an answer whose word is the sign and the magnitude. -/
theorem decodeRule : Obligations.DecodeRule := by
  refine ⟨fun w hw => ?decode, fun r s hr => ?run, fun r s hat => ?answer⟩
  case decode =>
    exact decodeRequest_of_high_eq (f := .decode) rfl (by omega) (fun _ => rfl) (fun _ => rfl)
      (fun r => (BitVec.setWidth_eq r).symm) hw
  case run => exact execTimes_decode hr r
  case answer => exact ⟨_, exec_decode_answer hat r, by rw [State.respond_me _ _ _ hat.1.2]⟩

/-! ## The value -/

/-- `NEG` is set from 0x8000 on. -/
theorem negOf_eq_one_iff (r : Half) : negOf r = 1 ↔ 32768 ≤ r.toNat := by
  rw [negOf, ← BitVec.toNat_inj, BitVec.extractLsb'_toNat, Nat.shiftRight_eq_div_pow]
  have := r.isLt
  show r.toNat / 32768 % 2 = 1 ↔ _
  omega

/-- `MAG`, its negation taken at 16 bits. -/
theorem magOf_eq (r : Half) : magOf r = if 32768 ≤ r.toNat then -r else r := by
  rw [BitVec.neg_eq_not_add]
  exact if_congr (negOf_eq_one_iff r) rfl rfl

/-- The signed magnitude is the register's two's-complement value: from 0x8000 on, `MAG` is the distance to 65536. -/
theorem signedMagnitude_eq (r : Half) :
    signedMagnitude r = if r.toNat < 32768 then (r.toNat : Int) else (r.toNat : Int) - 65536 := by
  simp only [signedMagnitude, magOf_eq, negOf_eq_one_iff]
  rcases Nat.lt_or_ge r.toNat 32768 with h | h
  · rw [if_neg h.not_ge, if_neg h.not_ge, if_pos h]
  · have hmag : (-r).toNat = 65536 - r.toNat := by
      rw [BitVec.toNat_neg]
      omega
    rw [if_pos h, if_pos h, if_neg h.not_gt, hmag]
    omega

/-- The sign extension is that value too. -/
theorem temp16_eq (r : Half) : temp16 r = if r.toNat < 32768 then (r.toNat : Int) else (r.toNat : Int) - 65536 := by
  rw [temp16, BitVec.toInt_eq_toNat_cond]
  exact if_congr (by omega) rfl rfl

/-- The scaled integer lies between those of 0x8000 and 0x7FFF. -/
theorem value10000_bounds (r : Half) : -20480000 ≤ value10000 r ∧ value10000 r ≤ 20479375 := by
  have hlow : -32768 ≤ temp16 r := BitVec.le_toInt r
  have hhigh : temp16 r < 32768 := BitVec.toInt_lt
  unfold value10000
  omega

/-- Settles O39: sign and magnitude, and the sign extension, are each the two's-complement value. -/
theorem signMagnitudeIsTwosComplement : Obligations.SignMagnitudeIsTwosComplement := fun r =>
  ⟨signedMagnitude_eq r, (signedMagnitude_eq r).trans (temp16_eq r).symm, value10000_bounds r⟩

/-! ## The text -/

/-- Settles O40: the registers are literals, so the text forms are computed. -/
theorem textFormsOfTheExamples : Obligations.TextFormsOfTheExamples := by
  unfold Obligations.TextFormsOfTheExamples
  decide

end Sys2Proof.Machine
end

section
/-! SUPPORT. The start step and fault entry (60_exceptions.md): the checks of a waiting word said once (`wordCause`, O11),
which step records a fault and what it leaves (O13), and the answer as the only end of a running request (O54). -/

namespace Sys2Proof.Machine

variable {s t : State} {a : Access}

/-! ## The start step of a waiting word (R233) -/

theorem mustHold_eq_startCause_held (s : State) : mustHold .lockNotHeld s = startCause .held s.lock s.cur := by
  simp [mustHold, State.holds, startCause]

theorem mustHold_eq_startCause_owner (s : State) : mustHold .releaseNotOwner s = startCause .owner s.lock s.cur := by
  simp [mustHold, State.holds, startCause]

theorem mustNotHold_eq_startCause (s : State) : mustNotHold s = startCause .notHeld s.lock s.cur := by
  simp [mustNotHold, State.holds, startCause]

/-- The start step of a request: it makes the lock check of its own row of R233, and begins at its own procedure. -/
theorem exec_start_eq (hr : s.AtRest) {i : Instr} (hi : i.isRequest = true) :
    exec i s = .next (s.start (requestWord i) (opProc (requestWord i)) (startCause (lockCheckOf i) s.lock s.cur)) := by
  rw [opProc, opField_requestWord]
  cases i with
  | lsetout | lwrite | lsetin | lread | rstpd | wbit | rbit | wbyte | rbyte =>
    rw [lockCheckOf, ← mustHold_eq_startCause_held]
    exact request_idle hr ..
  | rel =>
    rw [lockCheckOf, ← mustHold_eq_startCause_owner]
    exact request_idle hr ..
  | acq | tryacq | sample =>
    rw [lockCheckOf, ← mustNotHold_eq_startCause]
    exact request_idle hr ..
  | delayus | sleepms | decode => exact request_idle hr ..
  | cmdSkipRom | cmdConvertT | cmdReadScratchpad => cases hi

/-- The fault of the first failing check of word `w`, its decoding before its lock check. -/
def wordCause (w : Word) (s : State) : Option FaultCause :=
  match decodeRequest w with
  | .error _ => some .illegalRequest
  | .ok i => startCause (lockCheckOf i) s.lock s.cur

theorem State.AtRest.fetched (hr : s.AtRest) : s.fetched.AtRest := by
  obtain ⟨⟨hf, hs⟩, hi⟩ := hr
  exact ⟨⟨hf, by simpa using hs⟩, by rw [State.fetched_me _ hs]; exact hi⟩

/-- Every waiting word starts, with the fault of its first failing check if there is one. -/
theorem startWord_eq (hr : s.AtRest) (w : Word) :
    startWord w s = .next (s.fetched.start w (opProc w) (wordCause w s)) := by
  unfold startWord wordCause
  cases hdecode : decodeRequest w with
  | error _ => rfl
  | ok i =>
    obtain ⟨rfl, hreq⟩ := decodeRequest_eq_ok_iff.mp hdecode
    exact exec_start_eq hr.fetched hreq

/-- Settles O11: the turn finds the waiting word, and its start step makes the checks of `wordCause`. -/
theorem startStepChecks : Obligations.StartStepChecks := by
  intro s c x w hturn hf hx hidle hport
  obtain ⟨hl, rfl⟩ := as_live (s := s.afterMove) hf hx
  rw [step_turn hturn, runTurn_waiting ⟨hl, hidle⟩ hport, startWord_eq ⟨hl, hidle⟩, start_eq, wordCause]
  cases decodeRequest w <;> rfl

/-! ## Fault entry (R236, R237) -/

/-- A turn that takes a step starts the waiting word of an IDLE caller, passes, or runs a BUSY caller's request. -/
theorem runTurn_cases {c : Nat} (h : runTurn c s = .next t) :
    ((s.as c).AtRest ∧ ∃ w, (s.as c).me.port = some w ∧ startWord w (s.as c) = .next t)
      ∨ t = s.as c ∨ ∃ a, Runs a (s.as c) t := by
  simp only [runTurn] at h
  split at h
  · cases h
  next hf =>
  split at h
  · cases h
    exact .inr (.inl rfl)
  next hc =>
  have hl : (s.as c).Live := live_iff.mpr ⟨by simpa using hf, hc⟩
  split at h
  next hidle =>
    split at h
    next w hport => exact .inl ⟨⟨hl, hidle⟩, w, hport, h⟩
    · cases h
      exact .inr (.inl rfl)
  next hbusy =>
    split at h
    next i _ =>
      obtain ⟨_, ⟨hidle, _⟩ | ⟨_, hruns⟩⟩ := exec_steps i h
      · exact absurd (hidle.symm.trans hbusy) (by decide)
      · exact .inr (.inr ⟨_, hruns⟩)
    · cases h

/-- A running request records no fault: every check is made at its start. -/
theorem Runs.fault (h : Runs a s t) : t.fault = s.fault := by
  cases h with
  | wait => rfl
  | micro hm pos => exact hm.act.fault
  | answer r d => rfl

/-- A step that records a fault starts the waiting word of an IDLE caller, and the fault is that word's. -/
theorem step_records_fault (h : step s = .next t) (hf : s.fault.cause = .none) (ht : t.fault.cause ≠ .none) :
    ∃ c x w cause, s.ctx[c]? = some x ∧ x.status = .idle ∧ x.port = some w
      ∧ t = (s.afterMove.as c).fetched.begunFault w (opProc w) cause := by
  unfold step runMove at h
  split at h
  next c _ =>
    obtain ⟨hr, w, hport, hstart⟩ | rfl | ⟨a, hruns⟩ := runTurn_cases h
    · obtain ⟨hl, hidle⟩ := hr
      cases (startWord_eq ⟨hl, hidle⟩ w).symm.trans hstart
      rw [start_eq] at ht ⊢
      cases hcause : wordCause w (s.afterMove.as c) with
      | none =>
        rw [hcause] at ht
        exact absurd hf ht
      | some cause => exact ⟨c, _, w, cause, (s.afterMove.as c).getElem?_me hl.2, hidle, hport, rfl⟩
    · exact absurd hf ht
    · exact absurd hf (hruns.fault ▸ ht)
  · cases hostPlace_next h
    exact absurd hf ht
  · cases hostTake_next h
    exact absurd hf ht
  · cases hostReset_next h
    exact absurd rfl ht

/-- R236: in the halted engine no caller has an enabled step, no port accepts a request, and the state is not final. -/
theorem halted_stops (h : t.fault.cause ≠ .none) :
    (∀ c, t.enabled c = false) ∧ (∀ c w, runMove (.place c w) t = .fault .halted) ∧ t.final = false := by
  have hf : t.faulted = true := by simpa [State.faulted] using h
  exact ⟨fun c => by simp [State.enabled, hf], fun c w => by simp [runMove, State.hostPlace, hf], by simp [State.final, h]⟩

/-- The start step and the fetch change the context of their own caller alone. -/
theorem State.begunFault_fetched_others (s : State) (w : Word) (p : Proc) (cause : FaultCause) {d : Nat} (hd : d ≠ s.cur) :
    (s.fetched.begunFault w p cause).ctx[d]? = s.ctx[d]? := by
  simp [State.begunFault, State.begun, hd.symm]

/-- The start step and the fetch leave the caller's response as it was. -/
theorem State.begunFault_fetched_answer (hs : s.cur < s.ctx.length) (w : Word) (p : Proc) (cause : FaultCause) :
    (s.fetched.begunFault w p cause).me.resp = s.me.resp ∧ (s.fetched.begunFault w p cause).me.ready = s.me.ready := by
  simp [State.me, State.begunFault, State.begun, hs]

/-- Settles O13: the step is the start step of a waiting word with its fault recorded, and that is all it did. -/
theorem faultEntry : Obligations.FaultEntry := by
  intro s t h hf ht
  obtain ⟨c, x, w, cause, hx, hidle, hport, rfl⟩ := step_records_fault h hf ht
  obtain ⟨hl, rfl⟩ := as_live (s := s.afterMove) hf hx
  obtain ⟨hresp, hready⟩ := State.begunFault_fetched_answer hl.2 w (opProc w) cause
  exact ⟨⟨_, w, hx, hidle, hport, rfl, rfl, hresp, hready⟩, rfl, rfl, rfl, rfl, rfl, rfl,
    fun d hd => (s.afterMove.as c).begunFault_fetched_others w (opProc w) cause hd, halted_stops ht⟩

/-! ## The answer (R250) -/

/-- The respond micro-step is what a request with no more events and no more registers leaves when it is answered. -/
theorem respond_eq_completed (hs : s.cur < s.ctx.length) (r : ResultCode) (d : BitVec 17) :
    s.respond r d = s.completed s.me.req (responseWord r d) [] id := by
  rw [respond_eq, State.completed, List.append_nil]
  congr 1
  exact s.modify_congr hs rfl

/-- Settles O54: a wait and a micro-step leave the caller BUSY, so what leaves it IDLE is the answer. -/
theorem respondEndsEveryRequest : Obligations.RespondEndsEveryRequest := by
  intro i s t hbusy h hidle
  obtain ⟨hl, ⟨hrest, _⟩ | ⟨_, hruns⟩⟩ := exec_steps i h
  · exact absurd (hrest.symm.trans hbusy) (by decide)
  · cases hruns with
    | wait => exact absurd (hidle.symm.trans hbusy) (by decide)
    | @micro u e hm pos =>
      have hstays : (u.setPos pos).me.status = s.me.status := by
        rw [State.setPos_me _ _ (hm.act.own.bound hl.2)]
        exact hm.stays.status
      exact absurd (hidle.symm.trans (hstays.trans hbusy)) (by decide)
    | answer r d => exact ⟨r, d, respond_eq_completed hl.2 r d⟩

end Sys2Proof.Machine
end

section
/-! SUPPORT. The durations of 70_reset_and_hazards.md R274: the sum of the delay arguments of each operation, by its slots, in
every Timing Profile; O42 is these sums at the default profile. -/

namespace Sys2Proof.Machine

variable (t : Timing) (c : Nat)

/-! ## The sum over a trace -/

@[simp] theorem minDurationUs_nil : minDurationUs [] = 0 := rfl

@[simp] theorem minDurationUs_cons (e : Event) (es : List Event) :
    minDurationUs (e :: es) = e.minUs + minDurationUs es := by
  simp [minDurationUs]

@[simp] theorem minDurationUs_append (es fs : List Event) :
    minDurationUs (es ++ fs) = minDurationUs es + minDurationUs fs := by
  simp [minDurationUs]

/-- Slots of one duration take that duration times their number. -/
theorem minDurationUs_flatMap {α : Type} {f : α → List Event} {n : Nat} (hslot : ∀ x, minDurationUs (f x) = n)
    (xs : List α) : minDurationUs (xs.flatMap f) = xs.length * n := by
  induction xs with
  | nil => simp
  | cons x xs ih => rw [List.flatMap_cons, minDurationUs_append, hslot, ih, List.length_cons, Nat.succ_mul, Nat.add_comm]

/-! ## The codec (R120, R124, R127, R150, R152) -/

theorem minDurationUs_rstpdEvents (v : Level) :
    minDurationUs (rstpdEvents t c v) = t.rstlUs.toNat + t.pdsUs.toNat + t.pdrestUs.toNat := by
  simp [rstpdEvents, Event.minUs, Nat.add_assoc]

theorem minDurationUs_wbitEvents (b : Level) :
    minDurationUs (wbitEvents t c b) = t.wIdleUs.toNat + t.wLowUs.toNat + t.wSlotUs.toNat + t.wRecUs.toNat := by
  simp [wbitEvents, Event.minUs, Nat.add_assoc]

theorem minDurationUs_rbitEvents (v : Level) :
    minDurationUs (rbitEvents t c v) = t.rLowUs.toNat + t.rSettleUs.toNat + t.rRestUs.toNat := by
  simp [rbitEvents, Event.minUs, Nat.add_assoc]

theorem minDurationUs_wbyteEvents (b : Byte) :
    minDurationUs (wbyteEvents t c b) =
      8 * (t.wIdleUs.toNat + t.wLowUs.toNat + t.wSlotUs.toNat + t.wRecUs.toNat) :=
  minDurationUs_flatMap (fun i => minDurationUs_wbitEvents t c (b.extractLsb' i 1)) (List.range 8)

theorem minDurationUs_rbyteEvents (e : Env) (k : Nat) :
    minDurationUs (rbyteEvents t c e k) = 8 * (t.rLowUs.toNat + t.rSettleUs.toNat + t.rRestUs.toNat) :=
  minDurationUs_flatMap (fun i => minDurationUs_rbitEvents t c (e.level (k + i))) (List.range 8)

/-! ## A successful SAMPLE (R173) -/

theorem minDurationUs_sampleFirstEvents (g : Config) :
    minDurationUs (sampleFirstEvents g c) =
      minDurationUs (rstpdEvents g.timing c 0) + minDurationUs (wbyteEvents g.timing c g.commands.skipRom)
        + minDurationUs (wbyteEvents g.timing c g.commands.convertT) := by
  simp [sampleFirstEvents, Event.minUs, Nat.add_assoc]

/-- Leaving the lock for the conversion and taking it again stand for no time of their own. -/
theorem minDurationUs_sampleWaitEvents (g : Config) :
    minDurationUs (sampleWaitEvents g c) = 1000 * g.timing.convMs.toNat := by
  cases hhold : g.holdLock <;> simp [sampleWaitEvents, hhold, Event.minUs]

theorem minDurationUs_sampleSecondEvents (g : Config) (e : Env) :
    minDurationUs (sampleSecondEvents g c e) =
      minDurationUs (rstpdEvents g.timing c 0) + minDurationUs (wbyteEvents g.timing c g.commands.skipRom)
        + minDurationUs (wbyteEvents g.timing c g.commands.readScratchpad)
        + minDurationUs (rbyteEvents g.timing c e 2) + minDurationUs (rbyteEvents g.timing c e 10) := by
  simp [sampleSecondEvents, Event.minUs, Nat.add_assoc]

/-! ## The default Timing Profile (00_scope.md R7) -/

theorem minDurationUs_rstpdEvents_default (v : Level) : minDurationUs (rstpdEvents Timing.default c v) = 560 :=
  minDurationUs_rstpdEvents Timing.default c v

theorem minDurationUs_wbyteEvents_default (b : Byte) : minDurationUs (wbyteEvents Timing.default c b) = 592 :=
  minDurationUs_wbyteEvents Timing.default c b

theorem minDurationUs_rbyteEvents_default (e : Env) (k : Nat) : minDurationUs (rbyteEvents Timing.default c e k) = 480 :=
  minDurationUs_rbyteEvents Timing.default c e k

/-- R274's sum for SAMPLE: two resets, four commands, two bytes read and the conversion wait. -/
theorem minDurationUs_sample {g : Config} (hg : g.timing = Timing.default) (e : Env) :
    minDurationUs (sampleFirstEvents g c ++ sampleWaitEvents g c ++ sampleSecondEvents g c e)
      = 2 * 560 + 4 * 592 + 2 * 480 + 1000 * 750 := by
  have hconv : g.timing.convMs.toNat = 750 := by rw [hg]; rfl
  rw [minDurationUs_append, minDurationUs_append, minDurationUs_sampleFirstEvents, minDurationUs_sampleWaitEvents,
    minDurationUs_sampleSecondEvents, hconv, hg]
  simp only [minDurationUs_rstpdEvents_default, minDurationUs_wbyteEvents_default, minDurationUs_rbyteEvents_default]

/-- Settles O42: each operation's sum at the default profile, whatever the level, the byte and the draws; holding the lock
over the conversion adds no delay to SAMPLE's. -/
theorem delaySums : Obligations.DelaySums := by
  intro c v b B e k hold
  exact ⟨minDurationUs_rstpdEvents_default c v, minDurationUs_wbitEvents Timing.default c b,
    minDurationUs_rbitEvents Timing.default c v, minDurationUs_wbyteEvents_default c B,
    minDurationUs_rbyteEvents_default c e k, minDurationUs_sample c rfl e⟩

end Sys2Proof.Machine
end

section
/-! SUPPORT. The host's moves in a running engine (60_exceptions.md R252: O9), and a turn that passes because its caller has no
enabled step (44_lock.md R196, log 4: O10). -/

namespace Sys2Proof.Machine

variable {s : State} {c : Nat}

/-! ## The host's moves -/

theorem step_place {w : Word} (h : s.nextMove = .place c w) : step s = s.afterMove.hostPlace c w := by
  simp only [step, h, runMove]

theorem step_take (h : s.nextMove = .take c) : step s = s.afterMove.hostTake c := by
  simp only [step, h, runMove]

theorem faulted_eq_false (h : s.fault.cause = .none) : s.faulted = false := by
  simp [State.faulted, h]

/-- The host's word goes to an IDLE caller whose port is empty. -/
theorem hostPlace_of_caller (hf : s.fault.cause = .none) {x : Ctx} (hx : s.ctx[c]? = some x) (w : Word) :
    s.hostPlace c w = if x.status = .idle ∧ x.port = none
      then .next (s.mapCtx c fun x => { x with port := some w }) else .refused .portOccupied := by
  simp [State.hostPlace, faulted_eq_false hf, hx]

/-- The host takes a response that is ready. -/
theorem hostTake_of_caller (hf : s.fault.cause = .none) {x : Ctx} (hx : s.ctx[c]? = some x) :
    s.hostTake c = if x.ready = true
      then .next (s.mapCtx c fun x => { x with ready := false }) else .refused .nothingToTake := by
  simp [State.hostTake, faulted_eq_false hf, hx]

/-- There is no port but a caller's. -/
theorem host_of_no_caller (hf : s.fault.cause = .none) (hx : s.ctx[c]? = none) (w : Word) :
    s.hostPlace c w = .refused .noSuchCaller ∧ s.hostTake c = .refused .noSuchCaller := by
  simp [State.hostPlace, State.hostTake, faulted_eq_false hf, hx]

/-- Settles O9: each move by whether its caller exists, and then by what that caller's port holds. -/
theorem stepTakesTheHostsMoves : Obligations.StepTakesTheHostsMoves := by
  refine fun s hf => ⟨fun c w x hmove hx => ?place, fun c x hmove hx => ?take, fun c w hmove hc => ?noCaller⟩
  case place => exact (step_place hmove).trans (hostPlace_of_caller (s := s.afterMove) hf hx w)
  case take => exact (step_take hmove).trans (hostTake_of_caller (s := s.afterMove) hf hx)
  case noCaller =>
    obtain ⟨hplace, htake⟩ := host_of_no_caller (s := s.afterMove) hf (List.getElem?_eq_none hc) w
    rcases hmove with hmove | hmove
    · rw [step_place hmove, hplace]
    · rw [step_take hmove, htake]

/-! ## A blocked caller -/

/-- An acquisition waits where the lock is taken and no time-out is enabled. -/
theorem grab_eq_wait_iff (bounded : Bool) :
    s.grab bounded = .wait ↔ s.lock ≠ .free ∧ (bounded = true → s.lock = .held s.cur) := by
  rcases s.grab_cases bounded with ⟨hlock, hgrab⟩ | ⟨d, hlock, hd, hbounded, hgrab⟩ | ⟨⟨d, hlock, hd⟩, hgrab⟩
  · simp [hgrab, hlock]
  · subst hbounded
    simp [hgrab, hlock, hd]
  · rcases hd with rfl | rfl <;> simp [hgrab, hlock]

/-- The positions at which a caller can only wait: those of an acquisition that waits. -/
inductive Blocked (s : State) : List Frame → Prop
  | acq (h : s.grab false = .wait) : Blocked s [⟨.acq, 0⟩]
  | tryacq (h : s.grab true = .wait) : Blocked s [⟨.tryacq, 0⟩]
  | sample {j : Nat} (hj : (samplePlan s.cfg.holdLock)[j]? = some .acquire)
      (h : s.grab s.cfg.acquireBound.isSome = .wait) : Blocked s [⟨.sample, j⟩]

/-- A running caller without an enabled step is blocked. -/
theorem blocked_of_not_enabled (hl : s.Live) (hb : s.me.status = .busy) (h : s.enabled s.cur = false) :
    Blocked s s.me.pos := by
  simp only [State.enabled, faulted_eq_false hl.1, s.getElem?_me hl.2, hb, Bool.false_eq_true, if_false] at h
  split at h
  next hpos => exact hpos ▸ .acq ((grab_eq_wait_iff _).mpr (by simpa using h))
  next hpos =>
    have hown : s.lock = .held s.cur := by simpa using h
    exact hpos ▸ .tryacq (State.grab_of_own hown _)
  next j hpos =>
    split at h
    next hj => exact hpos ▸ .sample hj ((grab_eq_wait_iff _).mpr (by simpa using h))
    · cases h
  · cases h

theorem sampleNeed_proc {hold : Bool} {need : LockNeed} {f : Frame} {inner : List Frame}
    (h : sampleNeed hold (f :: inner) = some need) : f.proc = .sample := by
  by_contra hf
  simp [sampleNeed, hf] at h

/-- Of all requests only ACQ has a position in ACQ's frame, and only TRYACQ one in TRYACQ's. -/
theorem acquisition_of_positionNeed {g : Config} {i : Instr} {f : Frame} {inner : List Frame} {need : LockNeed}
    (h : positionNeed g i (f :: inner) = some need) :
    (f.proc = .acq → i = .acq) ∧ (f.proc = .tryacq → ∃ b, i = .tryacq b) := by
  cases i with
  | acq | tryacq => simp [acquireNeed_proc h]
  | lsetout | lwrite | lsetin | lread | delayus | sleepms | rstpd | wbit | rbit | rel | decode => simp [seqNeed_proc h]
  | wbyte | rbyte => simp [byteNeed_proc h]
  | sample => simp [sampleNeed_proc h]
  | cmdSkipRom | cmdConvertT | cmdReadScratchpad => cases h

/-- A blocked caller's request waits. -/
theorem exec_of_blocked {i : Instr} {pos : List Frame} {need : LockNeed} (hat : s.At pos) (hblocked : Blocked s pos)
    (hneed : positionNeed s.cfg i pos = some need) : exec i s = .next s := by
  cases hblocked with
  | acq hwait =>
    obtain rfl := (acquisition_of_positionNeed hneed).1 rfl
    exact (request_acquireBody hat ..).trans (acquireBody_wait hwait .acq)
  | tryacq hwait =>
    obtain ⟨b, rfl⟩ := (acquisition_of_positionNeed hneed).2 rfl
    exact (request_acquireBody hat ..).trans (acquireBody_wait hwait .tryacq)
  | sample hj hwait =>
    obtain rfl := eq_sample_of_positionNeed hneed rfl
    rw [exec_sample_item hat hj, sampleItem, sampleAcquire, hwait]

/-- A blocked caller sends no wire command. -/
theorem Blocked.commandAt {pos : List Frame} (h : Blocked s pos) : Machine.commandAt s.cfg pos = none := by
  cases h with
  | acq | tryacq => rfl
  | sample hj => simp [Machine.commandAt, hj]

/-! ## The turn that passes -/

theorem runTurn_of_no_caller (hf : s.fault.cause = .none) (hc : s.ctx[c]? = none) : runTurn c s = .next (s.as c) := by
  have hf' : (s.as c).faulted = false := faulted_eq_false hf
  simp [runTurn, hf', List.getElem?_eq_none_iff.mp hc]

/-- A blocked caller's turn is a step of its request, which waits. -/
theorem runTurn_of_blocked (h : s.Inv) (hl : (s.as c).Live) (hb : (s.as c).me.status = .busy)
    (hblocked : Blocked (s.as c) (s.as c).me.pos) : runTurn c s = .next (s.as c) := by
  have hwell : (s.as c).Inv := h
  obtain ⟨i, need, hi, hneed, -⟩ := standsWell_cases (hwell.standsWell hl hb)
  rw [runTurn_running hl hb (running_of_commandAt_none hblocked.commandAt hi)]
  exact exec_of_blocked ⟨hl, hb, rfl⟩ hblocked hneed

/-- Settles O10: the caller does not exist, is IDLE with an empty port, or is blocked. -/
theorem turnOfADisabledCallerPasses : Obligations.TurnOfADisabledCallerPasses := by
  intro s c hinv hf hturn hdisabled
  have hdisabled : (s.afterMove.as c).enabled c = false := hdisabled
  rw [step_turn hturn]
  cases hx : s.ctx[c]? with
  | none => exact runTurn_of_no_caller hf hx
  | some x =>
    obtain ⟨hl, rfl⟩ := as_live (s := s.afterMove) hf hx
    cases hstatus : (s.afterMove.as c).me.status with
    | idle =>
      have hport : (s.afterMove.as c).me.port = none := by
        simpa [State.enabled, faulted_eq_false hl.1, (s.afterMove.as c).getElem?_me hl.2, hx, hstatus] using hdisabled
      exact runTurn_pass ⟨hl, hstatus⟩ hport
    | busy => exact runTurn_of_blocked hinv hl hstatus (blocked_of_not_enabled hl hstatus hdisabled)

end Sys2Proof.Machine
end

section
/-! SUPPORT. A wire command of a caller that is not at its call in SAMPLE is the WBYTE of its byte (log 15): its start,
among those of every instruction (60_exceptions.md R233: O12), and its run to the answer (O37). -/

namespace Sys2Proof.Machine

variable {s t : State}

/-- The caller stands at no call of SAMPLE that sends a wire command. -/
def State.SendsNone (s : State) : Prop := s.me.status = .busy → commandAt s.cfg s.me.pos = none

theorem sendsNone_of_idle (h : s.me.status = .idle) : s.SendsNone := fun hb => absurd (h.symm.trans hb) (by decide)

theorem exec_command (k : WireCmd) (s : State) : exec k.instr s = sendCommand k s := by
  cases k <;> rfl

theorem exec_command_eq_wbyte {k : WireCmd} (h : s.SendsNone) :
    exec k.instr s = exec (.wbyte (k.byte s.cfg.commands)) s := by
  rw [exec_command, sendCommand, if_neg fun ⟨hb, hk⟩ => by simp [h hb] at hk]
  rfl

/-- Settles O12: a request makes the check of its own row; a wire command starts as the WBYTE of its byte, whose row is its
own. -/
theorem everyRequestStarts : Obligations.EveryRequestStarts := by
  intro s i hr
  cases hwire : i.wire with
  | none =>
    have hrequest : i.isRequest = true := by rw [Instr.isRequest, hwire, Option.isNone_none]
    exact (exec_start_eq hr hrequest).trans (congrArg Host.Outcome.next (start_eq ..))
  | some k =>
    obtain rfl := instr_of_wire hwire
    have hcheck : lockCheckOf k.instr = lockCheckOf (.wbyte (k.byte s.cfg.commands)) := by cases k <;> rfl
    rw [exec_command_eq_wbyte (sendsNone_of_idle hr.2), hcheck]
    exact (exec_start_eq hr rfl).trans (congrArg Host.Outcome.next (start_eq ..))

/-! ## The run -/

/-- Two instructions that step alike wherever `P` holds run alike, if the second's steps keep `P`. -/
theorem execTimes_congr {i j : Instr} {P : State → Prop} (hexec : ∀ u, P u → exec i u = exec j u)
    (hkeep : ∀ u v, P u → exec j u = .next v → P v) (n : Nat) (hs : P s) : execTimes i n s = execTimes j n s := by
  induction n generalizing s with
  | zero => rfl
  | succ n ih =>
    cases hj : exec j s with
    | next t => rw [execTimes_succ i n ((hexec s hs).trans hj), execTimes_succ j n hj, ih (hkeep s t hs hj)]
    | fault f => simp only [execTimes, hexec s hs, hj]
    | refused r => simp only [execTimes, hexec s hs, hj]

/-- A byte request that is not answered stands in its own frame. -/
theorem byteRequest_next_pos {p q : Proc} {n i : Nat} {inner : List Frame} {micro : Nat → Nat → State → State}
    {answer : State → State} (h : byteRequest p q n micro answer i inner s = .next t) :
    t = answer s ∨ ∃ u j fs, t = State.setPos u (⟨p, j⟩ :: fs) := by
  unfold byteRequest at h
  split at h
  · cases h
    exact .inl rfl
  · split at h <;> cases h
    exact .inr ⟨_, _, _, rfl⟩

theorem State.start_pos (hs : s.cur < s.ctx.length) (w : Word) (p : Proc) (cause : Option FaultCause) :
    (s.start w p cause).me.pos = [⟨p, 0⟩] := by
  cases cause <;> simp [State.start, hs]

/-- WBYTE never brings its caller to a call of SAMPLE. -/
theorem wbyte_sendsNone {b : Byte} (h : exec (.wbyte b) s = .next t) : t.SendsNone := by
  obtain ⟨-, hcur, hlen, -⟩ := everyInstructionWritesOnlyItsAccess _ s t h
  obtain ⟨hl, ⟨-, rfl⟩ | ⟨-, f, inner, -, -, hbody⟩⟩ := request_next h
  · intro _
    rw [State.start_pos hl.2]
    rfl
  · obtain rfl | ⟨u, j, fs, rfl⟩ := byteRequest_next_pos hbody
    · exact sendsNone_of_idle (by rw [State.respond_me _ _ _ hl.2])
    · intro _
      rw [u.setPos_me_pos (by rw [hcur, hlen]; exact hl.2)]
      rfl

/-- Settles O37: an IDLE caller is not in SAMPLE and WBYTE does not bring it there, so the run is that of WBYTE. -/
theorem wireCommandsAreWbyteRequests : Obligations.WireCommandsAreWbyteRequests := by
  intro s k hr hheld
  rw [← execTimes_wbyte (k.byte s.cfg.commands) hr hheld]
  refine execTimes_congr (P := fun u => u.cfg = s.cfg ∧ u.SendsNone) (fun u ⟨hcfg, hu⟩ => ?step)
    (fun u v ⟨hcfg, _⟩ hv => ?keep) 66 ⟨rfl, sendsNone_of_idle hr.2⟩
  case step => rw [exec_command_eq_wbyte hu, hcfg]
  case keep =>
    obtain ⟨hsame, -⟩ := everyInstructionWritesOnlyItsAccess _ u v hv
    exact ⟨hsame.trans hcfg, wbyte_sendsNone hv⟩

end Sys2Proof.Machine
end

section
/-! SUPPORT. The halted engine (60_exceptions.md R236, R238: O14), and engine reset (70_reset_and_hazards.md R260: O43, O44). -/

namespace Sys2Proof.Machine

variable {s : State}

theorem step_engineReset (h : s.nextMove = .engineReset) : step s = s.afterMove.hostReset := by
  simp only [step, h, runMove]

/-! ## The halted engine -/

theorem request_halted (h : s.faulted = true) (w : Word) (p : Proc) (check : State → Option FaultCause)
    (body : Nat → List Frame → State → Out) : request w p check body s = .fault .halted := by
  rw [request, if_pos h]

/-- In the halted engine no instruction steps: each is a request, a wire command SAMPLE's or WBYTE's. -/
theorem exec_halted (h : s.faulted = true) (i : Instr) : exec i s = .fault .halted := by
  have send : ∀ k, sendCommand k s = .fault .halted := fun k => by
    unfold sendCommand
    split <;> exact request_halted h ..
  cases i with
  | cmdSkipRom | cmdConvertT | cmdReadScratchpad => exact send _
  | lsetout | lwrite | lsetin | lread | delayus | sleepms | rstpd | wbit | rbit | wbyte | rbyte | acq | tryacq | rel
  | sample | decode => exact request_halted h ..

/-- In the halted engine no move but the host's reset is taken. -/
theorem runMove_halted (h : s.faulted = true) {m : Move} (hm : m ≠ .engineReset) : runMove m s = .fault .halted := by
  cases m with
  | turn c =>
    have hc : (s.as c).faulted = true := h
    simp [runMove, runTurn, hc]
  | place c w => simp [runMove, State.hostPlace, h]
  | take c => simp [runMove, State.hostTake, h]
  | engineReset => exact absurd rfl hm

/-- Settles O14: every other way on first asks whether the engine has halted; reset is permitted then. -/
theorem haltedEngineOnlyResets : Obligations.HaltedEngineOnlyResets := by
  intro s hf
  have hfaulted : s.faulted = true := by simpa [State.faulted] using hf
  refine ⟨exec_halted hfaulted, runMove_halted (s := s.afterMove) hfaulted, fun hreset => ?_⟩
  rw [step_engineReset hreset]
  exact if_pos (.inl hfaulted)

/-! ## Engine reset -/

theorem resetWith_isReset (cfg : Config) (env : Env) : (State.resetWith cfg env).IsReset := by
  refine ⟨rfl, rfl, rfl, List.length_replicate, fun c x hx => ?_⟩
  obtain ⟨-, rfl⟩ := List.mem_replicate.mp (List.mem_of_getElem? hx)
  exact ⟨rfl, rfl, rfl, Nat.zero_le 8⟩

/-- Reset of a running engine is permitted when no caller is BUSY. -/
theorem hostReset_of_idle (h : ∀ x ∈ s.ctx, x.status = .idle) : s.hostReset = .next s.engineReset :=
  if_pos (.inr (by simpa using h))

theorem hostReset_of_busy (hf : s.fault.cause = .none) {x : Ctx} (hx : x ∈ s.ctx) (hb : x.status = .busy) :
    s.hostReset = .refused .resetWhileBusy := by
  refine if_neg ?_
  rintro (h | h)
  · simp [faulted_eq_false hf] at h
  · simpa [hb] using List.all_eq_true.mp h x hx

/-- Settles O43: the reset state of every configuration, and when the host's reset is taken. -/
theorem resetRule : Obligations.ResetRule := by
  refine ⟨resetWith_isReset .., resetWith_isReset, fun s hf hmove => ⟨fun hidle => ?idle, fun ⟨x, hx, hb⟩ => ?busy⟩⟩
  case idle =>
    exact ⟨_, (step_engineReset hmove).trans (hostReset_of_idle (s := s.afterMove) hidle), resetWith_isReset .., rfl, rfl⟩
  case busy => exact (step_engineReset hmove).trans (hostReset_of_busy (s := s.afterMove) hf hx hb)

/-- In a reset state the lock is free, `TRACE` is empty and every caller is IDLE with no position. -/
theorem State.IsReset.inv (h : s.IsReset) : s.Inv := by
  obtain ⟨hlock, -, htrace, hlen, hctx⟩ := h
  refine ⟨hlen, by simp [hlock], by rw [htrace, hlock]; rfl, fun c x hx => ?_⟩
  obtain ⟨hidle, hpos, -, hidx⟩ := hctx c x hx
  exact ctxWell_iff.mpr ⟨hidx, fun _ => hpos, fun hb => absurd (hidle.symm.trans hb) (by decide)⟩

/-- Settles O44: every reset state meets the invariant, and `State.reset` is one. -/
theorem resetMeetsTheInvariant : Obligations.ResetMeetsTheInvariant :=
  ⟨fun _ => State.IsReset.inv, (resetWith_isReset ..).inv⟩

end Sys2Proof.Machine
end

section
/-! SUPPORT. SAMPLE's own micro-steps, each at its item (43_transaction.md R161, R164, R169, R170): O35. -/

namespace Sys2Proof.Machine

variable {s : State} {j : Nat}

/-- An acquisition of SAMPLE with no bound configured waits for a lock that is taken (logs 4 and 22). -/
theorem exec_sample_wait {d : Nat} (hat : s.At [⟨.sample, j⟩]) (hj : (samplePlan s.cfg.holdLock)[j]? = some .acquire)
    (hheld : s.lock = .held d) (hbound : s.cfg.acquireBound = none) : exec .sample s = .next s := by
  rw [exec_sample_item hat hj, sampleItem, sampleAcquire, hbound, Option.isSome_none, State.grab_of_held_unbounded hheld]

/-- Settles O35: the step is that of the item; an acquisition is taken or waits by what the lock is. -/
theorem sampleOwnMicroStepsComplete : Obligations.SampleOwnMicroStepsComplete := by
  intro s j hat
  refine ⟨fun hj hfree => ?acquire, fun d hj hheld hbound => exec_sample_wait hat hj hheld hbound, fun hj => ?release,
    fun hj => ?sleep, fun hj => ?answer⟩
  case acquire =>
    rw [exec_sample_item hat hj, sampleItem, sampleAcquire, State.grab_of_free hfree]
    rfl
  case release => exact exec_sample_item hat hj
  case sleep => exact exec_sample_item hat hj
  case answer =>
    rw [exec_sample_item hat hj, sampleItem, respond_eq_completed hat.1.2, responseWord_ok,
      BitVec.setWidth_setWidth (by omega)]

end Sys2Proof.Machine
end
